-- ==== Sys2Proof/Word.lean ====
section
/-! DEFINITION. The words and bytes the KD11-D moves, and the two operand sizes (spec R7, R11). Octal numbers are
written with Lean's own prefix 0o. -/

namespace Sys2Proof

/-- A 16-bit word: a register, an address, an instruction word (R7, R20, R50). -/
abbrev Word := BitVec 16

/-- An 8-bit byte (R7, R50). -/
abbrev Byte := BitVec 8

/-- The operand width `W` of an instruction: 8 or 16 bits (R15). -/
inductive Size where
  | byte
  | word
deriving DecidableEq, Repr

/-- `W`, the width in bits (R15). -/
abbrev Size.bits : Size → Nat
  | .byte => 8
  | .word => 16

end Sys2Proof
end

