-- ==== Sys2Proof/Config.lean ====
section
/-! DEFINITION. What the installation fixes and what the spec leaves open (R8, 92_eei_decisions.md,
93_implementation_defined.md): the bus map, the parity jumpers, the named open parameters, and the free values, whose
constants have no body, so that nothing can be proved of what they are. -/

namespace Sys2Proof.Config

/-- The four bus transfers of the processor (R55). -/
inductive Transfer where
  /-- Read of a word. -/
  | dati
  /-- Read of a word that a write to the same address follows. -/
  | datip
  /-- Write of a word. -/
  | dato
  /-- Write of a byte. -/
  | datob
deriving DecidableEq, Repr

/-- What answers in a stretch of the address space. -/
inductive RegionKind where
  /-- Memory: a read gives what was last written (R77). -/
  | memory
  /-- A device's registers, whose behaviour is outside the spec (R68, R77): what they answer is a free value. -/
  | device
deriving DecidableEq, Repr

/-- A stretch of addresses, `base` to `base + size - 1`, whose slave answers the transfers of `answers` (R64). -/
structure Region where
  base : Nat
  size : Nat
  kind : RegionKind
  answers : List Transfer
deriving DecidableEq, Repr

/-- Where the condition codes come from after an instruction has written 177776 (D2). -/
inductive PswWriteCc where
  /-- Bits 3:0 of the word written. -/
  | data
  /-- The instruction's own condition codes. -/
  | instruction
deriving DecidableEq, Repr

/-- The open parameters that the spec names, with the values it gives them. -/
structure Params where
  /-- `psw_write_cc` (R34, D2); `none`: not given, and the condition codes are then any value. -/
  pswWriteCc : Option PswWriteCc
  /-- `mode3_abort_incremented` (R124, D3); `none`: not given, and either may happen each time. -/
  mode3AbortIncremented : Option Bool
  /-- `rts_abort_pc_loaded` (R219, D17). -/
  rtsAbortPcLoaded : Bool
  /-- `rti_abort_pc_loaded` (R227, D17). -/
  rtiAbortPcLoaded : Bool
  /-- `trace_after_psw_write` (D5). -/
  traceAfterPswWrite : Bool
  /-- `trace_after_trap_instruction` (R225, D5). -/
  traceAfterTrapInstruction : Bool
  /-- `stov_retrigger` (R271, U5). -/
  stovRetrigger : Bool
  /-- `sbc_v_needs_carry` (R155, U3). -/
  sbcVNeedsCarry : Bool
  /-- `mov_clr_read_before_write` (R60, U9). -/
  movClrReadBeforeWrite : Bool
  /-- `trace_vector` (R263, D9). -/
  traceVector : Word
  /-- `stack_overflow_vector` (R263, D9). -/
  stackOverflowVector : Word
deriving DecidableEq, Repr

/-- The spec's defaults; the two parameters that have none (D2, D3) are not given (logs 11 to 14). -/
def Params.default : Params where
  pswWriteCc := none
  mode3AbortIncremented := none
  rtsAbortPcLoaded := true
  rtiAbortPcLoaded := true
  traceAfterPswWrite := true
  traceAfterTrapInstruction := false
  stovRetrigger := true
  sbcVNeedsCarry := false
  movClrReadBeforeWrite := true
  traceVector := 0o14
  stackOverflowVector := 0o4

/-- What is fixed for one machine (R8, U8, U15). -/
structure Installation where
  regions : List Region
  /-- Jumper W1 in, W2 out (R76). -/
  parityEnabled : Bool
  /-- The even addresses of the words whose parity memory signals an error on a read (`parity_bad`, R76). -/
  parityBad : List Word
  /-- `memory_retained` (U8): memory keeps its contents while power is off. -/
  memoryRetained : Bool
  params : Params
deriving DecidableEq, Repr

/-- The installation at reset: memory at 000000 to 157777, no device, parity off, contents kept over a power cycle.
DESIGN CHOICE, unsafe (log 4): the spec leaves all of it to the installation. -/
def Installation.default : Installation where
  regions := [{ base := 0, size := 0o160000, kind := .memory, answers := [.dati, .datip, .dato, .datob] }]
  parityEnabled := false
  parityBad := []
  memoryRetained := true
  params := .default

/-- The `n`th free word: a value the spec leaves open (log 31). -/
opaque freeWord : Nat → Word

/-- The `n`th free bit: one of two behaviours the spec leaves open (log 31). -/
opaque freeBit : Nat → Bool

/-- The `n`th free set of condition codes N, Z, V, C (R34, log 11). -/
opaque freeCc : Nat → BitVec 4

end Sys2Proof.Config
end

