-- ==== Sys2Proof/Syntax.lean ====
section
/-! DEFINITION. The instructions of the KD11-D: one constructor for each mnemonic of the opcode table (spec R85 to
R90). Extension words are no part of an instruction: they are read at PC when a specifier is evaluated (R81). -/

namespace Sys2Proof

/-- The eight general registers (R20); `sp` is R6 and `pc` is R7 (R12). -/
inductive Reg where
  | r0 | r1 | r2 | r3 | r4 | r5 | sp | pc
deriving DecidableEq, Repr

/-- The addressing modes 1 to 7, which designate a place in memory (R110, R113 to R120). -/
inductive MemMode where
  /-- Mode 1, `(Rn)` (R113). -/
  | deferred
  /-- Mode 2, `(Rn)+` (R115). -/
  | autoInc
  /-- Mode 3, `@(Rn)+` (R117). -/
  | autoIncDef
  /-- Mode 4, `-(Rn)` (R116). -/
  | autoDec
  /-- Mode 5, `@-(Rn)` (R118). -/
  | autoDecDef
  /-- Mode 6, `X(Rn)` (R119). -/
  | index
  /-- Mode 7, `@X(Rn)` (R120). -/
  | indexDef
deriving DecidableEq, Repr

/-- A 6-bit operand specifier (R83, R110): mode 0 names a register (R112), the other modes a place in memory. -/
inductive Operand where
  | reg (r : Reg)
  | mem (m : MemMode) (r : Reg)
deriving DecidableEq, Repr

/-- An instruction of the KD11-D (R90). -/
inductive Instr where
  /-- 000000 (R240). -/
  | halt
  /-- 000001 (R241). -/
  | wait
  /-- 000002 (R228; the opcode value is PRESUMED, R97). -/
  | rti
  /-- 000003 (R221). -/
  | bpt
  /-- 000004 (R222). -/
  | iot
  /-- 000005 (R242). -/
  | reset
  /-- 000006 (R229; the opcode value is PRESUMED, R97). -/
  | rtt
  /-- A reserved word other than 07xxxx: the word itself (R96). -/
  | reserved (w : Word)
  /-- 00010r, JMP with mode 0 (R95). -/
  | illegalJmp (r : Reg)
  /-- 0001DD, DD of mode 1 to 7 (R168). -/
  | jmp (m : MemMode) (r : Reg)
  /-- 00020R (R219). -/
  | rts (r : Reg)
  /-- 000240 + mask: clear the condition codes the mask names (R251). -/
  | clcc (mask : BitVec 4)
  /-- 000260 + mask: set the condition codes the mask names (R252). -/
  | secc (mask : BitVec 4)
  /-- 0003DD (R169). -/
  | swab (dst : Operand)
  /-- 000400 + offset (R202). -/
  | br (offset : Byte)
  /-- 001000 + offset (R204). -/
  | bne (offset : Byte)
  /-- 001400 + offset (R205). -/
  | beq (offset : Byte)
  /-- 002000 + offset (R206). -/
  | bge (offset : Byte)
  /-- 002400 + offset (R207). -/
  | blt (offset : Byte)
  /-- 003000 + offset (R208). -/
  | bgt (offset : Byte)
  /-- 003400 + offset (R209). -/
  | ble (offset : Byte)
  /-- 100000 + offset (R210). -/
  | bpl (offset : Byte)
  /-- 100400 + offset (R211). -/
  | bmi (offset : Byte)
  /-- 101000 + offset (R212). -/
  | bhi (offset : Byte)
  /-- 101400 + offset (R213). -/
  | blos (offset : Byte)
  /-- 102000 + offset (R214). -/
  | bvc (offset : Byte)
  /-- 102400 + offset (R215). -/
  | bvs (offset : Byte)
  /-- 103000 + offset (R216). -/
  | bcc (offset : Byte)
  /-- 103400 + offset (R217). -/
  | bcs (offset : Byte)
  /-- 004R0r, JSR with mode 0 (R95). -/
  | illegalJsr (link : Reg) (r : Reg)
  /-- 004RDD, DD of mode 1 to 7 (R218). -/
  | jsr (link : Reg) (m : MemMode) (r : Reg)
  /-- 0050DD (R143). -/
  | clr (dst : Operand)
  /-- 0051DD (R145). -/
  | com (dst : Operand)
  /-- 0052DD (R147). -/
  | inc (dst : Operand)
  /-- 0053DD (R149). -/
  | dec (dst : Operand)
  /-- 0054DD (R151). -/
  | neg (dst : Operand)
  /-- 0055DD (R153). -/
  | adc (dst : Operand)
  /-- 0056DD (R155). -/
  | sbc (dst : Operand)
  /-- 0057DD (R157). -/
  | tst (dst : Operand)
  /-- 0060DD (R159). -/
  | ror (dst : Operand)
  /-- 0061DD (R161). -/
  | rol (dst : Operand)
  /-- 0062DD (R163). -/
  | asr (dst : Operand)
  /-- 0063DD (R165). -/
  | asl (dst : Operand)
  /-- 1050DD (R144). -/
  | clrb (dst : Operand)
  /-- 1051DD (R146). -/
  | comb (dst : Operand)
  /-- 1052DD (R148). -/
  | incb (dst : Operand)
  /-- 1053DD (R150). -/
  | decb (dst : Operand)
  /-- 1054DD (R152). -/
  | negb (dst : Operand)
  /-- 1055DD (R154). -/
  | adcb (dst : Operand)
  /-- 1056DD (R156). -/
  | sbcb (dst : Operand)
  /-- 1057DD (R158). -/
  | tstb (dst : Operand)
  /-- 1060DD (R160). -/
  | rorb (dst : Operand)
  /-- 1061DD (R162). -/
  | rolb (dst : Operand)
  /-- 1062DD (R164). -/
  | asrb (dst : Operand)
  /-- 1063DD (R167). -/
  | aslb (dst : Operand)
  /-- 01SSDD (R181). -/
  | mov (src dst : Operand)
  /-- 02SSDD (R183). -/
  | cmp (src dst : Operand)
  /-- 03SSDD (R185). -/
  | bit (src dst : Operand)
  /-- 04SSDD (R187). -/
  | bic (src dst : Operand)
  /-- 05SSDD (R189). -/
  | bis (src dst : Operand)
  /-- 06SSDD (R191). -/
  | add (src dst : Operand)
  /-- 07xxxx, the reserved double-operand words: the low twelve bits (R96). -/
  | reservedEis (low : BitVec 12)
  /-- 104000 + code (R223). -/
  | emt (code : Byte)
  /-- 104400 + code (R224). -/
  | trap (code : Byte)
  /-- 11SSDD (R182). -/
  | movb (src dst : Operand)
  /-- 12SSDD (R184). -/
  | cmpb (src dst : Operand)
  /-- 13SSDD (R186). -/
  | bitb (src dst : Operand)
  /-- 14SSDD (R188). -/
  | bicb (src dst : Operand)
  /-- 15SSDD (R190). -/
  | bisb (src dst : Operand)
  /-- 16SSDD (R192). -/
  | sub (src dst : Operand)
deriving DecidableEq, Repr

end Sys2Proof
end

