-- ==== Sys2Proof/Machine/State.lean ====
section
/-! DEFINITION. What the machine holds (spec 10_state.md, INVENTORY.md '## State'), why a step can stop, and the
state after reset. All of it is plain data; what the fields do is in Machine/Ops.lean and the files after it. -/

namespace Sys2Proof.Machine

open Sys2Proof.Config

/-- Why a step stops. -/
inductive Fault where
  /-- Raised by `step` when it is the processor's turn while DC LO is asserted: "the model takes no processor step"
  (R326). Safe: the model stops where the machine "can no longer operate predictably". -/
  | powerOff
deriving DecidableEq, Repr

/-- Why an instruction has no meaning. -/
inductive Refusal where
  /-- Raised by an arm of `exec` for an instruction that has no meaning yet; no arm does. Safe. -/
  | notModelled (mnemonic : String)
deriving DecidableEq, Repr

/-- The eight general registers, words 0 to 7 of the scratch pad (R20); `sp` is R6, `pc` is R7. -/
structure Regs where
  r0 : Word
  r1 : Word
  r2 : Word
  r3 : Word
  r4 : Word
  r5 : Word
  sp : Word
  pc : Word
deriving DecidableEq, Repr

/-- The eight further words of the scratch pad and the B register, which only the microprogram uses and of which a
running program sees nothing (R40, R42, R363, R365). -/
structure Hidden where
  /-- Source address storage. -/
  r10 : Word
  /-- Source data storage. -/
  r11 : Word
  /-- Destination address storage. -/
  r12 : Word
  /-- Temporary storage; the vector during a trap sequence. -/
  r13 : Word
  /-- Unused. -/
  r14 : Word
  /-- Unused. -/
  r15 : Word
  /-- Unused. -/
  r16 : Word
  /-- Temporary storage for SWAB: a write to it swaps the bytes (R40, R363). -/
  r17 : Word
  /-- The B register. -/
  b : Word
deriving DecidableEq, Repr

/-- The flags that a service point examines (R42, R270). -/
structure Pending where
  busError : Bool
  parityError : Bool
  trace : Bool
  stackOverflow : Bool
  powerFail : Bool
deriving DecidableEq, Repr

/-- What the processor is doing (R43). -/
inductive RunState where
  /-- Fetching and executing. -/
  | run
  /-- After a WAIT instruction. -/
  | wait
  /-- After a HALT instruction or a double bus error. -/
  | halted
  /-- The halt switch has been granted; `waiting` says that the processor was in WAIT (R244). -/
  | haltGranted (waiting : Bool)
  /-- DC LO is asserted. -/
  | powerOff
  /-- The power-up INIT is running; the restart routine follows. -/
  | init
deriving DecidableEq, Repr

/-- The four bus request levels (R280). -/
inductive BrLevel where
  | br4 | br5 | br6 | br7
deriving DecidableEq, Repr

/-- The register E14: the bus request lines as the service point took them in (R42, R285, R376). -/
structure BrLatch where
  br4 : Bool
  br5 : Bool
  br6 : Bool
  br7 : Bool
deriving DecidableEq, Repr

/-- The IR CODE of an instruction word: what the service point takes it for (R42, R269). -/
inductive IrCode where
  | halt | trap | emt | iot | bpt | illegal | reserved | none
deriving DecidableEq, Repr

/-- A device that is requesting the bus to interrupt: its level and the vector it will supply (R280, R282). -/
structure Request where
  level : BrLevel
  vector : Word
deriving DecidableEq, Repr

/-- What a device does to its bus request line (R260, R280). -/
inductive DeviceAct where
  /-- It raises a request; `before` of those now requesting are nearer the processor (U16). -/
  | raise (r : Request) (before : Nat)
  /-- It drops its request. -/
  | withdraw (r : Request)
deriving DecidableEq, Repr

/-- The power status lines and the one-shots they start (R273, R321, R326). -/
structure Power where
  /-- AC LO is asserted. -/
  acLo : Bool
  /-- DC LO is asserted. -/
  dcLo : Bool
  /-- The 2 ms PUP pulse is running: the assertion of AC LO is ignored. -/
  pup : Bool
  /-- The PDWN one-shot that AC LO started is running. -/
  pdwn : Bool
deriving DecidableEq, Repr

/-- A write to the bus by a master other than the processor: an NPR device or the console (R45, R72, R286). -/
inductive MasterWrite where
  /-- DATO. -/
  | word (a v : Word)
  /-- DATOB. -/
  | byte (a : Word) (v : Byte)
deriving DecidableEq, Repr

/-- What an agent other than the processor does between two processor steps (R260, R311). -/
inductive Event where
  /-- A device raises a bus request or drops its own (R260, R280). -/
  | device (a : DeviceAct)
  /-- The console asserts or releases HLT RQST L (R283). -/
  | haltSwitch (on : Bool)
  /-- The console lets a halted processor go on (R243, R283). -/
  | consoleContinue
  /-- Another bus master, or the console while it holds the bus, writes (R45, R72, R286). -/
  | masterWrite (w : MasterWrite)
  /-- A device or the console drives BUS INIT (R48, R325). -/
  | busInit
  /-- AC LO is asserted or negated (R273). -/
  | acLo (on : Bool)
  /-- DC LO is asserted or negated (R326). -/
  | dcLo (on : Bool)
  /-- The 2 ms PUP pulse ends (R273). -/
  | pupEnds
  /-- The PDWN one-shot times out (R273). -/
  | pdwnEnds
deriving DecidableEq, Repr

/-- An entry of the agenda: whose turn it is (R260; log 17). -/
inductive Turn where
  /-- The processor's, with what NPR masters write before each of its transfers (R72), and what devices do to their request
  lines in the course of it, once its service point has latched them (R270, R285; log 51). -/
  | processor (npr : List (List MasterWrite)) (acts : List DeviceAct)
  | other (e : Event)
deriving DecidableEq, Repr

/-- Memory: the bytes that differ from what an unlisted address reads as, addresses strictly rising. -/
abbrev Memory := List Host.Cell

/-- The machine (R12, R20 to R45, R260). -/
structure State where
  regs : Regs
  /-- The processor status word (R30). -/
  psw : Byte
  /-- The instruction register (R42). -/
  ir : Word
  hidden : Hidden
  pending : Pending
  runState : RunState
  mem : Memory
  /-- The bus requests now raised, the device nearest the processor first (R282, U16). -/
  requests : List Request
  /-- The bus requests that the service point at which the processor last stood has latched; through a halt they stay as
  they are (R42, R285, R283; log 49). -/
  brLatch : BrLatch
  /-- HLT RQST L is asserted by the console (R283). -/
  haltRequest : Bool
  /-- The service point at which the processor stands has granted the halt request already: it goes on from there after
  the console's continue, and does not grant it again (R243, R283, D10; log 43). -/
  haltPassed : Bool
  power : Power
  /-- The MODEL'S OWN field: the turns to come; when it is empty it is the processor's turn (log 17). -/
  agenda : List Turn
  /-- The MODEL'S OWN field: what NPR masters write before each of the processor's next transfers, in order; when it is
  empty they write nothing (R72, U17; log 17). -/
  npr : List (List MasterWrite)
  /-- The MODEL'S OWN field: what devices do to their request lines once the next service point has latched them (R270,
  R285; log 51). -/
  deviceActs : List DeviceAct
  /-- The MODEL'S OWN field: the number of the next free value (log 31). -/
  free : Nat
  /-- The installation, which no step changes (R8). -/
  inst : Installation
deriving DecidableEq, Repr

/-- Why a transfer, and the instruction it belongs to, is aborted (R262, R264). -/
inductive Abort where
  /-- Odd address of a word access, or no answer (R61, R64, R265). -/
  | busError
  /-- The slave signals bad parity for the word it answers with (R76, R268). -/
  | parityError (word : Word)
deriving DecidableEq, Repr

/-- The outcome of a part of an instruction: a value and the state reached, or an abort and the state it left,
in which everything done before stays done (R264). -/
inductive Res (α : Type) where
  | ok (a : α) (s : State)
  | abort (c : Abort) (s : State)
deriving Repr

/-- The machine right after power-up: the restart routine has run over a memory that lists nothing, so PC and PSW are
the words at 24 and 26 (R46, R321, R322). The registers for which the spec gives no value are zero: DESIGN CHOICE,
unsafe (logs 1 to 5). B holds the last word read (R321). -/
def State.reset : State where
  regs := { r0 := 0, r1 := 0, r2 := 0, r3 := 0, r4 := 0, r5 := 0, sp := 0, pc := 0 }
  psw := 0
  ir := 0o100000
  hidden := { r10 := 0, r11 := 0, r12 := 0, r13 := 0o26, r14 := 0, r15 := 0, r16 := 0, r17 := 0, b := 0 }
  pending := { busError := false, parityError := false, trace := false, stackOverflow := false, powerFail := false }
  runState := .run
  mem := []
  requests := []
  brLatch := { br4 := false, br5 := false, br6 := false, br7 := false }
  haltRequest := false
  haltPassed := false
  power := { acLo := false, dcLo := false, pup := true, pdwn := false }
  agenda := []
  npr := []
  deviceActs := []
  free := 0
  inst := .default

end Sys2Proof.Machine
end

