-- ==== Sys2Proof/Machine/Ops.lean ====
section
/-! DEFINITION. The named operations over registers, memory and the bus, taking a trap and returning from one, and
how an instruction ends (spec 10_state.md, 20_memory.md, 60_exceptions.md). Every later file reads and writes the
state through these. -/

namespace Sys2Proof.Machine

open Sys2Proof.Config

/-! ### Bytes of a word -/

/-- Bits 7:0 (R51). -/
def lowByte (w : Word) : Byte := w.extractLsb' 0 8

/-- Bits 15:8 (R51). -/
def highByte (w : Word) : Byte := w.extractLsb' 8 8

/-- The word with its two bytes exchanged (R169, R363). -/
def swapBytes (w : Word) : Word := lowByte w ++ highByte w

/-- A byte in bits 7:0, zeros above (`zext_16`, R11). -/
def zext (b : Byte) : Word := (0 : Byte) ++ b

/-- A byte sign-extended (`sext_16`, R11). -/
def sext (b : Byte) : Word := b.signExtend 16

/-- Bit 0 of an address: it is odd (R61). -/
def isOdd (a : Word) : Bool := a.getLsbD 0

/-- The even address of the word that holds a byte (R57). -/
def evenAddr (a : Word) : Word := a &&& 0o177776

/-! ### Registers, PSW, free values -/

/-- `R[n]` (R12, R20). -/
def State.reg (s : State) : Reg → Word
  | .r0 => s.regs.r0 | .r1 => s.regs.r1 | .r2 => s.regs.r2 | .r3 => s.regs.r3
  | .r4 => s.regs.r4 | .r5 => s.regs.r5 | .sp => s.regs.sp | .pc => s.regs.pc

/-- The register file with one register replaced (R12). -/
def Regs.set (g : Regs) (r : Reg) (v : Word) : Regs :=
  match r with
  | .r0 => { g with r0 := v } | .r1 => { g with r1 := v } | .r2 => { g with r2 := v } | .r3 => { g with r3 := v }
  | .r4 => { g with r4 := v } | .r5 => { g with r5 := v } | .sp => { g with sp := v } | .pc => { g with pc := v }

/-- `R[n] <- v` (R12). -/
def State.setReg (s : State) (r : Reg) (v : Word) : State := { s with regs := s.regs.set r v }

/-- The whole PSW, all eight bits (R30, R36). -/
def State.setPsw (s : State) (v : Byte) : State := { s with psw := v }

/-- The T bit, PSW bit 4 (R39). -/
def State.tBit (s : State) : Bool := s.psw.getLsbD 4

/-- The processor priority PRI, PSW bits 7:5 (R38). -/
def State.pri (s : State) : Nat := (s.psw.extractLsb' 5 3).toNat

def State.setIr (s : State) (w : Word) : State := { s with ir := w }

def State.setRunState (s : State) (r : RunState) : State := { s with runState := r }

def State.setPending (s : State) (p : Pending) : State := { s with pending := p }

def State.setHidden (s : State) (h : Hidden) : State := { s with hidden := h }

def State.setMem (s : State) (m : Memory) : State := { s with mem := m }

def State.setRequests (s : State) (l : List Request) : State := { s with requests := l }

def State.setBrLatch (s : State) (l : BrLatch) : State := { s with brLatch := l }

/-- What an act of a device makes of the requests, which stand in the order of nearness (R260, R280, U16). -/
def DeviceAct.apply (a : DeviceAct) (l : List Request) : List Request :=
  match a with
  | .raise r before => l.take before ++ r :: l.drop before
  | .withdraw r => l.erase r

/-- What the devices do in the course of the processor's turn is done, one act after another (log 51). -/
def State.devicesAct (s : State) : State :=
  { s with requests := s.deviceActs.foldl (fun l a => a.apply l) s.requests, deviceActs := [] }

/-- A device asserts the line of a level (R280). -/
def State.requesting (s : State) (l : BrLevel) : Bool := s.requests.any fun r => decide (r.level = l)

/-- The four bus request lines (R280). -/
def State.brLines (s : State) : BrLatch :=
  { br4 := s.requesting .br4, br5 := s.requesting .br5, br6 := s.requesting .br6, br7 := s.requesting .br7 }

/-- On entry to SERVICE the bus request lines are latched (R270, R285). -/
def State.latchRequests (s : State) : State := s.setBrLatch s.brLines

def State.setHaltRequest (s : State) (on : Bool) : State := { s with haltRequest := on }

def State.setHaltPassed (s : State) (passed : Bool) : State := { s with haltPassed := passed }

/-- `n` free values have been used (log 31). -/
def State.useFree (s : State) (n : Nat) : State := { s with free := s.free + n }

/-- The microprogram's temporaries R10, R11, R12, R17 and B hold any value after an instruction has used them as it
likes (U6, log 6). -/
def State.useScratch (s : State) : State :=
  (s.setHidden { s.hidden with
    r10 := freeWord s.free, r11 := freeWord (s.free + 1), r12 := freeWord (s.free + 2),
    r17 := freeWord (s.free + 3), b := freeWord (s.free + 4) }).useFree 5

/-- The micro-PC between two steps: SERVICE, location 0, but in INIT the restart routine, location 1 (R46, R261; log
32). -/
def State.microPc (s : State) : Byte :=
  match s.runState with
  | .init => 1
  | _ => 0

/-! ### Memory -/

/-- What a byte of memory that nothing has written reads as: DESIGN CHOICE, unsafe (log 3). -/
def Memory.unlisted : Byte := 0

/-- The byte at an address. -/
def Memory.read : Memory → Nat → Byte
  | [], _ => Memory.unlisted
  | (a', b) :: m, a => if a' = a then b else Memory.read m a

/-- The memory with one byte replaced, in canonical form again. -/
def Memory.write : Memory → Nat → Byte → Memory
  | [], a, b => if b = Memory.unlisted then [] else [(a, b)]
  | (a', b') :: m, a, b =>
    if a < a' then (if b = Memory.unlisted then (a', b') :: m else (a, b) :: (a', b') :: m)
    else if a = a' then (if b = Memory.unlisted then m else (a, b) :: m)
    else (a', b') :: Memory.write m a b

/-- The canonical form: addresses strictly rising and below 2^16, no byte equal to what an unlisted one reads as. -/
def Memory.wf : Memory → Bool
  | [] => true
  | (a, b) :: m =>
    decide (a < 2 ^ 16) && decide (b ≠ Memory.unlisted) && m.all (fun c => decide (a < c.1)) && Memory.wf m

/-- The byte of memory at an address (R50). -/
def State.memByte (s : State) (a : Word) : Byte := s.mem.read a.toNat

/-- The word of memory at an even address: its low byte is the byte there, its high byte the next one (R51). -/
def State.memWord (s : State) (a : Word) : Word := s.memByte (a + 1) ++ s.memByte a

def State.setMemByte (s : State) (a : Word) (b : Byte) : State := s.setMem (s.mem.write a.toNat b)

def State.setMemWord (s : State) (a v : Word) : State :=
  (s.setMemByte a (lowByte v)).setMemByte (a + 1) (highByte v)

/-! ### The bus -/

/-- What answers a transfer at an address, if anything does within 22 us (`responds`, R64). -/
def answer (i : Installation) (k : Transfer) (a : Word) : Option RegionKind :=
  (i.regions.find? fun r =>
    decide (r.base ≤ a.toNat) && decide (a.toNat < r.base + r.size) && r.answers.contains k).map (·.kind)

/-- The slave signals bad parity for the word at an even address, and the circuit is enabled (R76). -/
def badParity (i : Installation) (a : Word) : Bool := i.parityEnabled && i.parityBad.contains a

/-- The PSW's own address (R32). -/
def pswAddress : Word := 0o177776

/-- The addresses of the scratch-pad registers, 177700 to 177717 (R45, R66). -/
def isRegisterAddress (a : Word) : Bool := decide (0o177700 ≤ a.toNat) && decide (a.toNat ≤ 0o177717)

/-- A write to the PSW's address: bits 7:4 from the data; N, Z, V, C as `psw_write_cc` says, any value when it is not
given (R34, D2; log 11). The instruction's own condition codes, where it has any, stand in the PSW already (log 26). -/
def writePswByAddress (d : Byte) (s : State) : State :=
  match s.inst.params.pswWriteCc with
  | some .data => s.setPsw d
  | some .instruction => s.setPsw (d.extractLsb' 4 4 ++ s.psw.extractLsb' 0 4)
  | none => (s.setPsw (d.extractLsb' 4 4 ++ freeCc s.free)).useFree 1

/-- The scratch-pad word at a register address, one address for each register (R45). -/
def State.spm (s : State) (a : Word) : Word :=
  match (a.extractLsb' 0 4).toNat with
  | 0 => s.regs.r0 | 1 => s.regs.r1 | 2 => s.regs.r2 | 3 => s.regs.r3
  | 4 => s.regs.r4 | 5 => s.regs.r5 | 6 => s.regs.sp | 7 => s.regs.pc
  | 8 => s.hidden.r10 | 9 => s.hidden.r11 | 10 => s.hidden.r12 | 11 => s.hidden.r13
  | 12 => s.hidden.r14 | 13 => s.hidden.r15 | 14 => s.hidden.r16 | _ => s.hidden.r17

/-- Write the scratch-pad word at a register address (R45); a write to R17 swaps the bytes (R40, R363). -/
def State.setSpm (s : State) (a v : Word) : State :=
  match (a.extractLsb' 0 4).toNat with
  | 0 => s.setReg .r0 v | 1 => s.setReg .r1 v | 2 => s.setReg .r2 v | 3 => s.setReg .r3 v
  | 4 => s.setReg .r4 v | 5 => s.setReg .r5 v | 6 => s.setReg .sp v | 7 => s.setReg .pc v
  | 8 => s.setHidden { s.hidden with r10 := v } | 9 => s.setHidden { s.hidden with r11 := v }
  | 10 => s.setHidden { s.hidden with r12 := v } | 11 => s.setHidden { s.hidden with r13 := v }
  | 12 => s.setHidden { s.hidden with r14 := v } | 13 => s.setHidden { s.hidden with r15 := v }
  | 14 => s.setHidden { s.hidden with r16 := v } | _ => s.setHidden { s.hidden with r17 := swapBytes v }

/-- The processor is halted: its registers and the whole PSW are open to the console (R45, R243, R311). -/
def State.isHalted (s : State) : Bool :=
  match s.runState with
  | .halted => true
  | .haltGranted _ => true
  | _ => false

/-- A write by another bus master (R45, R72, R286; log 24): to the PSW, whole while the processor is halted; to a
register address, which only a halted processor takes; or to memory, where it answers. -/
def masterWrite (w : MasterWrite) (s : State) : State :=
  match w with
  | .word a v =>
    if isRegisterAddress a then (if s.isHalted then s.setSpm a v else s)
    else if evenAddr a = pswAddress then
      (if s.isHalted then s.setPsw (lowByte v) else writePswByAddress (lowByte v) s)
    else if answer s.inst .dato (evenAddr a) = some .memory then s.setMemWord (evenAddr a) v
    else s
  | .byte a v =>
    if a = pswAddress then (if s.isHalted then s.setPsw v else writePswByAddress v s)
    else if evenAddr a = pswAddress then s
    else if isRegisterAddress a then s
    else if answer s.inst .datob (evenAddr a) = some .memory then s.setMemByte a v
    else s

/-- Several of them, in order. -/
def masterWrites (l : List MasterWrite) (s : State) : State := l.foldl (fun s w => masterWrite w s) s

/-- Before a transfer of the processor that does not follow a DATIP, other masters may have the bus (R72, U17). -/
def State.busWindow (s : State) : State :=
  match s.npr with
  | [] => s
  | l :: rest => masterWrites l { s with npr := rest }

/-- The word that a slave of a kind drives onto the bus for the word that contains `a`, and the state after it: memory's
word, or for a device a free value (log 19). -/
def slaveWord (kind : RegionKind) (a : Word) (s : State) : Word × State :=
  match kind with
  | .memory => (s.memWord (evenAddr a), s)
  | .device => (freeWord s.free, s.useFree 1)

/-- A read transfer, DATI or DATIP, of the word that contains `a` (R55 to R57): the PSW with zeros above it (R33), zero
for a register address (R66), else what the slave answers, with good parity or bad (R64, R76). -/
def transferIn (k : Transfer) (a : Word) (s : State) : Res Word :=
  if evenAddr a = pswAddress then .ok (zext s.psw) s
  else if isRegisterAddress a then .ok 0 s
  else
    match answer s.inst k (evenAddr a) with
    | none => .abort .busError s
    | some kind =>
      let answered := slaveWord kind a s
      if badParity s.inst (evenAddr a) then .abort (.parityError answered.1) answered.2
      else .ok answered.1 answered.2

/-- `MemRead(a, 2)`, or the read half of `MemModify(a, 2, f)` when `k` is DATIP (R56, R59, R61). -/
def readWord (k : Transfer) (a : Word) (s : State) : Res Word :=
  if isOdd a then .abort .busError s.busWindow else transferIn k a s.busWindow

/-- `MemRead(a, 1)`, or the read half of `MemModify(a, 1, f)` (R57, R59). -/
def readByte (k : Transfer) (a : Word) (s : State) : Res Byte :=
  match transferIn k a s.busWindow with
  | .ok w s' => .ok (if isOdd a then highByte w else lowByte w) s'
  | .abort c s' => .abort c s'

/-- The DATO of a word, alone or the write half of `MemModify(a, 2, f)` (R58, R61, R64, R66, R67). -/
def putWord (a v : Word) (s : State) : Res Unit :=
  if isOdd a then .abort .busError s
  else if a = pswAddress then .ok () (writePswByAddress (lowByte v) s)
  else if isRegisterAddress a then .ok () s
  else
    match answer s.inst .dato a with
    | none => .abort .busError s
    | some .memory => .ok () (s.setMemWord a v)
    | some .device => .ok () s

/-- The DATOB of a byte, alone or the write half of `MemModify(a, 1, f)` (R58, R64, R66). The byte above the PSW stores
nothing (R35). -/
def putByte (a : Word) (v : Byte) (s : State) : Res Unit :=
  if a = pswAddress then .ok () (writePswByAddress v s)
  else if evenAddr a = pswAddress then .ok () s
  else if isRegisterAddress a then .ok () s
  else
    match answer s.inst .datob (evenAddr a) with
    | none => .abort .busError s
    | some .memory => .ok () (s.setMemByte a v)
    | some .device => .ok () s

/-- `MemWrite(a, 2, v)` (R58). -/
def writeWord (a v : Word) (s : State) : Res Unit := putWord a v s.busWindow

/-- `MemWrite(a, 1, v)` (R58). -/
def writeByte (a : Word) (v : Byte) (s : State) : Res Unit := putByte a v s.busWindow

/-! ### Parts of an instruction in sequence -/

/-- Go on with the value and state of a part that did not abort (R264). -/
def Res.andThen {α β : Type} (r : Res α) (f : α → State → Res β) : Res β :=
  match r with
  | .ok a s => f a s
  | .abort c s => .abort c s

/-! ### The stack -/

/-- Below the fixed stack limit 400: bits 15:8 are zero (R271, D13). -/
def stackLow (x : Word) : Bool := decide (highByte x = 0)

/-- `check_stack`: R6 has just been decremented, and the flag is set if it is low (R130, R271). -/
def State.checkStack (s : State) : State :=
  if stackLow (s.reg .sp) then s.setPending { s.pending with stackOverflow := true } else s

/-- R6 <- R6 - 2 before a push; `checked` says whether the stack limit is checked (R271). -/
def State.pushDown (s : State) (checked : Bool) : State :=
  let s' := s.setReg .sp (s.reg .sp - 2)
  if checked then s'.checkStack else s'

/-- A pop: the word at R6, then R6 <- R6 + 2; R6 is not incremented if the read raises (R23, R124). -/
def popWord (s : State) : Res Word :=
  (readWord .dati (s.reg .sp) s).andThen fun v s' => .ok v (s'.setReg .sp (s'.reg .sp + 2))

/-! ### Taking a trap, and returning from one -/

/-- What an abort leaves: its flag (R265), and for bad parity the word itself in B (R268). -/
def State.flagAbort (s : State) : Abort → State
  | .busError => s.setPending { s.pending with busError := true }
  | .parityError w => (s.setHidden { s.hidden with b := w }).setPending { s.pending with parityError := true }

/-- A bus error on the first push of a trap sequence: IR is cleared and the processor halts at the service point that
follows, which latches the bus requests. Whether the bus error stays pending is not stated, and is a free value (R267,
R285, U12; log 20). -/
def doubleBusError (s : State) : State :=
  ((((s.setIr 0).setRunState .halted).setPending { s.pending with busError := freeBit s.free }).useFree 1).latchRequests

/-- `B <- MemRead(a, 2)` (R321, R275). What B holds after a bus error no rule gives: DESIGN CHOICE, any value (log 46);
after bad parity it is the word, once the flag is set (R268, `State.flagAbort`). -/
def readIntoB (a : Word) (s : State) : Res Word :=
  match readWord .dati a s with
  | .ok w s1 => .ok w (s1.setHidden { s1.hidden with b := w })
  | .abort .busError s1 => .abort .busError ((s1.setHidden { s1.hidden with b := freeWord s1.free }).useFree 1)
  | .abort (.parityError w) s1 => .abort (.parityError w) s1

/-- The end of the trap and restart routines: R13 holds the vector; PC and then PSW are read, through B, from the two
words there (TRAP=8 to TRAP=12, R275, R321). -/
def loadVector (vector : Word) (s : State) : Res Unit :=
  (readIntoB vector s).andThen fun newPc s1 =>
    (readIntoB (vector + 2) ((s1.setHidden { s1.hidden with r13 := vector + 2 }).setReg .pc newPc)).andThen
      fun newPsw s2 => .ok () (s2.setPsw (lowByte newPsw))

/-- `MemWrite(R[6], 2, PSW)` of the trap sequence (TRAP=3, R275). Where another master writes 177776 while the transfer
waits for the bus, no rule says which PSW the processor drives: DESIGN CHOICE, either, by a free value (log 47). -/
def pushPsw (s : State) : Res Unit :=
  let s1 := s.busWindow
  if s1.psw = s.psw then putWord (s.reg .sp) (zext s.psw) s1
  else putWord (s.reg .sp) (zext (if freeBit s1.free then s1.psw else s.psw)) (s1.useFree 1)

/-- The middle of the trap sequence: push PC, through B, then load the vector (TRAP=4 to TRAP=12, R275, spec 95 E2). -/
def pushPcAndVector (checked : Bool) (vector : Word) (s : State) : Res Unit :=
  let s' := s.pushDown checked
  let s1 := s'.setHidden { s'.hidden with b := s'.reg .pc }
  (writeWord (s1.reg .sp) (s1.reg .pc) s1).andThen fun _ s2 => loadVector vector s2

/-- What is left of the trap sequence, which ends in SERVICE whether or not it was aborted: an abort leaves its flag for
the service point that follows (R266). -/
def Res.settle (r : Res Unit) : State :=
  match r with
  | .ok _ s => s
  | .abort c s => s.flagAbort c

/-- `trap(vector)`: the trap sequence of every trap and interrupt (R275). The vector is clocked into B and moved to R13
(R282, spec 95 E2); PSW and PC go on the stack, PC and PSW come from the vector. The processor is then in RUN, whatever
it waited in (R244). `checked` is false only for the pushes of a stack overflow trap when `stov_retrigger` is false
(R271, U5). A bus error on the first push halts (R267); an abort of a later transfer ends the sequence there (R266). -/
def trapSequence (checked : Bool) (vector : Word) (s : State) : State :=
  let s0 := (s.setRunState .run).setHidden { s.hidden with r13 := vector, b := vector }
  let s1 := s0.pushDown checked
  match pushPsw s1 with
  | .abort _ s2 => doubleBusError s2
  | .ok _ s2 => (pushPcAndVector checked vector s2).settle

/-- The service of a bus or parity error, the first of the two that is pending (R270 step 2). -/
def serviceAbort (s : State) : State :=
  if s.pending.busError then trapSequence true 0o4 (s.setPending { s.pending with busError := false })
  else trapSequence true 0o114 (s.setPending { s.pending with parityError := false })

/-- An instruction or a fetch was aborted: its flag is set, and the service point that follows takes the trap
(R265, R268). -/
def takeAbort (c : Abort) (s : State) : State := serviceAbort (s.flagAbort c)

/-- `return_from_interrupt`: PC and then PSW from the stack (R227). If the second pop raises, `rti_abort_pc_loaded` says
whether PC is already the first popped word (D17). -/
def returnFromInterrupt (s : State) : Res Unit :=
  (popWord s).andThen fun newPc s1 =>
    match popWord (s1.setReg .pc newPc) with
    | .ok newPsw s2 => .ok () (s2.setPsw (lowByte newPsw))
    | .abort c s2 => .abort c (if s.inst.params.rtiAbortPcLoaded then s2 else s2.setReg .pc (s.reg .pc))

/-! ### How an instruction ends -/

def State.setTrace (s : State) (t : Bool) : State := s.setPending { s.pending with trace := t }

/-- Completion: the trace flag becomes the T bit as it stands after the instruction; with `trace_after_psw_write` false
an instruction that has just set T, T being clear before, sets no flag (R272, D5). -/
def State.complete (s : State) (tBefore : Bool) : State :=
  s.setTrace (s.tBit && (tBefore || s.inst.params.traceAfterPswWrite))

/-- An instruction: its body, then its completion or, after an abort, the trap (R111, R264). -/
def instructionEnding (done : State → State) (body : State → Res Unit) (s : State) : Host.Outcome State Fault Refusal :=
  match body s.useScratch with
  | .ok _ s' => .next (done s')
  | .abort c s' => .next (takeAbort c s')

/-- An instruction that completes as every instruction but RTI and RTT does (R272). -/
def instruction (body : State → Res Unit) (s : State) : Host.Outcome State Fault Refusal :=
  instructionEnding (fun s' => s'.complete s.tBit) body s

/-- An instruction that is a trap, taken at the service point right after its fetch (R220, R269): IR becomes 100000; the
trace flag is set by it only under `trace_after_trap_instruction` (R225, D5). -/
def instructionTrap (vector : Word) (s : State) : Host.Outcome State Fault Refusal :=
  let s1 := if s.inst.params.traceAfterTrapInstruction then s.setTrace s.tBit else s
  .next (trapSequence true vector (s1.setIr 0o100000))

end Sys2Proof.Machine
end

