-- ==== Sys2Proof/Machine/Flags.lean ====
section
/-! DEFINITION. The condition codes and the result of every operation, at the width of the instruction (spec R37, R141,
41_single_operand.md, 42_double_operand.md, 45_condition_codes.md). -/

namespace Sys2Proof.Machine

/-- The condition codes (R30). -/
structure Cc where
  n : Bool
  z : Bool
  v : Bool
  c : Bool
deriving DecidableEq, Repr

/-- PSW bits 3:0 (R12). -/
def State.cc (s : State) : Cc :=
  { n := s.psw.getLsbD 3, z := s.psw.getLsbD 2, v := s.psw.getLsbD 1, c := s.psw.getLsbD 0 }

/-- N, Z, V, C in the places of PSW bits 3:0 (R30). -/
def Cc.bits (f : Cc) : BitVec 4 :=
  BitVec.ofBool f.n ++ BitVec.ofBool f.z ++ BitVec.ofBool f.v ++ BitVec.ofBool f.c

/-- LOAD CC: only PSW bits 3:0 change (R39, R141). -/
def State.setCc (s : State) (f : Cc) : State := s.setPsw (s.psw.extractLsb' 4 4 ++ f.bits)

/-- What an operation gives: the result and the new condition codes. -/
structure Alu (w : Nat) where
  res : BitVec w
  cc : Cc
deriving DecidableEq, Repr

/-- The most negative number of the width, 100000 or 200 (R141). -/
def minNeg (w : Nat) : BitVec w := BitVec.twoPow w (w - 1)

/-- The most positive number of the width, 077777 or 177 (R141). -/
def maxPos (w : Nat) : BitVec w := ~~~ minNeg w

/-- A result with N and Z taken from it (R37, R141). -/
def aluResult {w : Nat} (res : BitVec w) (v c : Bool) : Alu w :=
  { res := res, cc := { n := res.msb, z := decide (res = 0), v := v, c := c } }

/-! ### Single operand: the old condition codes and the old value give the result -/

/-- R143, R144. -/
def aluClr {w : Nat} (_ : Cc) : Alu w := aluResult 0 false false

/-- R145, R146. -/
def aluCom {w : Nat} (_ : Cc) (old : BitVec w) : Alu w := aluResult (~~~ old) false true

/-- R147, R148. -/
def aluInc {w : Nat} (f : Cc) (old : BitVec w) : Alu w := aluResult (old + 1) (decide (old = maxPos w)) f.c

/-- R149, R150. -/
def aluDec {w : Nat} (f : Cc) (old : BitVec w) : Alu w := aluResult (old - 1) (decide (old = minNeg w)) f.c

/-- R151, R152. -/
def aluNeg {w : Nat} (_ : Cc) (old : BitVec w) : Alu w :=
  aluResult (-old) (decide (-old = minNeg w)) (decide (-old ≠ 0))

/-- The C bit as a number of the width. -/
def carryIn (w : Nat) (c : Bool) : BitVec w := if c then 1 else 0

/-- R153, R154. -/
def aluAdc {w : Nat} (f : Cc) (old : BitVec w) : Alu w :=
  aluResult (old + carryIn w f.c) (decide (old = maxPos w) && f.c) (decide (old = BitVec.allOnes w) && f.c)

/-- R155, R156; `needsCarry` is `sbc_v_needs_carry` (U3). C is the borrow (C6). -/
def aluSbc {w : Nat} (needsCarry : Bool) (f : Cc) (old : BitVec w) : Alu w :=
  aluResult (old - carryIn w f.c) (decide (old = minNeg w) && (!needsCarry || f.c)) (decide (old = 0) && f.c)

/-- R157, R158. -/
def aluTst {w : Nat} (_ : Cc) (v : BitVec w) : Alu w := aluResult v false false

/-- A rotate or shift: N and Z from the result, C the bit shifted out, V their exclusive OR (R159, R161, R163, R165). -/
def aluShift {w : Nat} (res : BitVec w) (out : Bool) : Alu w := aluResult res (xor res.msb out) out

/-- R159, R160. -/
def aluRor {w : Nat} (f : Cc) (old : BitVec w) : Alu w :=
  aluShift ((if f.c then minNeg w else 0) ||| (old >>> 1)) (old.getLsbD 0)

/-- R161, R162. -/
def aluRol {w : Nat} (f : Cc) (old : BitVec w) : Alu w := aluShift ((old <<< 1) ||| carryIn w f.c) old.msb

/-- R163, R164. -/
def aluAsr {w : Nat} (_ : Cc) (old : BitVec w) : Alu w := aluShift ((old &&& minNeg w) ||| (old >>> 1)) (old.getLsbD 0)

/-- R165, R167. -/
def aluAsl {w : Nat} (_ : Cc) (old : BitVec w) : Alu w := aluShift (old <<< 1) old.msb

/-- R169: the codes describe the new low byte only. -/
def aluSwab (_ : Cc) (old : Word) : Alu 16 :=
  { res := swapBytes old
    cc := { n := (highByte old).msb, z := decide (highByte old = 0), v := false, c := false } }

/-! ### Double operand: the old condition codes, the source and the destination give the result -/

/-- R181, R182. -/
def aluMov {w : Nat} (src : BitVec w) (f : Cc) : Alu w := aluResult src false f.c

/-- `x + ~y + 1`, the subtraction of R183 and R192, as an exact number: the carry is whether it reaches 2^w. -/
def subSum {w : Nat} (x y : BitVec w) : Nat := x.toNat + (~~~ y).toNat + 1

/-- R183, R184: (src) - (dst), nothing written. -/
def aluCmp {w : Nat} (src : BitVec w) (_ : Cc) (dst : BitVec w) : Alu w :=
  let res := BitVec.ofNat w (subSum src dst)
  aluResult res (decide (src.msb ≠ dst.msb) && decide (dst.msb = res.msb)) (decide (subSum src dst < 2 ^ w))

/-- R185, R186: nothing written. -/
def aluBit {w : Nat} (src : BitVec w) (f : Cc) (dst : BitVec w) : Alu w := aluResult (src &&& dst) false f.c

/-- R187, R188. -/
def aluBic {w : Nat} (src : BitVec w) (f : Cc) (old : BitVec w) : Alu w := aluResult (~~~ src &&& old) false f.c

/-- R189, R190. -/
def aluBis {w : Nat} (src : BitVec w) (f : Cc) (old : BitVec w) : Alu w := aluResult (src ||| old) false f.c

/-- R191. -/
def aluAdd {w : Nat} (src : BitVec w) (_ : Cc) (old : BitVec w) : Alu w :=
  let sum := src.toNat + old.toNat
  let res := BitVec.ofNat w sum
  aluResult res (decide (src.msb = old.msb) && decide (res.msb ≠ src.msb)) (decide (2 ^ w ≤ sum))

/-- R192: (dst) - (src). -/
def aluSub {w : Nat} (src : BitVec w) (_ : Cc) (old : BitVec w) : Alu w :=
  let res := BitVec.ofNat w (subSum old src)
  aluResult res (decide (src.msb ≠ old.msb) && decide (src.msb = res.msb)) (decide (subSum old src < 2 ^ w))

end Sys2Proof.Machine
end

