-- ==== Sys2Proof/Machine/Branch.lean ====
section
/-! DEFINITION. The branches (spec 43_program_control.md, R200 to R217). -/

namespace Sys2Proof.Machine

/-- The target of a branch: PC, which the fetch has moved past it, plus twice the signed offset (R200, R201). -/
def branchTarget (offset : Byte) (s : State) : Word := s.reg .pc + sext offset * 2

/-- `branch(cond)` (R201). -/
def branchBody (cond : Bool) (offset : Byte) (s : State) : Res Unit :=
  .ok () (if cond then s.setReg .pc (branchTarget offset s) else s)

/-- BR (R202). -/
def execBr (offset : Byte) (s : State) : Host.Outcome State Fault Refusal :=
  instruction (branchBody true offset) s

/-- BNE (R204). -/
def execBne (offset : Byte) (s : State) : Host.Outcome State Fault Refusal :=
  instruction (branchBody (!s.cc.z) offset) s

/-- BEQ (R205). -/
def execBeq (offset : Byte) (s : State) : Host.Outcome State Fault Refusal :=
  instruction (branchBody s.cc.z offset) s

/-- BGE (R206). -/
def execBge (offset : Byte) (s : State) : Host.Outcome State Fault Refusal :=
  instruction (branchBody (!(xor s.cc.n s.cc.v)) offset) s

/-- BLT (R207). -/
def execBlt (offset : Byte) (s : State) : Host.Outcome State Fault Refusal :=
  instruction (branchBody (xor s.cc.n s.cc.v) offset) s

/-- BGT (R208). -/
def execBgt (offset : Byte) (s : State) : Host.Outcome State Fault Refusal :=
  instruction (branchBody (!(s.cc.z || xor s.cc.n s.cc.v)) offset) s

/-- BLE (R209). -/
def execBle (offset : Byte) (s : State) : Host.Outcome State Fault Refusal :=
  instruction (branchBody (s.cc.z || xor s.cc.n s.cc.v) offset) s

/-- BPL (R210). -/
def execBpl (offset : Byte) (s : State) : Host.Outcome State Fault Refusal :=
  instruction (branchBody (!s.cc.n) offset) s

/-- BMI (R211). -/
def execBmi (offset : Byte) (s : State) : Host.Outcome State Fault Refusal :=
  instruction (branchBody s.cc.n offset) s

/-- BHI (R212). -/
def execBhi (offset : Byte) (s : State) : Host.Outcome State Fault Refusal :=
  instruction (branchBody (!(s.cc.c || s.cc.z)) offset) s

/-- BLOS (R213). -/
def execBlos (offset : Byte) (s : State) : Host.Outcome State Fault Refusal :=
  instruction (branchBody (s.cc.c || s.cc.z) offset) s

/-- BVC (R214). -/
def execBvc (offset : Byte) (s : State) : Host.Outcome State Fault Refusal :=
  instruction (branchBody (!s.cc.v) offset) s

/-- BVS (R215). -/
def execBvs (offset : Byte) (s : State) : Host.Outcome State Fault Refusal :=
  instruction (branchBody s.cc.v offset) s

/-- BCC (R216). -/
def execBcc (offset : Byte) (s : State) : Host.Outcome State Fault Refusal :=
  instruction (branchBody (!s.cc.c) offset) s

/-- BCS (R217). -/
def execBcs (offset : Byte) (s : State) : Host.Outcome State Fault Refusal :=
  instruction (branchBody s.cc.c offset) s

end Sys2Proof.Machine
end

