-- ==== Sys2Proof/Machine/ConditionCodes.lean ====
section
/-! DEFINITION. The condition code operators (spec 45_condition_codes.md, R250 to R255). -/

namespace Sys2Proof.Machine

/-- Load PSW bits 3:0 and no other bit (R250). -/
def conditionCodesBody (f : BitVec 4 → BitVec 4) (s : State) : Res Unit :=
  .ok () (s.setPsw (s.psw.extractLsb' 4 4 ++ f (s.psw.extractLsb' 0 4)))

/-- Clear the condition codes whose mask bit is 1 (R251). -/
def execClcc (mask : BitVec 4) (s : State) : Host.Outcome State Fault Refusal :=
  instruction (conditionCodesBody fun cc => cc &&& ~~~ mask) s

/-- Set the condition codes whose mask bit is 1 (R252). -/
def execSecc (mask : BitVec 4) (s : State) : Host.Outcome State Fault Refusal :=
  instruction (conditionCodesBody fun cc => cc ||| mask) s

end Sys2Proof.Machine
end

