-- ==== Sys2Proof/Machine/Operands.lean ====
section
/-! DEFINITION. From operand specifiers to values and addresses, with every register side effect (spec
40_addressing_modes.md, the functions of R130). -/

namespace Sys2Proof.Machine

open Sys2Proof.Config

/-! ### Access at the width of the instruction -/

/-- The register, or its low byte (R24, R112). -/
def readReg (sz : Size) (r : Reg) (s : State) : BitVec sz.bits :=
  match sz with
  | .byte => lowByte (s.reg r)
  | .word => s.reg r

/-- Write the register, or its low byte only (R24, R112). -/
def writeReg (sz : Size) (r : Reg) (v : BitVec sz.bits) (s : State) : State :=
  match sz, v with
  | .byte, v => s.setReg r (highByte (s.reg r) ++ v)
  | .word, v => s.setReg r v

/-- `MemRead(a, W/8)` or the read half of `MemModify` (R56, R57, R59). -/
def readMem (sz : Size) (k : Transfer) (a : Word) (s : State) : Res (BitVec sz.bits) :=
  match sz with
  | .byte => readByte k a s
  | .word => readWord k a s

/-- The write half of `MemModify(a, W/8, f)`: no other master has the bus since the read half (R59, R72). -/
def putMem (sz : Size) (a : Word) (v : BitVec sz.bits) (s : State) : Res Unit :=
  match sz, v with
  | .byte, v => putByte a v s
  | .word, v => putWord a v s

/-- `MemWrite(a, W/8, v)` (R58). -/
def writeMem (sz : Size) (a : Word) (v : BitVec sz.bits) (s : State) : Res Unit :=
  match sz, v with
  | .byte, v => writeByte a v s
  | .word, v => writeWord a v s

/-! ### Effective addresses -/

/-- `step(n, W)`: modes 2 and 4 move by the operand size, but R6 and R7 always by 2 (R114). -/
def stepOf (r : Reg) (sz : Size) : Word :=
  match r, sz with
  | .sp, _ => 2
  | .pc, _ => 2
  | _, .word => 2
  | _, .byte => 1

/-- R[n] <- R[n] + d (R130). -/
def State.bump (s : State) (r : Reg) (d : Word) : State := s.setReg r (s.reg r + d)

/-- The decrement of modes 4 and 5, with the stack limit check of R6 (R116, R118, R123). -/
def State.decrement (s : State) (r : Reg) (d : Word) : State :=
  let s' := s.setReg r (s.reg r - d)
  if r = .sp then s'.checkStack else s'

/-- The next word of the instruction stream: read at PC, then PC <- PC + 2 (R81, R119). -/
def nextWord (s : State) : Res Word :=
  (readWord .dati (s.reg .pc) s).andThen fun x s' => .ok x (s'.bump .pc 2)

/-- The state a failed pointer read of mode 3 leaves: `mode3_abort_incremented` says whether the register has moved;
when it is not given, either (R124, D3; log 12). -/
def mode3Abort (r : Reg) (s : State) : State :=
  match s.inst.params.mode3AbortIncremented with
  | some true => s.bump r 2
  | some false => s
  | none => (if freeBit s.free then s.bump r 2 else s).useFree 1

/-- `ea_of(mode, n, W)`: the effective address, and the increment still to be applied after the access (R130). -/
def eaOf (m : MemMode) (r : Reg) (sz : Size) (s : State) : Res (Word × Word) :=
  match m with
  | .deferred => .ok (s.reg r, 0) s
  | .autoInc => .ok (s.reg r, stepOf r sz) s
  | .autoIncDef =>
    match readWord .dati (s.reg r) s with
    | .ok ea s' => .ok (ea, 0) (s'.bump r 2)
    | .abort c s' => .abort c (mode3Abort r s')
  | .autoDec =>
    let s' := s.decrement r (stepOf r sz)
    .ok (s'.reg r, 0) s'
  | .autoDecDef =>
    let s' := s.decrement r 2
    (readWord .dati (s'.reg r) s').andThen fun ea s'' => .ok (ea, 0) s''
  | .index => (nextWord s).andThen fun x s' => .ok (x + s'.reg r, 0) s'
  | .indexDef =>
    (nextWord s).andThen fun x s' =>
      (readWord .dati (x + s'.reg r) s').andThen fun ea s'' => .ok (ea, 0) s''

/-! ### Operands -/

/-- `read_operand` (R130): the operand of a non-modifying access. -/
def readOperand (sz : Size) (o : Operand) (s : State) : Res (BitVec sz.bits) :=
  match o with
  | .reg r => .ok (readReg sz r s) s
  | .mem m r =>
    (eaOf m r sz s).andThen fun e s1 =>
      (readMem sz .dati e.1 s1).andThen fun v s2 => .ok v (s2.bump r e.2)

/-- `modify_operand` (R130): read the destination, operate, load the condition codes, write the result back to the same
place (R128). The register moves between the read half and the write half; the condition codes are loaded in the
operate step, before the write (R264, D4). The condition codes that the operation starts from are those of that step, also
where another master has written 177776 since the fetch: DESIGN CHOICE (R153; log 50). -/
def modifyOperand (sz : Size) (o : Operand) (f : Cc → BitVec sz.bits → Alu sz.bits) (s : State) : Res Unit :=
  match o with
  | .reg r =>
    let out := f s.cc (readReg sz r s)
    .ok () (writeReg sz r out.res (s.setCc out.cc))
  | .mem m r =>
    (eaOf m r sz s).andThen fun e s1 =>
      (readMem sz .datip e.1 s1).andThen fun old s2 =>
        let out := f s2.cc old
        putMem sz e.1 out.res ((s2.bump r e.2).setCc out.cc)

/-- The destination of MOV and CLR, whose old value is not used: modifying, as R60 takes it, or with
`mov_clr_read_before_write` false a plain write (U9; log 28). -/
def storeOperand (sz : Size) (o : Operand) (f : Cc → Alu sz.bits) (s : State) : Res Unit :=
  match o with
  | .reg _ => modifyOperand sz o (fun c _ => f c) s
  | .mem m r =>
    if s.inst.params.movClrReadBeforeWrite then modifyOperand sz o (fun c _ => f c) s
    else
      (eaOf m r sz s).andThen fun e s1 =>
        let out := f s1.cc
        (writeMem sz e.1 out.res (s1.setCc out.cc)).andThen fun _ s2 => .ok () (s2.bump r e.2)

/-- `address_operand` (R129, R130): the effective address itself, the operand not being accessed. -/
def addressOperand (m : MemMode) (r : Reg) (s : State) : Res Word :=
  (eaOf m r .word s).andThen fun e s1 => .ok e.1 (s1.bump r e.2)

/-- A source operand as the 16 bits of R11: a byte's high half is any value (log 6). -/
def sourceWord (sz : Size) (v : BitVec sz.bits) (s : State) : Word :=
  match sz, v with
  | .byte, v => highByte s.hidden.r11 ++ v
  | .word, v => v

/-- The source of a double-operand instruction, read completely and saved in R11 before anything of the destination
is touched (R111, R180). -/
def readSource (sz : Size) (o : Operand) (s : State) : Res (BitVec sz.bits) :=
  (readOperand sz o s).andThen fun v s1 => .ok v (s1.setHidden { s1.hidden with r11 := sourceWord sz v s1 })

end Sys2Proof.Machine
end

