-- ==== Sys2Proof/Machine/DoubleOperand.lean ====
section
/-! DEFINITION. The double-operand instructions (spec 42_double_operand.md, R180 to R195): the source is read completely
before anything of the destination is touched (R180). -/

namespace Sys2Proof.Machine

/-- CMP and BIT, of either size: source and destination are read, and only the condition codes change (R60). -/
def compareBody (sz : Size) (src dst : Operand) (f : BitVec sz.bits → Cc → BitVec sz.bits → Alu sz.bits) (s : State) :
    Res Unit :=
  (readSource sz src s).andThen fun a s1 =>
    (readOperand sz dst s1).andThen fun b s2 => .ok () (s2.setCc (f a s2.cc b).cc)

/-- BIC, BIS, ADD, SUB, of either size: the destination is modified (R60). -/
def combineBody (sz : Size) (src dst : Operand) (f : BitVec sz.bits → Cc → BitVec sz.bits → Alu sz.bits) (s : State) :
    Res Unit :=
  (readSource sz src s).andThen fun a s1 => modifyOperand sz dst (f a) s1

/-- MOV (R181). -/
def moveBody (src dst : Operand) (s : State) : Res Unit :=
  (readSource .word src s).andThen fun a s1 => storeOperand .word dst (aluMov a) s1

/-- MOVB: a register destination receives all 16 bits, the byte sign-extended (R182). -/
def moveByteBody (src dst : Operand) (s : State) : Res Unit :=
  (readSource .byte src s).andThen fun a s1 =>
    match dst with
    | .reg r => .ok () ((s1.setCc (aluMov a s1.cc).cc).setReg r (sext a))
    | .mem m r => storeOperand .byte (.mem m r) (aluMov a) s1

/-- MOV (R181). -/
def execMov (src dst : Operand) (s : State) : Host.Outcome State Fault Refusal :=
  instruction (moveBody src dst) s

/-- MOVB (R182). -/
def execMovb (src dst : Operand) (s : State) : Host.Outcome State Fault Refusal :=
  instruction (moveByteBody src dst) s

/-- CMP (R183). -/
def execCmp (src dst : Operand) (s : State) : Host.Outcome State Fault Refusal :=
  instruction (compareBody .word src dst aluCmp) s

/-- CMPB (R184). -/
def execCmpb (src dst : Operand) (s : State) : Host.Outcome State Fault Refusal :=
  instruction (compareBody .byte src dst aluCmp) s

/-- BIT (R185). -/
def execBit (src dst : Operand) (s : State) : Host.Outcome State Fault Refusal :=
  instruction (compareBody .word src dst aluBit) s

/-- BITB (R186). -/
def execBitb (src dst : Operand) (s : State) : Host.Outcome State Fault Refusal :=
  instruction (compareBody .byte src dst aluBit) s

/-- BIC (R187). -/
def execBic (src dst : Operand) (s : State) : Host.Outcome State Fault Refusal :=
  instruction (combineBody .word src dst aluBic) s

/-- BICB (R188). -/
def execBicb (src dst : Operand) (s : State) : Host.Outcome State Fault Refusal :=
  instruction (combineBody .byte src dst aluBic) s

/-- BIS (R189). -/
def execBis (src dst : Operand) (s : State) : Host.Outcome State Fault Refusal :=
  instruction (combineBody .word src dst aluBis) s

/-- BISB (R190). -/
def execBisb (src dst : Operand) (s : State) : Host.Outcome State Fault Refusal :=
  instruction (combineBody .byte src dst aluBis) s

/-- ADD (R191). -/
def execAdd (src dst : Operand) (s : State) : Host.Outcome State Fault Refusal :=
  instruction (combineBody .word src dst aluAdd) s

/-- SUB (R192). -/
def execSub (src dst : Operand) (s : State) : Host.Outcome State Fault Refusal :=
  instruction (combineBody .word src dst aluSub) s

end Sys2Proof.Machine
end

