-- ==== Sys2Proof/Machine/Operate.lean ====
section
/-! DEFINITION. HALT, WAIT and RESET (spec 44_operate.md R240 to R244). The microprogram's temporaries keep their
values: HALT has no microroutine (R261), and R240 and R242 say that nothing else changes. -/

namespace Sys2Proof.Machine

/-- HALT: the trace flag is set if T is, and waits for the continue (R240, D5). The service point at which the processor
halts has latched the bus requests (R285). -/
def execHalt (s : State) : Host.Outcome State Fault Refusal :=
  .next ((s.setRunState .halted).complete s.tBit).latchRequests

/-- WAIT: with T set the trace trap ends the wait at once (R241, D5). -/
def execWait (s : State) : Host.Outcome State Fault Refusal := .next ((s.setRunState .wait).complete s.tBit)

/-- RESET: BUS INIT puts every device into its power-up state, in which it requests nothing (R48, R242, D15; log
34). -/
def execReset (s : State) : Host.Outcome State Fault Refusal := .next ((s.setRequests []).complete s.tBit)

end Sys2Proof.Machine
end

