-- ==== Sys2Proof/Machine/SingleOperand.lean ====
section
/-! DEFINITION. The single-operand instructions, in word and byte forms, and SWAB (spec 41_single_operand.md, R140 to
R170). -/

namespace Sys2Proof.Machine

/-- CLR and CLRB, of either size: the old value is not used (R60, R143, R144). -/
def clearBody (sz : Size) (dst : Operand) (s : State) : Res Unit := storeOperand sz dst aluClr s

/-- TST and TSTB, of either size: the operand is read and only the condition codes change (R60, R157, R158). -/
def testBody (sz : Size) (dst : Operand) (s : State) : Res Unit :=
  (readOperand sz dst s).andThen fun v s1 => .ok () (s1.setCc (aluTst s1.cc v).cc)

/-- SBC and SBCB, of either size, under `sbc_v_needs_carry` (R155, R156, U3). -/
def subtractCarryBody (sz : Size) (dst : Operand) (s : State) : Res Unit :=
  modifyOperand sz dst (aluSbc s.inst.params.sbcVNeedsCarry) s

/-- CLR (R143). -/
def execClr (dst : Operand) (s : State) : Host.Outcome State Fault Refusal :=
  instruction (clearBody .word dst) s

/-- COM (R145). -/
def execCom (dst : Operand) (s : State) : Host.Outcome State Fault Refusal :=
  instruction (modifyOperand .word dst aluCom) s

/-- INC (R147). -/
def execInc (dst : Operand) (s : State) : Host.Outcome State Fault Refusal :=
  instruction (modifyOperand .word dst aluInc) s

/-- DEC (R149). -/
def execDec (dst : Operand) (s : State) : Host.Outcome State Fault Refusal :=
  instruction (modifyOperand .word dst aluDec) s

/-- NEG (R151). -/
def execNeg (dst : Operand) (s : State) : Host.Outcome State Fault Refusal :=
  instruction (modifyOperand .word dst aluNeg) s

/-- ADC (R153). -/
def execAdc (dst : Operand) (s : State) : Host.Outcome State Fault Refusal :=
  instruction (modifyOperand .word dst aluAdc) s

/-- SBC (R155). -/
def execSbc (dst : Operand) (s : State) : Host.Outcome State Fault Refusal :=
  instruction (subtractCarryBody .word dst) s

/-- TST (R157). -/
def execTst (dst : Operand) (s : State) : Host.Outcome State Fault Refusal :=
  instruction (testBody .word dst) s

/-- ROR (R159). -/
def execRor (dst : Operand) (s : State) : Host.Outcome State Fault Refusal :=
  instruction (modifyOperand .word dst aluRor) s

/-- ROL (R161). -/
def execRol (dst : Operand) (s : State) : Host.Outcome State Fault Refusal :=
  instruction (modifyOperand .word dst aluRol) s

/-- ASR (R163). -/
def execAsr (dst : Operand) (s : State) : Host.Outcome State Fault Refusal :=
  instruction (modifyOperand .word dst aluAsr) s

/-- ASL (R165). -/
def execAsl (dst : Operand) (s : State) : Host.Outcome State Fault Refusal :=
  instruction (modifyOperand .word dst aluAsl) s

/-- CLRB (R144). -/
def execClrb (dst : Operand) (s : State) : Host.Outcome State Fault Refusal :=
  instruction (clearBody .byte dst) s

/-- COMB (R146). -/
def execComb (dst : Operand) (s : State) : Host.Outcome State Fault Refusal :=
  instruction (modifyOperand .byte dst aluCom) s

/-- INCB (R148). -/
def execIncb (dst : Operand) (s : State) : Host.Outcome State Fault Refusal :=
  instruction (modifyOperand .byte dst aluInc) s

/-- DECB (R150). -/
def execDecb (dst : Operand) (s : State) : Host.Outcome State Fault Refusal :=
  instruction (modifyOperand .byte dst aluDec) s

/-- NEGB (R152). -/
def execNegb (dst : Operand) (s : State) : Host.Outcome State Fault Refusal :=
  instruction (modifyOperand .byte dst aluNeg) s

/-- ADCB (R154). -/
def execAdcb (dst : Operand) (s : State) : Host.Outcome State Fault Refusal :=
  instruction (modifyOperand .byte dst aluAdc) s

/-- SBCB (R156). -/
def execSbcb (dst : Operand) (s : State) : Host.Outcome State Fault Refusal :=
  instruction (subtractCarryBody .byte dst) s

/-- TSTB (R158). -/
def execTstb (dst : Operand) (s : State) : Host.Outcome State Fault Refusal :=
  instruction (testBody .byte dst) s

/-- RORB (R160). -/
def execRorb (dst : Operand) (s : State) : Host.Outcome State Fault Refusal :=
  instruction (modifyOperand .byte dst aluRor) s

/-- ROLB (R162). -/
def execRolb (dst : Operand) (s : State) : Host.Outcome State Fault Refusal :=
  instruction (modifyOperand .byte dst aluRol) s

/-- ASRB (R164). -/
def execAsrb (dst : Operand) (s : State) : Host.Outcome State Fault Refusal :=
  instruction (modifyOperand .byte dst aluAsr) s

/-- ASLB (R167). -/
def execAslb (dst : Operand) (s : State) : Host.Outcome State Fault Refusal :=
  instruction (modifyOperand .byte dst aluAsl) s

/-- SWAB, a word instruction that modifies (R169). -/
def execSwab (dst : Operand) (s : State) : Host.Outcome State Fault Refusal :=
  instruction (modifyOperand .word dst aluSwab) s

end Sys2Proof.Machine
end

