-- ==== Sys2Proof/Machine/Subroutine.lean ====
section
/-! DEFINITION. JMP (spec 41_single_operand.md R166, R168), JSR and RTS (43_program_control.md R218, R219). -/

namespace Sys2Proof.Machine

/-- JMP: the effective address is the new PC; the operand is not accessed (R129, R166, R168). -/
def jumpBody (m : MemMode) (r : Reg) (s : State) : Res Unit :=
  (addressOperand m r s).andThen fun target s1 => .ok () (s1.setReg .pc target)

/-- JMP with a destination in memory (R168). -/
def execJmp (m : MemMode) (r : Reg) (s : State) : Host.Outcome State Fault Refusal :=
  instruction (jumpBody m r) s

/-- JSR: the destination address is computed before the push; with the link register SP the value pushed is the
decremented one (R218, D17; log 38). -/
def callBody (link : Reg) (m : MemMode) (r : Reg) (s : State) : Res Unit :=
  (addressOperand m r s).andThen fun target s1 =>
    let s2 := s1.pushDown true
    (writeWord (s2.reg .sp) (s2.reg link) s2).andThen fun _ s3 =>
      .ok () ((s3.setReg link (s3.reg .pc)).setReg .pc target)

/-- JSR with a destination in memory (R218). -/
def execJsr (link : Reg) (m : MemMode) (r : Reg) (s : State) : Host.Outcome State Fault Refusal :=
  instruction (callBody link m r) s

/-- RTS; if the pop raises, `rts_abort_pc_loaded` says whether PC already holds the register (R219, D17). With SP the
popped word is what stays (log 38). -/
def returnBody (r : Reg) (s : State) : Res Unit :=
  match popWord (s.setReg .pc (s.reg r)) with
  | .ok v s1 => .ok () (s1.setReg r v)
  | .abort c s1 => .abort c (if s.inst.params.rtsAbortPcLoaded then s1 else s1.setReg .pc (s.reg .pc))

/-- RTS (R219). -/
def execRts (r : Reg) (s : State) : Host.Outcome State Fault Refusal := instruction (returnBody r) s

end Sys2Proof.Machine
end

