-- ==== Sys2Proof/WellFormed.lean ====
section
/-! DEFINITION. Which instructions the machine has: every term of `Instr`, but that a reserved word must be one that
the spec calls reserved (R90, R96). All other limits (no JMP or JSR of mode 0, three-bit registers) are in the types. -/

namespace Sys2Proof

/-- The words of the "reserved" lines of R90, less 070000 to 077777 (`Instr.reservedEis`). -/
def isReservedWord (w : Word) : Bool :=
  (decide (0o000007 ≤ w.toNat) && decide (w.toNat ≤ 0o000077)) ||
  (decide (0o000210 ≤ w.toNat) && decide (w.toNat ≤ 0o000237)) ||
  (decide (0o006400 ≤ w.toNat) && decide (w.toNat ≤ 0o007777)) ||
  (decide (0o106400 ≤ w.toNat) && decide (w.toNat ≤ 0o107777)) ||
  (decide (0o170000 ≤ w.toNat) && decide (w.toNat ≤ 0o177777))

/-- The instruction stands for a word of the machine. -/
def Instr.wf : Instr → Bool
  | .reserved w => isReservedWord w
  | _ => true

end Sys2Proof
end

