-- ==== Sys2Proof/Decode.lean ====
section
/-! DEFINITION. From instruction words to instructions and back (spec 30_encoding.md). Decode depends on the 16 bits
of the instruction word only (R80, R91) and gives every word exactly one instruction (R90); the only bytes it
rejects are too few to hold a word. -/

namespace Sys2Proof

/-- The field `w[lo + len - 1 : lo]` (R10). -/
def field (w : Word) (lo len : Nat) : BitVec len := w.extractLsb' lo len

/-- The 3-bit register field (R83, R22). -/
def Reg.code : Reg → BitVec 3
  | .r0 => 0 | .r1 => 1 | .r2 => 2 | .r3 => 3 | .r4 => 4 | .r5 => 5 | .sp => 6 | .pc => 7

/-- The register a 3-bit field names (R83, R22). -/
def Reg.ofCode (c : BitVec 3) : Reg :=
  match c.toNat with
  | 0 => .r0 | 1 => .r1 | 2 => .r2 | 3 => .r3 | 4 => .r4 | 5 => .r5 | 6 => .sp | _ => .pc

/-- The 3-bit mode field of modes 1 to 7 (R83, R110). -/
def MemMode.code : MemMode → BitVec 3
  | .deferred => 1 | .autoInc => 2 | .autoIncDef => 3 | .autoDec => 4 | .autoDecDef => 5 | .index => 6 | .indexDef => 7

/-- The mode that a 3-bit field names; none for mode 0, register (R83, R112). -/
def MemMode.ofCode (c : BitVec 3) : Option MemMode :=
  match c.toNat with
  | 0 => none | 1 => some .deferred | 2 => some .autoInc | 3 => some .autoIncDef | 4 => some .autoDec
  | 5 => some .autoDecDef | 6 => some .index | _ => some .indexDef

/-- The 6-bit specifier of an operand: mode, then register (R83). -/
def Operand.code : Operand → BitVec 6
  | .reg r => (0 : BitVec 3) ++ r.code
  | .mem m r => m.code ++ r.code

/-- The operand of a 6-bit specifier (R83). -/
def Operand.ofCode (c : BitVec 6) : Operand :=
  match MemMode.ofCode (c.extractLsb' 3 3) with
  | none => .reg (Reg.ofCode (c.extractLsb' 0 3))
  | some m => .mem m (Reg.ofCode (c.extractLsb' 0 3))

/-- The source specifier, bits 11:6 (R83). -/
def srcField (w : Word) : Operand := Operand.ofCode (field w 6 6)

/-- The destination specifier, bits 5:0 (R83). -/
def dstField (w : Word) : Operand := Operand.ofCode (field w 0 6)

/-- Words 000000 to 000377 (R88). -/
def decodeOperate (w : Word) : Instr :=
  match (field w 6 2).toNat with
  | 0 =>
    match (field w 0 6).toNat with
    | 0 => .halt | 1 => .wait | 2 => .rti | 3 => .bpt | 4 => .iot | 5 => .reset | 6 => .rtt | _ => .reserved w
  | 1 =>
    match dstField w with
    | .reg r => .illegalJmp r
    | .mem m r => .jmp m r
  | 2 =>
    match (field w 3 3).toNat with
    | 0 => .rts (Reg.ofCode (field w 0 3))
    | 4 | 5 => .clcc (field w 0 4)
    | 6 | 7 => .secc (field w 0 4)
    | _ => .reserved w
  | _ => .swab (dstField w)

/-- Words with bits 14:11 zero: the operate group and the branches, by bits 15 and 10:8 (R87). -/
def decodeBranch (w : Word) : Instr :=
  let offset := field w 0 8
  match (field w 15 1 ++ field w 8 3).toNat with
  | 0 => decodeOperate w
  | 1 => .br offset | 2 => .bne offset | 3 => .beq offset | 4 => .bge offset | 5 => .blt offset
  | 6 => .bgt offset | 7 => .ble offset | 8 => .bpl offset | 9 => .bmi offset | 10 => .bhi offset
  | 11 => .blos offset | 12 => .bvc offset | 13 => .bvs offset | 14 => .bcc offset | _ => .bcs offset

/-- Words 004000 to 007777 (R86, R89, R90). -/
def decodeWordGroup (w : Word) : Instr :=
  match (field w 6 5).toNat with
  | 0 | 1 | 2 | 3 | 4 | 5 | 6 | 7 =>
    match dstField w with
    | .reg r => .illegalJsr (Reg.ofCode (field w 6 3)) r
    | .mem m r => .jsr (Reg.ofCode (field w 6 3)) m r
  | 8 => .clr (dstField w) | 9 => .com (dstField w) | 10 => .inc (dstField w) | 11 => .dec (dstField w)
  | 12 => .neg (dstField w) | 13 => .adc (dstField w) | 14 => .sbc (dstField w) | 15 => .tst (dstField w)
  | 16 => .ror (dstField w) | 17 => .rol (dstField w) | 18 => .asr (dstField w) | 19 => .asl (dstField w)
  | _ => .reserved w

/-- Words 104000 to 107777 (R86, R89, R90). -/
def decodeByteGroup (w : Word) : Instr :=
  match (field w 6 5).toNat with
  | 0 | 1 | 2 | 3 => .emt (field w 0 8)
  | 4 | 5 | 6 | 7 => .trap (field w 0 8)
  | 8 => .clrb (dstField w) | 9 => .comb (dstField w) | 10 => .incb (dstField w) | 11 => .decb (dstField w)
  | 12 => .negb (dstField w) | 13 => .adcb (dstField w) | 14 => .sbcb (dstField w) | 15 => .tstb (dstField w)
  | 16 => .rorb (dstField w) | 17 => .rolb (dstField w) | 18 => .asrb (dstField w) | 19 => .aslb (dstField w)
  | _ => .reserved w

/-- The one instruction that a word is (R90). -/
def decode (w : Word) : Instr :=
  match (field w 12 4).toNat with
  | 0 => if field w 11 1 = 0 then decodeBranch w else decodeWordGroup w
  | 1 => .mov (srcField w) (dstField w)
  | 2 => .cmp (srcField w) (dstField w)
  | 3 => .bit (srcField w) (dstField w)
  | 4 => .bic (srcField w) (dstField w)
  | 5 => .bis (srcField w) (dstField w)
  | 6 => .add (srcField w) (dstField w)
  | 7 => .reservedEis (field w 0 12)
  | 8 => if field w 11 1 = 0 then decodeBranch w else decodeByteGroup w
  | 9 => .movb (srcField w) (dstField w)
  | 10 => .cmpb (srcField w) (dstField w)
  | 11 => .bitb (srcField w) (dstField w)
  | 12 => .bicb (srcField w) (dstField w)
  | 13 => .bisb (srcField w) (dstField w)
  | 14 => .sub (srcField w) (dstField w)
  | _ => .reserved w

/-- Why bytes are no instruction. -/
inductive DecodeError where
  /-- Fewer than the two bytes of an instruction word (R80). -/
  | tooShort
deriving DecidableEq, Repr

/-- The word whose bits 7:0 are the byte at the even address (R51). -/
def wordOfBytes (lo hi : Byte) : Word := hi ++ lo

/-- The instruction at the head of a list of bytes, lowest address first, and the bytes after its word; those of an
extension word, if it has any, stand first in them (R81). -/
def decodeBytes : List Byte → Except DecodeError (Instr × List Byte)
  | lo :: hi :: rest => .ok (decode (wordOfBytes lo hi), rest)
  | _ => .error .tooShort

/-- The bytes of an instruction whose bits are `w`, as the opcode table numbers them: three words, the longest an
instruction has (R80), bits from `nbits` on being zero. -/
def tableBytes (nbits w : Nat) : List Byte :=
  let v := w % 2 ^ nbits
  [BitVec.ofNat 8 v, BitVec.ofNat 8 (v / 2 ^ 8), BitVec.ofNat 8 (v / 2 ^ 16),
   BitVec.ofNat 8 (v / 2 ^ 24), BitVec.ofNat 8 (v / 2 ^ 32), BitVec.ofNat 8 (v / 2 ^ 40)]

/-- The instruction that the decoder reads from an opcode-table word. -/
def decodeTableWord (nbits w : Nat) : Option Instr :=
  match decodeBytes (tableBytes nbits w) with
  | .ok (i, _) => some i
  | .error _ => none

/-- A word of format SOP: ten opcode bits and a destination (R82). -/
def encodeSop (op : BitVec 10) (dst : Operand) : Word := op ++ dst.code

/-- A word of format DOP: four opcode bits, source, destination (R82). -/
def encodeDop (op : BitVec 4) (src dst : Operand) : Word := op ++ src.code ++ dst.code

/-- A word of format BR or TRP: an opcode byte and an operand byte (R82). -/
def encodeByteOp (op low : Byte) : Word := op ++ low

/-- The word of an instruction, from the encoding tables of R85 to R89. -/
def encode : Instr → Word
  | .halt => 0o000000
  | .wait => 0o000001
  | .rti => 0o000002
  | .bpt => 0o000003
  | .iot => 0o000004
  | .reset => 0o000005
  | .rtt => 0o000006
  | .reserved w => w
  | .illegalJmp r => encodeSop 0o0001 (.reg r)
  | .jmp m r => encodeSop 0o0001 (.mem m r)
  | .rts r => (0o00020 : BitVec 13) ++ r.code
  | .clcc mask => (0o0012 : BitVec 12) ++ mask
  | .secc mask => (0o0013 : BitVec 12) ++ mask
  | .swab dst => encodeSop 0o0003 dst
  | .br offset => encodeByteOp 0o001 offset
  | .bne offset => encodeByteOp 0o002 offset
  | .beq offset => encodeByteOp 0o003 offset
  | .bge offset => encodeByteOp 0o004 offset
  | .blt offset => encodeByteOp 0o005 offset
  | .bgt offset => encodeByteOp 0o006 offset
  | .ble offset => encodeByteOp 0o007 offset
  | .bpl offset => encodeByteOp 0o200 offset
  | .bmi offset => encodeByteOp 0o201 offset
  | .bhi offset => encodeByteOp 0o202 offset
  | .blos offset => encodeByteOp 0o203 offset
  | .bvc offset => encodeByteOp 0o204 offset
  | .bvs offset => encodeByteOp 0o205 offset
  | .bcc offset => encodeByteOp 0o206 offset
  | .bcs offset => encodeByteOp 0o207 offset
  | .illegalJsr link r => (0o004 : BitVec 7) ++ link.code ++ (Operand.reg r).code
  | .jsr link m r => (0o004 : BitVec 7) ++ link.code ++ (Operand.mem m r).code
  | .clr dst => encodeSop 0o0050 dst
  | .com dst => encodeSop 0o0051 dst
  | .inc dst => encodeSop 0o0052 dst
  | .dec dst => encodeSop 0o0053 dst
  | .neg dst => encodeSop 0o0054 dst
  | .adc dst => encodeSop 0o0055 dst
  | .sbc dst => encodeSop 0o0056 dst
  | .tst dst => encodeSop 0o0057 dst
  | .ror dst => encodeSop 0o0060 dst
  | .rol dst => encodeSop 0o0061 dst
  | .asr dst => encodeSop 0o0062 dst
  | .asl dst => encodeSop 0o0063 dst
  | .clrb dst => encodeSop 0o1050 dst
  | .comb dst => encodeSop 0o1051 dst
  | .incb dst => encodeSop 0o1052 dst
  | .decb dst => encodeSop 0o1053 dst
  | .negb dst => encodeSop 0o1054 dst
  | .adcb dst => encodeSop 0o1055 dst
  | .sbcb dst => encodeSop 0o1056 dst
  | .tstb dst => encodeSop 0o1057 dst
  | .rorb dst => encodeSop 0o1060 dst
  | .rolb dst => encodeSop 0o1061 dst
  | .asrb dst => encodeSop 0o1062 dst
  | .aslb dst => encodeSop 0o1063 dst
  | .mov src dst => encodeDop 0o01 src dst
  | .cmp src dst => encodeDop 0o02 src dst
  | .bit src dst => encodeDop 0o03 src dst
  | .bic src dst => encodeDop 0o04 src dst
  | .bis src dst => encodeDop 0o05 src dst
  | .add src dst => encodeDop 0o06 src dst
  | .reservedEis low => (0o07 : BitVec 4) ++ low
  | .emt code => encodeByteOp 0o210 code
  | .trap code => encodeByteOp 0o211 code
  | .movb src dst => encodeDop 0o11 src dst
  | .cmpb src dst => encodeDop 0o12 src dst
  | .bitb src dst => encodeDop 0o13 src dst
  | .bicb src dst => encodeDop 0o14 src dst
  | .bisb src dst => encodeDop 0o15 src dst
  | .sub src dst => encodeDop 0o16 src dst

end Sys2Proof
end

