-- ==== Sys2Proof/Machine/Trap.lean ====
section
/-! DEFINITION. The trap instructions, the illegal and reserved words, and the returns from a trap (spec
43_program_control.md R220 to R230, 30_encoding.md R95, R96, 60_exceptions.md R269). -/

namespace Sys2Proof.Machine

/-- The IR CODE that the decode ROMs give an instruction (R269, Table 14). -/
def irCode : Instr → IrCode
  | .halt => .halt
  | .trap _ => .trap
  | .emt _ => .emt
  | .iot => .iot
  | .bpt => .bpt
  | .illegalJmp _ => .illegal
  | .illegalJsr _ _ => .illegal
  | .reserved _ => .reserved
  | .reservedEis _ => .reserved
  | _ => .none

/-- The three bits of an IR CODE (R269, Table 14). -/
def irCodeBits : IrCode → BitVec 3
  | .halt => 0b000
  | .trap => 0b001
  | .emt => 0b010
  | .iot => 0b011
  | .bpt => 0b100
  | .illegal => 0b101
  | .reserved => 0b110
  | .none => 0b111

/-- The vector of the trap that an IR CODE makes the service point take, if any (R269). -/
def irCodeVector : IrCode → Option Word
  | .trap => some 0o34
  | .emt => some 0o30
  | .iot => some 0o20
  | .bpt => some 0o14
  | .illegal => some 0o10
  | .reserved => some 0o10
  | .halt => none
  | .none => none

/-- `pending.instr_trap`: the IR CODE of the word in IR, which the decode ROMs form from it and no latch holds (R42, R269).
The trap is taken, or the processor halts, in the step that fetched the word (log 40). -/
def State.irCode (s : State) : IrCode := Machine.irCode (decode s.ir)

/-- BPT (R221). -/
def execBpt (s : State) : Host.Outcome State Fault Refusal := instructionTrap 0o14 s

/-- IOT (R222). -/
def execIot (s : State) : Host.Outcome State Fault Refusal := instructionTrap 0o20 s

/-- EMT: the hardware does not interpret the code (R220, R223). -/
def execEmt (_code : Byte) (s : State) : Host.Outcome State Fault Refusal := instructionTrap 0o30 s

/-- TRAP: the hardware does not interpret the code (R220, R224). -/
def execTrap (_code : Byte) (s : State) : Host.Outcome State Fault Refusal := instructionTrap 0o34 s

/-- A reserved word other than 07xxxx (R96). -/
def execReserved (_w : Word) (s : State) : Host.Outcome State Fault Refusal := instructionTrap 0o10 s

/-- A reserved word 07xxxx (R96). -/
def execReservedEis (_low : BitVec 12) (s : State) : Host.Outcome State Fault Refusal := instructionTrap 0o10 s

/-- JMP with a register destination: illegal, nothing of it is evaluated (R95). -/
def execIllegalJmp (_r : Reg) (s : State) : Host.Outcome State Fault Refusal := instructionTrap 0o10 s

/-- JSR with a register destination: illegal, nothing of it is evaluated (R95). -/
def execIllegalJsr (_link _r : Reg) (s : State) : Host.Outcome State Fault Refusal := instructionTrap 0o10 s

/-- RTI: the trace flag becomes the T bit that it pops, whatever T was before (R228, D5). -/
def execRti (s : State) : Host.Outcome State Fault Refusal :=
  instructionEnding (fun s' => s'.complete true) returnFromInterrupt s

/-- RTT: it sets no trace flag (R229, D5). -/
def execRtt (s : State) : Host.Outcome State Fault Refusal := instructionEnding id returnFromInterrupt s

end Sys2Proof.Machine
end

