-- ==== Sys2Proof/Machine/Environment.lean ====
section
/-! DEFINITION. What the other agents do between two steps of the processor, and power going down and coming up (spec
60_exceptions.md R260, R273, R283, R311; 70_reset_and_hazards.md R320 to R326). -/

namespace Sys2Proof.Machine

open Sys2Proof.Config

/-! ### The console and the bus -/

/-- What the console or an NPR master reads at an address (R45, R72, R311): a register address shows the scratch pad
while the processor is halted and zero while it is not (R66); nothing where no memory answers. -/
def masterRead (a : Word) (s : State) : Option Word :=
  if isRegisterAddress a then some (if s.isHalted then s.spm a else 0)
  else if evenAddr a = pswAddress then some (zext s.psw)
  else if answer s.inst .dati (evenAddr a) = some .memory then some (s.memWord (evenAddr a))
  else none

/-- A halted processor goes on from the service point it was at, which does not grant the halt request again (R243,
R283, D10; log 43) and has latched its bus requests before the halt (R285; log 49). DESIGN CHOICE: it sees the flags that
were set while the processor was halted (log 45). -/
def resume (r : RunState) (s : State) : State := (s.setRunState r).setHaltPassed true

/-- `console_continue`; after a halt in WAIT the processor is still waiting (R243, R244, R283). -/
def consoleContinue (s : State) : State :=
  match s.runState with
  | .halted => resume .run s
  | .haltGranted true => resume .wait s
  | .haltGranted false => resume .run s
  | _ => s

/-! ### Power -/

def State.setPower (s : State) (p : Power) : State := { s with power := p }

/-- The processor and the bus are initialised: IR is 100000, no flag is pending, devices request nothing and nothing is
latched (R46, R47, R321, R324, D8; logs 34, 35, 49). -/
def enterInit (s : State) : State :=
  (((((s.setIr 0o100000).setPending
    { busError := false, parityError := false, trace := false, stackOverflow := false, powerFail := false }).setRequests
    []).latchRequests.setRunState .init).setHaltPassed false).setPower { s.power with pup := false, pdwn := false }

/-- Every processor register holds any value, as after a loss of power (R46, U7, U8; log 23). -/
def loseRegisters (s : State) : State :=
  let w (n : Nat) : Word := freeWord (s.free + n)
  { s with
    regs := { r0 := w 0, r1 := w 1, r2 := w 2, r3 := w 3, r4 := w 4, r5 := w 5, sp := w 6, pc := w 7 }
    hidden := { r10 := w 8, r11 := w 9, r12 := w 10, r13 := w 11, r14 := w 12, r15 := w 13, r16 := w 14, r17 := w 15
                b := w 16 }
    psw := lowByte (w 17)
    free := s.free + 18 }

/-- DC LO is negated: the power-up INIT begins; registers are lost, and memory too if it is not retained (R321, R326,
U8; log 23). -/
def powerUp (s : State) : State :=
  enterInit (loseRegisters (if s.inst.memoryRetained then s else s.setMem []))

/-- The assertion of AC LO: power fail, and the PDWN one-shot starts; it is ignored in the PUP interval, and while the
processor has no power or is being initialised (R273, R321; log 42). -/
def assertAcLo (s : State) : State :=
  let s' := s.setPower { s.power with acLo := true }
  if s.power.acLo || s.power.pup || decide (s.runState = .powerOff) || decide (s.runState = .init) then s'
  else (s'.setPending { s'.pending with powerFail := true }).setPower { s'.power with pdwn := true }

/-- The PDWN one-shot times out: with power still there the INIT is triggered again, registers and memory intact
(R273). -/
def endPowerDown (s : State) : State :=
  if s.power.pdwn && !decide (s.runState = .powerOff) then enterInit s
  else s.setPower { s.power with pdwn := false }

/-- What is left of the restart routine. An error in one of its reads leaves the flag of the trap through 4 for the
service point that follows, after bad parity too, as R321 says of this routine (log 44); B then holds the word (R268). -/
def settleRestart (r : Res Unit) : State :=
  match r with
  | .abort (.parityError w) s => (s.setHidden { s.hidden with b := w }).flagAbort .busError
  | r => r.settle

/-- The restart routine, once the INIT is over and AC LO is negated: R5 receives PC; PC and PSW come from the words at
24 and 26 (R321, R46). -/
def restart (s : State) : State :=
  let s1 := s.setReg .r5 (s.reg .pc)
  let s2 := (s1.setHidden { s1.hidden with r13 := 0o24 }).setPower { s1.power with pup := true }
  (settleRestart (loadVector 0o24 s2)).setRunState .run

/-! ### Events -/

/-- The act of another agent (R260, R311). -/
def applyEvent (e : Event) (s : State) : State :=
  match e with
  | .device a => s.setRequests (a.apply s.requests)
  | .haltSwitch on => s.setHaltRequest on
  | .consoleContinue => consoleContinue s
  | .masterWrite w => masterWrite w s
  | .busInit => s.setRequests []
  | .acLo true => assertAcLo s
  | .acLo false => s.setPower { s.power with acLo := false }
  | .dcLo true => (s.setPower { s.power with dcLo := true }).setRunState .powerOff
  | .dcLo false => if s.power.dcLo then powerUp (s.setPower { s.power with dcLo := false }) else s
  | .pupEnds => s.setPower { s.power with pup := false }
  | .pdwnEnds => endPowerDown s

end Sys2Proof.Machine
end

