-- ==== Sys2Proof/Machine/Fetch.lean ====
section
/-! DEFINITION. The instruction fetch (spec R26, R28, R44, R62, R81, R124, R265), and the placing of an instruction where
the next fetch finds it. -/

namespace Sys2Proof.Machine

open Sys2Proof.Config

/-- The fetch: the word at PC goes to B and IR, and PC moves past it (R26, R42). If the read raises, PC stays; after a bus
error IR and B hold any value (R124, R265, U10; log 7), after a parity error the word with the bad parity, which is not
decoded (R268, D18). -/
def fetch (s : State) : Res Word :=
  match readWord .dati (s.reg .pc) s with
  | .ok w s1 => .ok w (((s1.setHidden { s1.hidden with b := w }).setIr w).bump .pc 2)
  | .abort .busError s1 =>
    .abort .busError (((s1.setHidden { s1.hidden with b := freeWord s1.free }).setIr (freeWord (s1.free + 1))).useFree 2)
  | .abort (.parityError w) s1 => .abort (.parityError w) ((s1.setHidden { s1.hidden with b := w }).setIr w)

/-- Bytes stored in memory from an address on, wrapping at the end of the address space. -/
def storeBytes (m : Memory) (a : Word) : List Byte → Memory
  | [] => m
  | b :: l => storeBytes (m.write a.toNat b) (a + 1) l

/-- The state in which the next step fetches the instruction with the bits `w` as its own next instruction: its bytes
stand at PC, and nothing outranks the fetch (log 18). -/
def placeInstruction (s : State) (nbits w : Nat) : State :=
  { s with
    mem := storeBytes s.mem (s.reg .pc) (tableBytes nbits w)
    runState := .run
    pending := { busError := false, parityError := false, trace := false, stackOverflow := false, powerFail := false }
    haltRequest := false
    haltPassed := false
    requests := []
    agenda := []
    npr := []
    deviceActs := [] }

end Sys2Proof.Machine
end

