-- ==== Sys2Proof/Machine/Service.lean ====
section
/-! DEFINITION. The service point: what is pending, in the order of its priority (spec 60_exceptions.md R270 to R286).
HALT, bus errors raised by an instruction and instruction traps are serviced in the step that raises them (log 40). -/

namespace Sys2Proof.Machine

open Sys2Proof.Config

/-- The number of a bus request level (R280). -/
def BrLevel.num : BrLevel → Nat
  | .br4 => 4 | .br5 => 5 | .br6 => 6 | .br7 => 7

/-- The line of a level was asserted when the latch was loaded (R285). -/
def BrLatch.holds (l : BrLatch) : BrLevel → Bool
  | .br4 => l.br4
  | .br5 => l.br5
  | .br6 => l.br6
  | .br7 => l.br7

/-- The entry to SERVICE latches the bus requests; a service point that a continue resumes has latched its own before the
halt, and a request raised since waits for the next (R270, R283, R285; log 49). What devices do to their lines in the rest
of the turn comes after (log 51). -/
def State.enterService (s : State) : State :=
  (s.setBrLatch (if s.haltPassed then s.brLatch else s.brLines)).devicesAct

/-- The request that is granted: of those latched the highest level above PRI, and on it the device nearest the processor
(R270 step 8, R281, R282, R285, U16). A level whose devices have all withdrawn since is passed over (D6; log 49). -/
def grantedRequest (s : State) : Option Request :=
  [.br7, .br6, .br5, .br4].findSome? fun l : BrLevel =>
    if s.brLatch.holds l && decide (s.pri < l.num) then s.requests.find? (fun r => decide (r.level = l)) else none

/-- The interrupt sequence, one atomic step: the device drops its request and its vector is used (R282, D6). -/
def interrupt (r : Request) (s : State) : State := trapSequence true r.vector (s.setRequests (s.requests.erase r))

/-- The halt switch is granted: the console drops its request line and holds the processor inactive; it remembers
whether the processor was waiting (R244, R283; log 33). -/
def grantHalt (s : State) : State :=
  (s.setHaltRequest false).setRunState (.haltGranted (decide (s.runState = .wait)))

/-- The processor goes on past its service point: the next one may grant the halt request again (R283, D10). -/
def State.leaveService (s : State) : State := s.setHaltPassed false

/-- The bus requests that a service point considers: none while the halt request, which outranks them, is asserted, so
that no interrupt is taken while the console steps the processor through single instructions (R270, R283). -/
def requestToGrant (s : State) : Option Request := if s.haltRequest then none else grantedRequest s

/-- What is pending at a service point, serviced: the condition of highest priority is cleared and taken; none when there
is none (R270). A halt request that this service point has granted already is not granted again (D10). IR, which is still
000000 after a continue from HALTED, is not looked at: DESIGN CHOICE (log 48). -/
def arbitrate (s : State) : Option State :=
  if s.pending.busError || s.pending.parityError then some (serviceAbort s)
  else if s.pending.trace then
    some (trapSequence true s.inst.params.traceVector (s.setPending { s.pending with trace := false }))
  else if s.pending.stackOverflow then
    some (trapSequence s.inst.params.stovRetrigger s.inst.params.stackOverflowVector
      (s.setPending { s.pending with stackOverflow := false }))
  else if s.pending.powerFail then some (trapSequence true 0o24 (s.setPending { s.pending with powerFail := false }))
  else if s.haltRequest && !s.haltPassed then some (grantHalt s)
  else (requestToGrant s).map fun r => interrupt r s

/-- One pass through SERVICE (R261, R270). -/
def service (s : State) : Option State := (arbitrate s.enterService).map State.leaveService

end Sys2Proof.Machine
end

