-- ==== Sys2Proof/Machine/Processor.lean ====
section
/-! DEFINITION. The processor's turn, in each run state (spec R43, R260, R261, R270). -/

namespace Sys2Proof.Machine

/-- Fetch and execute one instruction; a fetch that raises is followed by its trap (R265, D18). -/
def runInstruction (s : State) : Host.Outcome State Fault Refusal :=
  match fetch s with
  | .ok w s1 => exec (decode w) s1
  | .abort c s1 => .next (takeAbort c s1)

/-- One step of the processor: one service, or else one instruction, or staying where it is (R43, R260, R270). -/
def processorTurn (s : State) : Host.Outcome State Fault Refusal :=
  match s.runState with
  | .run =>
    match service s with
    | some s' => .next s'
    | none => runInstruction s.enterService.leaveService
  | .wait =>
    match service s with
    | some s' => .next s'
    | none => .next s.enterService.leaveService
  | .halted => .next s
  | .haltGranted _ => .next s
  | .powerOff => .fault .powerOff
  | .init => if s.power.acLo then .next s else .next (restart s)

end Sys2Proof.Machine
end

