-- ==== Sys2Proof/Machine/Step.lean ====
section
/-! DEFINITION. One step of the machine: the turn that the agenda names, or the processor's (spec R260; log 17). -/

namespace Sys2Proof.Machine

/-- One step: the agenda's next turn; when the agenda is empty, the processor's. -/
def step (s : State) : Host.Outcome State Fault Refusal :=
  match s.agenda with
  | [] => processorTurn s
  | .processor l acts :: rest =>
    processorTurn { s with agenda := rest, npr := s.npr ++ l, deviceActs := s.deviceActs ++ acts }
  | .other e :: rest => .next (applyEvent e { s with agenda := rest })

/-- The state whose next step fetches and runs the instruction with the bits `w` (log 18). -/
def State.withFetchWord (s : State) (nbits w : Nat) : State := placeInstruction s nbits w

end Sys2Proof.Machine
end

