-- ==== Sys2Proof/Safety.lean ====
section
/-! DEFINITION. The terms in which claims speak of states: what is unchanged, what a store leaves, when memory answers,
and what is good of a state (spec 10_state.md, 20_memory.md, 40_addressing_modes.md, 60_exceptions.md). -/

namespace Sys2Proof.Safety

open Sys2Proof.Config Sys2Proof.Machine

/-! ### Addresses -/

/-- A byte address that the processor serves itself, so that no memory stands behind it: the PSW's two bytes and the
register addresses (R35, R66, R67). -/
def internalAddress (a : Nat) : Bool :=
  decide (a = 0o177776) || decide (a = 0o177777) || (decide (0o177700 ≤ a) && decide (a ≤ 0o177717))

/-- Memory in canonical form that lists no address the processor serves itself. -/
def MemoryGood (s : State) : Prop := s.mem.wf = true ∧ ∀ c ∈ s.mem, internalAddress c.1 = false

/-- Plain memory lies at the word that contains `a`: it answers every kind of transfer, its parity is good, and it is
not one of the processor's own addresses (R64, R76). -/
def plainMemory (s : State) (a : Word) : Bool :=
  decide (answer s.inst .dati (evenAddr a) = some .memory) &&
  decide (answer s.inst .datip (evenAddr a) = some .memory) &&
  decide (answer s.inst .dato (evenAddr a) = some .memory) &&
  decide (answer s.inst .datob (evenAddr a) = some .memory) &&
  !badParity s.inst (evenAddr a) && !internalAddress a.toNat

/-- An even address with plain memory: a word can be read and written there. -/
def plainWord (s : State) (a : Word) : Bool := !isOdd a && plainMemory s a

/-- The transfer that writes an operand of a size (R55). -/
def writeTransfer : Size → Transfer
  | .word => .dato
  | .byte => .datob

/-- A write at an address is answered: by the processor itself, by memory or by a device (R64, R66, R67). -/
def answersWrite (sz : Size) (s : State) (a : Word) : Bool :=
  internalAddress a.toNat || (answer s.inst (writeTransfer sz) (evenAddr a)).isSome

/-! ### What is unchanged -/

/-- No byte of memory has changed. -/
def SameMemory (s t : State) : Prop := ∀ a : Word, t.memByte a = s.memByte a

/-- No byte of memory has changed but those at the addresses listed. -/
def SameMemoryBut (l : List Word) (s t : State) : Prop := ∀ a : Word, a ∉ l → t.memByte a = s.memByte a

/-- PRI and T have not changed. -/
def SamePriority (s t : State) : Prop := t.psw.extractLsb' 4 4 = s.psw.extractLsb' 4 4

/-- Everything is unchanged but the registers, the PSW, memory, the trace and stack overflow flags, the microprogram's
temporaries R10, R11, R12, R17 and B, and the counter of free values. That R13 is kept is the model's choice (log 6). -/
def SameControl (s t : State) : Prop :=
  t.ir = s.ir ∧ t.runState = s.runState ∧ t.requests = s.requests ∧ t.brLatch = s.brLatch ∧
  t.haltRequest = s.haltRequest ∧ t.haltPassed = s.haltPassed ∧
  t.power = s.power ∧ t.agenda = s.agenda ∧ t.npr = s.npr ∧ t.deviceActs = s.deviceActs ∧ t.inst = s.inst ∧
  t.hidden.r13 = s.hidden.r13 ∧ t.hidden.r14 = s.hidden.r14 ∧ t.hidden.r15 = s.hidden.r15 ∧
  t.hidden.r16 = s.hidden.r16 ∧ t.pending.busError = s.pending.busError ∧
  t.pending.parityError = s.pending.parityError ∧ t.pending.powerFail = s.pending.powerFail

/-- An instruction has completed: control is unchanged, and the trace flag is the T bit after the instruction, but that
with `trace_after_psw_write` false T must have been set before it too (R272, D5). -/
def Completed (s t : State) : Prop :=
  SameControl s t ∧ t.pending.trace = (t.tBit && (s.tBit || s.inst.params.traceAfterPswWrite))

/-! ### What a store leaves -/

/-- Memory after a store of `v` at `a`: the value, and every other byte as before; where no memory stands behind the
address, all of it as before (R58, R66, R67). -/
def Stored (sz : Size) (a : Word) (v : BitVec sz.bits) (s t : State) : Prop :=
  if internalAddress a.toNat = false ∧ answer s.inst (writeTransfer sz) (evenAddr a) = some .memory then
    match sz, v with
    | .word, v => (s.mem.wf = true → t.memWord a = v) ∧ SameMemoryBut [a, a + 1] s t
    | .byte, v => (s.mem.wf = true → t.memByte a = v) ∧ SameMemoryBut [a] s t
  else SameMemory s t

/-- The low byte of a value of either size. -/
def lowOf (sz : Size) (v : BitVec sz.bits) : Byte :=
  match sz, v with
  | .word, v => lowByte v
  | .byte, v => v

/-- The PSW after an instruction with the condition codes `cc` has stored `d` at `a`: at 177776 PRI and T come from the
data, and N, Z, V, C as `psw_write_cc` says, or are any value when it is not given; elsewhere PRI and T are unchanged
(R34, D2). -/
def PswAfterStore (a : Word) (d : Byte) (cc : Cc) (s t : State) : Prop :=
  if a = pswAddress then
    t.psw.extractLsb' 4 4 = d.extractLsb' 4 4 ∧
    match s.inst.params.pswWriteCc with
    | some .data => t.psw.extractLsb' 0 4 = d.extractLsb' 0 4
    | some .instruction => t.cc = cc
    | none => True
  else t.cc = cc ∧ SamePriority s t

/-! ### Traps -/

/-- The stack has room for a trap and the vector can be read: the two words below SP and the two words at the vector
are plain memory, and no other master writes (R275). -/
def TrapReady (vector : Word) (s : State) : Prop :=
  s.npr = [] ∧ s.mem.wf = true ∧ plainWord s (s.reg .sp - 2) = true ∧ plainWord s (s.reg .sp - 4) = true ∧
  plainWord s vector = true ∧ plainWord s (vector + 2) = true

/-- What the trap sequence leaves (R275): PSW and PC on the stack, PC and PSW from the vector, nothing else in
memory changed, R0 to R5 kept, R13 holding the second word's address, the processor running. -/
def TrapTaken (vector : Word) (s t : State) : Prop :=
  t.reg .sp = s.reg .sp - 4 ∧
  t.memWord (s.reg .sp - 2) = zext s.psw ∧ t.memWord (s.reg .sp - 4) = s.reg .pc ∧
  SameMemoryBut [s.reg .sp - 4, s.reg .sp - 3, s.reg .sp - 2, s.reg .sp - 1] s t ∧
  t.reg .pc = t.memWord vector ∧ t.psw = lowByte (t.memWord (vector + 2)) ∧
  (∀ q, q ≠ .sp → q ≠ .pc → t.reg q = s.reg q) ∧
  t.hidden.r13 = vector + 2 ∧ t.runState = .run

/-- Everything a trap leaves alone besides: the other flags, the halt switch, the lines, the installation, and the
scratch-pad registers R14 to R16. -/
def TrapKeeps (s t : State) : Prop :=
  t.haltRequest = s.haltRequest ∧ t.power = s.power ∧ t.agenda = s.agenda ∧ t.npr = s.npr ∧ t.inst = s.inst ∧
  t.hidden.r14 = s.hidden.r14 ∧ t.hidden.r15 = s.hidden.r15 ∧ t.hidden.r16 = s.hidden.r16 ∧
  t.pending.busError = s.pending.busError ∧ t.pending.parityError = s.pending.parityError ∧
  t.pending.powerFail = s.pending.powerFail

/-- No flag is pending (R270 steps 2 to 6). -/
def NothingPending (s : State) : Prop :=
  s.pending = { busError := false, parityError := false, trace := false, stackOverflow := false, powerFail := false }

/-- A processor that HALT or a double bus error has stopped has IR cleared (R43, R240, R267). -/
def HaltedIrZero (s : State) : Prop := s.runState = .halted → s.ir = 0

/-- It is the processor's turn, and it takes it in `u`: the agenda is empty, or its next entry is the processor's and says
what NPR masters and devices do meanwhile (R260, R72, R285; logs 17, 51). -/
def TurnOf (s u : State) : Prop :=
  (s.agenda = [] ∧ u = s) ∨
  ∃ l acts rest, s.agenda = .processor l acts :: rest ∧
    u = { s with agenda := rest, npr := s.npr ++ l, deviceActs := s.deviceActs ++ acts }

/-- Nothing is waiting for a service point: no flag, and no halt request and no bus request above PRI that it sees, or a
halt request that this service point has granted already, which shuts the bus requests out (R270, R283, D10). -/
def Quiet (s : State) : Prop :=
  NothingPending s ∧
  ((s.haltRequest = false ∧ ∀ r ∈ s.enterService.requests,
      s.enterService.brLatch.holds r.level = true → r.level.num ≤ s.pri) ∨
    (s.haltRequest = true ∧ s.haltPassed = true))

/-- The vector of an abort (R263). -/
def abortVector : Abort → Word
  | .busError => 0o4
  | .parityError _ => 0o114

/-! ### Families of instructions, with what they compute -/

/-- The word instructions that read and rewrite one operand (R60, R140), each with its operation. -/
def wordModify : List ((Operand → Instr) × (Params → Cc → Word → Alu 16)) :=
  [(.com, fun _ => aluCom), (.inc, fun _ => aluInc), (.dec, fun _ => aluDec), (.neg, fun _ => aluNeg),
   (.adc, fun _ => aluAdc), (.sbc, fun p => aluSbc p.sbcVNeedsCarry), (.ror, fun _ => aluRor),
   (.rol, fun _ => aluRol), (.asr, fun _ => aluAsr), (.asl, fun _ => aluAsl), (.swab, fun _ => aluSwab)]

/-- Their byte forms; SWAB has none. -/
def byteModify : List ((Operand → Instr) × (Params → Cc → Byte → Alu 8)) :=
  [(.comb, fun _ => aluCom), (.incb, fun _ => aluInc), (.decb, fun _ => aluDec), (.negb, fun _ => aluNeg),
   (.adcb, fun _ => aluAdc), (.sbcb, fun p => aluSbc p.sbcVNeedsCarry), (.rorb, fun _ => aluRor),
   (.rolb, fun _ => aluRol), (.asrb, fun _ => aluAsr), (.aslb, fun _ => aluAsl)]

/-- The double-operand word instructions that rewrite the destination. -/
def wordCombine : List ((Operand → Operand → Instr) × (Word → Cc → Word → Alu 16)) :=
  [(.bic, aluBic), (.bis, aluBis), (.add, aluAdd), (.sub, aluSub)]

/-- The double-operand byte instructions that rewrite the destination. -/
def byteCombine : List ((Operand → Operand → Instr) × (Byte → Cc → Byte → Alu 8)) :=
  [(.bicb, aluBic), (.bisb, aluBis)]

/-- The double-operand word instructions that only set the condition codes. -/
def wordCompare : List ((Operand → Operand → Instr) × (Word → Cc → Word → Alu 16)) :=
  [(.cmp, aluCmp), (.bit, aluBit)]

/-- The double-operand byte instructions that only set the condition codes. -/
def byteCompare : List ((Operand → Operand → Instr) × (Byte → Cc → Byte → Alu 8)) :=
  [(.cmpb, aluCmp), (.bitb, aluBit)]

/-- The single-operand instructions that rewrite their operand, by size, CLR apart. -/
def singleModify : Size → List (Operand → Instr)
  | .word => wordModify.map (·.1)
  | .byte => byteModify.map (·.1)

/-- The double-operand instructions that rewrite their destination from its old value, by size. -/
def doubleModify : Size → List (Operand → Operand → Instr)
  | .word => wordCombine.map (·.1)
  | .byte => byteCombine.map (·.1)

/-- The double-operand instructions that only read, by size. -/
def doubleCompare : Size → List (Operand → Operand → Instr)
  | .word => wordCompare.map (·.1)
  | .byte => byteCompare.map (·.1)

/-- CLR or CLRB. -/
def clear : Size → Operand → Instr
  | .word => .clr
  | .byte => .clrb

/-- MOV or MOVB. -/
def move : Size → Operand → Operand → Instr
  | .word => .mov
  | .byte => .movb

/-- TST or TSTB. -/
def test : Size → Operand → Instr
  | .word => .tst
  | .byte => .tstb

/-- The branches and their conditions, as R203 tabulates them. -/
def branches : List ((Byte → Instr) × (Cc → Prop)) :=
  [(.br, fun _ => True), (.bne, fun f => f.z = false), (.beq, fun f => f.z = true),
   (.bge, fun f => f.n = f.v), (.blt, fun f => f.n ≠ f.v),
   (.bgt, fun f => f.z = false ∧ f.n = f.v), (.ble, fun f => f.z = true ∨ f.n ≠ f.v),
   (.bpl, fun f => f.n = false), (.bmi, fun f => f.n = true),
   (.bhi, fun f => f.c = false ∧ f.z = false), (.blos, fun f => f.c = true ∨ f.z = true),
   (.bvc, fun f => f.v = false), (.bvs, fun f => f.v = true),
   (.bcc, fun f => f.c = false), (.bcs, fun f => f.c = true)]

/-- The instruction is one that traps right after its fetch, through the vector (R221 to R224, R95, R96, R269). -/
def trapsThrough (i : Instr) (vector : Word) : Prop :=
  (i = .bpt ∧ vector = 0o14) ∨ (i = .iot ∧ vector = 0o20) ∨ (∃ c, i = .emt c ∧ vector = 0o30) ∨
  (∃ c, i = .trap c ∧ vector = 0o34) ∨ (∃ w, i = .reserved w ∧ vector = 0o10) ∨
  (∃ l, i = .reservedEis l ∧ vector = 0o10) ∨ (∃ r, i = .illegalJmp r ∧ vector = 0o10) ∨
  (∃ l r, i = .illegalJsr l r ∧ vector = 0o10)

/-- The words of the scratch pad with the addresses at which the console reaches them (R45). -/
def scratchPad : List (Word × (State → Word)) :=
  [(0o177700, (·.reg .r0)), (0o177701, (·.reg .r1)), (0o177702, (·.reg .r2)), (0o177703, (·.reg .r3)),
   (0o177704, (·.reg .r4)), (0o177705, (·.reg .r5)), (0o177706, (·.reg .sp)), (0o177707, (·.reg .pc)),
   (0o177710, (·.hidden.r10)), (0o177711, (·.hidden.r11)), (0o177712, (·.hidden.r12)), (0o177713, (·.hidden.r13)),
   (0o177714, (·.hidden.r14)), (0o177715, (·.hidden.r15)), (0o177716, (·.hidden.r16)), (0o177717, (·.hidden.r17))]

/-! ### How an instruction completes -/

/-- It has written one register, from the state `s1` in which its operands were read, and loaded the condition codes:
no other register, no byte of memory and no other PSW bit has changed. -/
def LoadsRegister (r : Reg) (v : Word) (cc : Cc) (s s1 t : State) : Prop :=
  (∀ q, t.reg q = if q = r then v else s1.reg q) ∧ t.cc = cc ∧ SamePriority s t ∧ SameMemory s t ∧
  t.pending.stackOverflow = s1.pending.stackOverflow ∧ Completed s t

/-- It has only loaded the condition codes: no register has changed since its operands were read, no byte of memory and
no other PSW bit. -/
def OnlyFlags (cc : Cc) (s s1 t : State) : Prop :=
  (∀ q, t.reg q = s1.reg q) ∧ t.cc = cc ∧ SamePriority s t ∧ SameMemory s t ∧
  t.pending.stackOverflow = s1.pending.stackOverflow ∧ Completed s t

/-- It has stored `v` at `a` and loaded the condition codes: the registers are as the addressing mode left them in `s1`,
but for the increment `inc` of its register. -/
def StoresResult (sz : Size) (r : Reg) (inc a : Word) (v : BitVec sz.bits) (cc : Cc) (s s1 t : State) : Prop :=
  (∀ q, t.reg q = if q = r then s1.reg r + inc else s1.reg q) ∧ Stored sz a v s t ∧
  PswAfterStore a (lowOf sz v) cc s t ∧ t.pending.stackOverflow = s1.pending.stackOverflow ∧ Completed s t

/-- It has taken the trap through `vector` from the state `after` that its completed microsteps left, in which memory is
as it was: nothing but what the trap changes has changed since (R264, R275). -/
def TrapsFrom (vector : Word) (s after : State) (i : Instr) : Prop :=
  ∃ t, exec i s = .next t ∧ TrapTaken vector after t ∧ TrapKeeps s t ∧ SameMemory s after ∧ t.ir = s.ir ∧
    t.requests = s.requests ∧ t.brLatch = s.brLatch ∧ t.haltPassed = s.haltPassed ∧
    t.pending.trace = s.pending.trace ∧
    t.pending.stackOverflow = (after.pending.stackOverflow ||
      (decide ((after.reg .sp - 2).toNat < 0o400) || decide ((after.reg .sp - 4).toNat < 0o400)))

/-- It has modified memory at `a` in one indivisible access, other masters having written what `u` shows before it, and
what `rest` says they write next still to come. -/
def ModifiedAlone (sz : Size) (r : Reg) (inc a : Word) (out : Alu sz.bits) (rest : List (List MasterWrite)) (s u : State)
    (i : Instr) : Prop :=
  ∃ t, exec i s = .next t ∧ t.npr = rest ∧ t.cc = out.cc ∧ (∀ q, t.reg q = if q = r then u.reg r + inc else u.reg q) ∧
    match sz, out with
    | .word, out => t.memWord a = out.res ∧ SameMemoryBut [a, a + 1] u t
    | .byte, out => t.memByte a = out.res ∧ SameMemoryBut [a] u t

/-- It has changed neither the PSW nor memory. -/
def OnlyRegisters (s t : State) : Prop :=
  t.psw = s.psw ∧ SameMemory s t ∧ Completed s t

end Sys2Proof.Safety
end

