-- ==== Sys2Proof/Certificates/Slice0/Obligations.lean ====
section
/-! DEFINITION. The statements for the provers. Each docstring names the rules of spec/ it formalises; OBLIGATIONS.json
lists them. -/

open Sys2Proof Sys2Proof.Config Sys2Proof.Machine Sys2Proof.Safety

/-! ### Encoding -/

/-- R82 to R90: decoding the word of a well-formed instruction gives the instruction, for every operand. -/
def Obligations.DecodeOfEncode : Prop := ∀ i : Instr, i.wf = true → decode (encode i) = i

/-- R91: every word is exactly one well-formed instruction: the one it decodes to, whose word it is, and no other has it,
so that the ranges of the instructions do not overlap and, as R90 says, leave no word out. -/
def Obligations.EncodeOfDecode : Prop :=
  ∀ w : Word, encode (decode w) = w ∧ (decode w).wf = true ∧ ∀ i : Instr, i.wf = true → encode i = w → i = decode w

/-- R90, R95, R96: the reserved and the illegal words are those of the ranges, and no other. -/
def Obligations.ReservedAndIllegalWords : Prop :=
  ∀ w : Word,
    ((decode w = .reserved w) ↔
      (0o000007 ≤ w.toNat ∧ w.toNat ≤ 0o000077) ∨ (0o000210 ≤ w.toNat ∧ w.toNat ≤ 0o000237) ∨
      (0o006400 ≤ w.toNat ∧ w.toNat ≤ 0o007777) ∨ (0o106400 ≤ w.toNat ∧ w.toNat ≤ 0o107777) ∨
      0o170000 ≤ w.toNat) ∧
    ((∃ l, decode w = .reservedEis l) ↔ 0o070000 ≤ w.toNat ∧ w.toNat ≤ 0o077777) ∧
    ((∃ r, decode w = .illegalJmp r) ↔ 0o000100 ≤ w.toNat ∧ w.toNat ≤ 0o000107) ∧
    ((∃ l r, decode w = .illegalJsr l r) ↔
      0o004000 ≤ w.toNat ∧ w.toNat ≤ 0o004777 ∧ w.toNat % 0o100 < 0o10)

/-- R95: the words with the IR CODE of an illegal instruction, 101, are 000100 to 000107, a JMP, and 004r00 to 004r07, a
JSR, each with destination mode 0, and each of them traps through vector 10. -/
def Obligations.IllegalCombinationsTrap : Prop :=
  ∀ w : Word,
    let jmpMode0 : Prop := 0o000100 ≤ w.toNat ∧ w.toNat ≤ 0o000107
    let jsrMode0 : Prop := 0o004000 ≤ w.toNat ∧ w.toNat ≤ 0o004777 ∧ w.toNat % 0o100 < 0o10
    (irCodeBits (irCode (decode w)) = 0b101 ↔ jmpMode0 ∨ jsrMode0) ∧
    (jmpMode0 ∨ jsrMode0 → ∀ s : State, TrapReady 0o10 s →
      ∃ t, exec (decode w) s = .next t ∧ t.reg .pc = t.memWord 0o10 ∧ t.psw = lowByte (t.memWord 0o12))

/-- R105 and the tables of R85 to R89: words written out from the encodings decode to what they stand for. That 000006 is
RTT is PRESUMED, the manual's row being lost (R97, log 15). -/
def Obligations.WorkedWordsDecode : Prop :=
  decode 0o022767 = .cmp (.mem .autoInc .pc) (.mem .index .pc) ∧
  decode 0o010040 = .mov (.reg .r0) (.mem .autoDec .r0) ∧
  decode 0o150037 = .bisb (.reg .r0) (.mem .autoIncDef .pc) ∧
  decode 0o005056 = .clr (.mem .autoDecDef .sp) ∧ decode 0o106237 = .asrb (.mem .autoIncDef .pc) ∧
  decode 0o004767 = .jsr .pc .index .pc ∧ decode 0o000121 = .jmp .autoInc .r1 ∧
  decode 0o000205 = .rts .r5 ∧ decode 0o103777 = .bcs 0o377 ∧ decode 0o000253 = .clcc 0o13 ∧
  decode 0o000274 = .secc 0o14 ∧ decode 0o104405 = .trap 0o5 ∧ decode 0o104377 = .emt 0o377 ∧
  decode 0o000006 = .rtt ∧ decode 0o000005 = .reset ∧ decode 0o000311 = .swab (.mem .deferred .r1)

/-! ### The step -/

/-- R80, R81, R26, R74: with nothing to service, the step executes the instruction whose word stands in memory at PC, PC
moved past the word, and IR and B holding it. The service point, which latched the bus requests on its entry unless a
continue resumed it (R285; log 49), is left behind (log 43); what devices do to their request lines meanwhile is done (log
51). When it is the processor's turn the step is that turn, in the state in which the agenda has it taken (R260, log 17).
That IR is not looked at in RUN, where it can still be 000000 after a continue, is the model's choice (log 48). -/
def Obligations.StepRunsDecodedInstruction : Prop :=
  (∀ s₀ s : State, TurnOf s₀ s → step s₀ = processorTurn s) ∧
  ∀ (s₀ s : State) (i : Instr), TurnOf s₀ s → s.npr = [] → s.runState = .run → Quiet s →
    plainWord s (s.reg .pc) = true → i.wf = true →
    decodeBytes [s.memByte (s.reg .pc), s.memByte (s.reg .pc + 1)] = .ok (i, []) →
    step s₀ = exec i (((({ s.enterService with haltPassed := false }).setHidden
      { s.hidden with b := s.memWord (s.reg .pc) }).setIr (s.memWord (s.reg .pc))).bump .pc 2)

/-- R62, R124, R265, R268: a fetch from an odd address, from an address where nothing answers, or of a word with bad
parity takes the bus error or parity trap, which saves the PC unincremented; the word with the bad parity is left in IR. That
IR is not looked at in RUN, where it can still be 000000 after a continue, is the model's choice (log 48). -/
def Obligations.FailedFetchTraps : Prop :=
  ∀ s₀ s : State, TurnOf s₀ s → s.runState = .run → Quiet s →
    ((isOdd (s.reg .pc) = true ∨
        (internalAddress (s.reg .pc).toNat = false ∧ answer s.inst .dati (evenAddr (s.reg .pc)) = none)) →
      TrapReady 0o4 s → ∃ t, step s₀ = .next t ∧ TrapTaken 0o4 s t ∧ TrapKeeps s t ∧
        t.requests = s.enterService.requests) ∧
    (isOdd (s.reg .pc) = false → internalAddress (s.reg .pc).toNat = false →
      (answer s.inst .dati (s.reg .pc)).isSome = true → badParity s.inst (s.reg .pc) = true →
      TrapReady 0o114 s → ∃ t, step s₀ = .next t ∧ TrapTaken 0o114 s t ∧ TrapKeeps s t ∧
        t.requests = s.enterService.requests ∧
        (answer s.inst .dati (s.reg .pc) = some .memory → t.ir = s.memWord (s.reg .pc)))

/-! ### The bus -/

/-- R56, R61, R64, R33, R66, R76, R268: what a word read gives, address by address; a device answers some word (log 19). A
parity error carries the word that was answered. That the byte above the PSW reads zero is the spec's decision D1 (log
10). -/
def Obligations.WordReads : Prop :=
  ∀ (s : State) (k : Transfer) (a : Word), s.npr = [] →
    (isOdd a = true → readWord k a s = .abort .busError s) ∧
    (a = pswAddress → readWord k a s = .ok (zext s.psw) s) ∧
    (isOdd a = false → isRegisterAddress a = true → readWord k a s = .ok 0 s) ∧
    (isOdd a = false → internalAddress a.toNat = false →
      (answer s.inst k a = none → readWord k a s = .abort .busError s) ∧
      (answer s.inst k a = some .memory → badParity s.inst a = true →
        readWord k a s = .abort (.parityError (s.memWord a)) s) ∧
      (answer s.inst k a = some .device → badParity s.inst a = true →
        ∃ w, readWord k a s = .abort (.parityError w) (s.useFree 1)) ∧
      (answer s.inst k a = some .memory → badParity s.inst a = false → readWord k a s = .ok (s.memWord a) s) ∧
      (answer s.inst k a = some .device → badParity s.inst a = false → ∃ w, readWord k a s = .ok w (s.useFree 1)))

/-- R57, R35, R66, R64, R76, R268: a byte read is allowed at an odd address, and gives the byte there; no answer and bad
parity raise as for a word, and a device answers some byte (log 19). That the byte above the PSW reads zero is the spec's
decision D1 (logs 10, 30); that answer and parity are those of the even address is DEDUCED (log 29). -/
def Obligations.ByteReads : Prop :=
  ∀ (s : State) (k : Transfer) (a : Word), s.npr = [] →
    (a = 0o177776 → readByte k a s = .ok s.psw s) ∧ (a = 0o177777 → readByte k a s = .ok 0 s) ∧
    (isRegisterAddress a = true → readByte k a s = .ok 0 s) ∧
    (internalAddress a.toNat = false →
      (answer s.inst k (evenAddr a) = none → readByte k a s = .abort .busError s) ∧
      (answer s.inst k (evenAddr a) = some .memory → badParity s.inst (evenAddr a) = true →
        readByte k a s = .abort (.parityError (s.memWord (evenAddr a))) s) ∧
      (answer s.inst k (evenAddr a) = some .device → badParity s.inst (evenAddr a) = true →
        ∃ w, readByte k a s = .abort (.parityError w) (s.useFree 1)) ∧
      (answer s.inst k (evenAddr a) = some .memory → badParity s.inst (evenAddr a) = false →
        readByte k a s = .ok (s.memByte a) s) ∧
      (answer s.inst k (evenAddr a) = some .device → badParity s.inst (evenAddr a) = false →
        ∃ b, readByte k a s = .ok b (s.useFree 1)))

/-- R58, R61, R64, R66, R34: what a word write leaves: the word where memory answers, the PSW at its address, nothing at
a register address; nothing at all when it is odd or not answered. -/
def Obligations.WordWrites : Prop :=
  ∀ (s : State) (a v : Word), s.npr = [] →
    (isOdd a = true → writeWord a v s = .abort .busError s) ∧
    (answersWrite .word s a = false → writeWord a v s = .abort .busError s) ∧
    (isOdd a = false → answersWrite .word s a = true →
      ∃ t, writeWord a v s = .ok () t ∧ Stored .word a v s t ∧ PswAfterStore a (lowByte v) s.cc s t ∧
        (∀ q, t.reg q = s.reg q) ∧ t.pending = s.pending ∧ SameControl s t)

/-- R58, R64, R66, R35: what a byte write leaves: the one byte, at an odd address too. That 177777 stores nothing is the
spec's decision D1 (log 30); that the answer is that of the even address is DEDUCED (log 29). -/
def Obligations.ByteWrites : Prop :=
  ∀ (s : State) (a : Word) (v : Byte), s.npr = [] →
    (answersWrite .byte s a = false → writeByte a v s = .abort .busError s) ∧
    (answersWrite .byte s a = true →
      ∃ t, writeByte a v s = .ok () t ∧ Stored .byte a v s t ∧ PswAfterStore a v s.cc s t ∧
        (∀ q, t.reg q = s.reg q) ∧ t.pending = s.pending ∧ SameControl s t)

/-- R72, R73, R59: every modifying instruction with a memory destination, word and byte: what other masters write before
its read half it sees, and nothing of theirs comes between the halves: what they have to write next waits until the write
half is done. The destination is plain memory; that the schedule of the masters is State.npr is the model's form (log 17),
and so is that C is the one that they left, where they have written 177776 (log 50). -/
def Obligations.ModifyIsIndivisible : Prop :=
  ∀ (s s1 : State) (m : MemMode) (r : Reg) (ea inc : Word) (l : List MasterWrite) (rest : List (List MasterWrite)),
    s1.npr = l :: rest → s1.mem.wf = true →
    let u := masterWrites l { s1 with npr := rest }
    (eaOf m r .word s.useScratch = .ok (ea, inc) s1 → plainWord s1 ea = true →
      (∀ p ∈ wordModify,
        ModifiedAlone .word r inc ea (p.2 s.inst.params u.cc (u.memWord ea)) rest s u (p.1 (.mem m r))) ∧
      (s.inst.params.movClrReadBeforeWrite = true →
        ModifiedAlone .word r inc ea (aluClr u.cc) rest s u (.clr (.mem m r)))) ∧
    (eaOf m r .byte s.useScratch = .ok (ea, inc) s1 → plainMemory s1 ea = true →
      (∀ p ∈ byteModify,
        ModifiedAlone .byte r inc ea (p.2 s.inst.params u.cc (u.memByte ea)) rest s u (p.1 (.mem m r))) ∧
      (s.inst.params.movClrReadBeforeWrite = true →
        ModifiedAlone .byte r inc ea (aluClr u.cc) rest s u (.clrb (.mem m r)))) ∧
    (∀ (src : Operand) (a : Word) (s0 : State), readSource .word src s.useScratch = .ok a s0 →
      eaOf m r .word s0 = .ok (ea, inc) s1 → plainWord s1 ea = true →
      (∀ p ∈ wordCombine,
        ModifiedAlone .word r inc ea (p.2 a u.cc (u.memWord ea)) rest s u (p.1 src (.mem m r))) ∧
      (s.inst.params.movClrReadBeforeWrite = true →
        ModifiedAlone .word r inc ea (aluMov a u.cc) rest s u (.mov src (.mem m r)))) ∧
    (∀ (src : Operand) (a : Byte) (s0 : State), readSource .byte src s.useScratch = .ok a s0 →
      eaOf m r .byte s0 = .ok (ea, inc) s1 → plainMemory s1 ea = true →
      (∀ p ∈ byteCombine,
        ModifiedAlone .byte r inc ea (p.2 a u.cc (u.memByte ea)) rest s u (p.1 src (.mem m r))) ∧
      (s.inst.params.movClrReadBeforeWrite = true →
        ModifiedAlone .byte r inc ea (aluMov a u.cc) rest s u (.movb src (.mem m r))))

/-! ### Operands -/

/-- R113 to R120, R123, R271: the effective address of each mode in memory, what it does to its register and to PC, and
the stack limit check of modes 4 and 5 on R6; the pointer and index words standing in plain memory. -/
def Obligations.EffectiveAddresses : Prop :=
  ∀ (s : State) (r : Reg) (sz : Size), s.npr = [] →
    let d : Word := if sz = .word ∨ r = .sp ∨ r = .pc then 2 else 1
    let moved (v : Word) : State := (s.setReg r v).setPending { s.pending with
      stackOverflow := s.pending.stackOverflow || (decide (r = .sp) && decide (v.toNat < 0o400)) }
    let x : Word := s.memWord (s.reg .pc)
    let sum : Word := if r = .pc then x + (s.reg .pc + 2) else x + s.reg r
    eaOf .deferred r sz s = .ok (s.reg r, 0) s ∧
    eaOf .autoInc r sz s = .ok (s.reg r, d) s ∧
    eaOf .autoDec r sz s = .ok (s.reg r - d, 0) (moved (s.reg r - d)) ∧
    (plainWord s (s.reg r) = true →
      eaOf .autoIncDef r sz s = .ok (s.memWord (s.reg r), 0) (s.setReg r (s.reg r + 2))) ∧
    (plainWord s (s.reg r - 2) = true →
      eaOf .autoDecDef r sz s = .ok (s.memWord (s.reg r - 2), 0) (moved (s.reg r - 2))) ∧
    (plainWord s (s.reg .pc) = true →
      eaOf .index r sz s = .ok (sum, 0) (s.setReg .pc (s.reg .pc + 2)) ∧
      (plainWord s sum = true → eaOf .indexDef r sz s = .ok (s.memWord sum, 0) (s.setReg .pc (s.reg .pc + 2))))

/-- R124, D3: the registers that an operand leaves when one of its reads raises: mode 2 unincremented, mode 5 decremented,
PC not past an index word that could not be read but past one that could, mode 3 as `mode3_abort_incremented` says; when
the access of the operand itself raises, as the effective address left them, which EffectiveAddresses gives for every
mode; and nothing is undone where a source or a destination is made of it. -/
def Obligations.AbortedAddressing : Prop :=
  ∀ (s : State) (r : Reg) (sz : Size) (c : Abort) (t : State), s.npr = [] →
    (readMem sz .dati (s.reg r) s = .abort c t →
      readOperand sz (.mem .autoInc r) s = .abort c t ∧ ∀ q, t.reg q = s.reg q) ∧
    (readWord .dati (s.reg .pc) s = .abort c t →
      eaOf .index r sz s = .abort c t ∧ eaOf .indexDef r sz s = .abort c t ∧ ∀ q, t.reg q = s.reg q) ∧
    (readWord .dati (s.reg r) s = .abort c t →
      (∀ q, t.reg q = s.reg q) ∧
      (s.inst.params.mode3AbortIncremented = some true →
        eaOf .autoIncDef r sz s = .abort c (t.setReg r (s.reg r + 2))) ∧
      (s.inst.params.mode3AbortIncremented = some false → eaOf .autoIncDef r sz s = .abort c t) ∧
      (s.inst.params.mode3AbortIncremented = none →
        eaOf .autoIncDef r sz s = .abort c (t.useFree 1) ∨
        eaOf .autoIncDef r sz s = .abort c ((t.setReg r (s.reg r + 2)).useFree 1))) ∧
    (readWord .dati (s.reg r - 2) (s.decrement r 2) = .abort c t →
      eaOf .autoDecDef r sz s = .abort c t ∧ t.reg r = s.reg r - 2) ∧
    (∀ x u, readWord .dati (s.reg .pc) s = .ok x u →
      readWord .dati (x + (u.setReg .pc (s.reg .pc + 2)).reg r) (u.setReg .pc (s.reg .pc + 2)) = .abort c t →
      eaOf .indexDef r sz s = .abort c t ∧ t.reg .pc = s.reg .pc + 2) ∧
    (∀ m ea inc s1, eaOf m r sz s = .ok (ea, inc) s1 → readMem sz .dati ea s1 = .abort c t →
      readOperand sz (.mem m r) s = .abort c t ∧ (∀ q, t.reg q = s1.reg q) ∧
      t.pending.stackOverflow = s1.pending.stackOverflow) ∧
    (∀ m, eaOf m r sz s = .abort c t → readOperand sz (.mem m r) s = .abort c t) ∧
    (∀ o, readOperand sz o s = .abort c t → readSource sz o s = .abort c t)

/-- R112, R130, R180: the value of an operand that is read: the register, or its low byte, or what is read at the
effective address, after which the register moves; the source is saved in R11, of a byte its low half; what the high half
then holds is the model's choice (log 6). -/
def Obligations.OperandValues : Prop :=
  ∀ (s : State) (r : Reg) (sz : Size) (m : MemMode),
    readOperand .word (.reg r) s = .ok (s.reg r) s ∧
    readOperand .byte (.reg r) s = .ok (lowByte (s.reg r)) s ∧
    (∀ ea inc s1 v s2, eaOf m r sz s = .ok (ea, inc) s1 → readMem sz .dati ea s1 = .ok v s2 →
      readOperand sz (.mem m r) s = .ok v (s2.setReg r (s2.reg r + inc))) ∧
    (∀ o v s1, readOperand .word o s = .ok v s1 →
      readSource .word o s = .ok v (s1.setHidden { s1.hidden with r11 := v })) ∧
    (∀ o v s1, readOperand .byte o s = .ok v s1 →
      ∃ h : Word, lowByte h = v ∧ readSource .byte o s = .ok v (s1.setHidden { s1.hidden with r11 := h }))

/-! ### Results and condition codes -/

/-- R191, R192, R183, R184: addition, subtraction and comparison, word and byte: the result modulo 2^W, C the carry or
the borrow, V whether the signed result does not fit, N and Z from the result. -/
def Obligations.AddSubtractCompareFlags : Prop :=
  ∀ (sz : Size) (f : Cc) (src dst : BitVec sz.bits),
    (let a := aluAdd src f dst
     a.res = src + dst ∧ (a.cc.c = true ↔ 2 ^ sz.bits ≤ src.toNat + dst.toNat) ∧
     (a.cc.v = true ↔ a.res.toInt ≠ src.toInt + dst.toInt) ∧
     a.cc.n = decide (a.res.toInt < 0) ∧ a.cc.z = decide (a.res = 0)) ∧
    (let a := aluSub src f dst
     a.res = dst - src ∧ (a.cc.c = true ↔ dst.toNat < src.toNat) ∧
     (a.cc.v = true ↔ a.res.toInt ≠ dst.toInt - src.toInt) ∧
     a.cc.n = decide (a.res.toInt < 0) ∧ a.cc.z = decide (a.res = 0)) ∧
    (let a := aluCmp src f dst
     a.res = src - dst ∧ (a.cc.c = true ↔ src.toNat < dst.toNat) ∧
     (a.cc.v = true ↔ a.res.toInt ≠ src.toInt - dst.toInt) ∧
     a.cc.n = decide (a.res.toInt < 0) ∧ a.cc.z = decide (a.res = 0))

/-- R147 to R156: INC, DEC, NEG, ADC and SBC, word and byte: V says that the signed result does not fit, C is the carry
or the borrow where the instruction has one, and SBC's V is as the manual prints it unless `sbc_v_needs_carry`. -/
def Obligations.StepNegateCarryFlags : Prop :=
  ∀ (sz : Size) (f : Cc) (old : BitVec sz.bits) (needs : Bool),
    let k : Nat := if f.c then 1 else 0
    (let a := aluInc f old
     a.res = old + 1 ∧ (a.cc.v = true ↔ a.res.toInt ≠ old.toInt + 1) ∧ a.cc.c = f.c ∧
     a.cc.n = decide (a.res.toInt < 0) ∧ a.cc.z = decide (a.res = 0)) ∧
    (let a := aluDec f old
     a.res = old - 1 ∧ (a.cc.v = true ↔ a.res.toInt ≠ old.toInt - 1) ∧ a.cc.c = f.c ∧
     a.cc.n = decide (a.res.toInt < 0) ∧ a.cc.z = decide (a.res = 0)) ∧
    (let a := aluNeg f old
     a.res = 0 - old ∧ (a.cc.v = true ↔ a.res.toInt ≠ -old.toInt) ∧ (a.cc.c = true ↔ a.res ≠ 0) ∧
     a.cc.n = decide (a.res.toInt < 0) ∧ a.cc.z = decide (a.res = 0)) ∧
    (let a := aluAdc f old
     a.res.toNat = (old.toNat + k) % 2 ^ sz.bits ∧ (a.cc.v = true ↔ a.res.toInt ≠ old.toInt + k) ∧
     (a.cc.c = true ↔ 2 ^ sz.bits ≤ old.toNat + k) ∧
     a.cc.n = decide (a.res.toInt < 0) ∧ a.cc.z = decide (a.res = 0)) ∧
    (let a := aluSbc needs f old
     a.res.toNat = (old.toNat + (2 ^ sz.bits - k)) % 2 ^ sz.bits ∧ (a.cc.c = true ↔ old.toNat < k) ∧
     (a.cc.v = true ↔ old.toNat = 2 ^ (sz.bits - 1) ∧ (needs = true → f.c = true)) ∧
     a.cc.n = decide (a.res.toInt < 0) ∧ a.cc.z = decide (a.res = 0))

/-- R143 to R146, R157, R158, R181, R182, R185 to R190: clearing, complementing, testing, moving and the logical
operations, word and byte, bit by bit. -/
def Obligations.LogicalResults : Prop :=
  ∀ (sz : Size) (f : Cc) (src dst : BitVec sz.bits),
    (∀ a ∈ [aluCom f dst, aluTst f dst, aluMov src f, aluBit src f dst, aluBic src f dst, aluBis src f dst],
      a.cc.n = decide (a.res.toInt < 0) ∧ a.cc.z = decide (a.res = 0) ∧ a.cc.v = false) ∧
    (aluClr f : Alu sz.bits).res = 0 ∧
    (aluClr f : Alu sz.bits).cc = { n := false, z := true, v := false, c := false } ∧
    (aluCom f dst).cc.c = true ∧ (aluTst f dst).cc.c = false ∧ (aluMov src f).cc.c = f.c ∧
    (aluBit src f dst).cc.c = f.c ∧ (aluBic src f dst).cc.c = f.c ∧ (aluBis src f dst).cc.c = f.c ∧
    (aluTst f dst).res = dst ∧ (aluMov src f).res = src ∧
    ∀ i, i < sz.bits →
      (aluCom f dst).res.getLsbD i = !dst.getLsbD i ∧
      (aluBit src f dst).res.getLsbD i = (src.getLsbD i && dst.getLsbD i) ∧
      (aluBic src f dst).res.getLsbD i = (!src.getLsbD i && dst.getLsbD i) ∧
      (aluBis src f dst).res.getLsbD i = (src.getLsbD i || dst.getLsbD i)

/-- R159 to R167: the rotates and shifts, word and byte, bit by bit: C is the bit shifted out, V the exclusive OR of the
new N and C. R169: SWAB exchanges the two bytes; the condition codes describe the new low byte, V and C are cleared. -/
def Obligations.ShiftAndSwapResults : Prop :=
  (∀ (f : Cc) (old : Word),
    lowByte (aluSwab f old).res = highByte old ∧ highByte (aluSwab f old).res = lowByte old ∧
    (aluSwab f old).cc = { n := old.getLsbD 15, z := decide (old.toNat < 0o400), v := false, c := false }) ∧
  ∀ (sz : Size) (f : Cc) (old : BitVec sz.bits),
    (∀ a ∈ [aluRor f old, aluRol f old, aluAsr f old, aluAsl f old],
      a.cc.n = a.res.msb ∧ a.cc.z = decide (a.res = 0) ∧ a.cc.v = xor a.cc.n a.cc.c) ∧
    (aluRor f old).cc.c = old.getLsbD 0 ∧ (aluAsr f old).cc.c = old.getLsbD 0 ∧
    (aluRol f old).cc.c = old.msb ∧ (aluAsl f old).cc.c = old.msb ∧
    ∀ i, i < sz.bits →
      (aluRor f old).res.getLsbD i = (if i + 1 = sz.bits then f.c else old.getLsbD (i + 1)) ∧
      (aluAsr f old).res.getLsbD i = (if i + 1 = sz.bits then old.msb else old.getLsbD (i + 1)) ∧
      (aluRol f old).res.getLsbD i = (if i = 0 then f.c else old.getLsbD (i - 1)) ∧
      (aluAsl f old).res.getLsbD i = (if i = 0 then false else old.getLsbD (i - 1))

/-! ### Single-operand instructions -/

/-- R140, R141, R143 to R169: COM, INC, DEC, NEG, ADC, SBC, ROR, ROL, ASR, ASL and SWAB of a register: the register
receives the result, and nothing else changes but the condition codes. -/
def Obligations.WordModifyRegister : Prop :=
  ∀ p ∈ wordModify, ∀ (r : Reg) (s : State),
    let out := p.2 s.inst.params s.cc (s.reg r)
    ∃ t, exec (p.1 (.reg r)) s = .next t ∧ LoadsRegister r out.res out.cc s s t

/-- R140, R24, R170: the byte forms of a register: its low byte receives the result, its high byte stays. -/
def Obligations.ByteModifyRegister : Prop :=
  ∀ p ∈ byteModify, ∀ (r : Reg) (s : State),
    let out := p.2 s.inst.params s.cc (lowByte (s.reg r))
    ∃ t, exec (p.1 (.reg r)) s = .next t ∧ LoadsRegister r (highByte (s.reg r) ++ out.res) out.cc s s t

/-- R140, R59, R128: the same instructions with a destination in memory, wherever the read half gives a word and the
write is answered: memory, a device, the PSW's address or a register address. The result is stored at the effective
address and nowhere else. -/
def Obligations.WordModifyMemory : Prop :=
  ∀ p ∈ wordModify, ∀ (m : MemMode) (r : Reg) (s : State) (ea inc : Word) (s1 : State) (old : Word) (s2 : State),
    s.npr = [] → eaOf m r .word s.useScratch = .ok (ea, inc) s1 → readWord .datip ea s1 = .ok old s2 →
    answersWrite .word s ea = true →
    let out := p.2 s.inst.params s.cc old
    ∃ t, exec (p.1 (.mem m r)) s = .next t ∧ StoresResult .word r inc ea out.res out.cc s s1 t

/-- R140, R127, R58: the byte forms with a destination in memory, at odd addresses too: the other byte of the word is
untouched. -/
def Obligations.ByteModifyMemory : Prop :=
  ∀ p ∈ byteModify, ∀ (m : MemMode) (r : Reg) (s : State) (ea inc : Word) (s1 : State) (old : Byte) (s2 : State),
    s.npr = [] → eaOf m r .byte s.useScratch = .ok (ea, inc) s1 → readByte .datip ea s1 = .ok old s2 →
    answersWrite .byte s ea = true →
    let out := p.2 s.inst.params s.cc old
    ∃ t, exec (p.1 (.mem m r)) s = .next t ∧ StoresResult .byte r inc ea out.res out.cc s s1 t

/-- R143, R144, R60: CLR and CLRB, of a register and of memory; with `mov_clr_read_before_write` the old value must be
readable, without it the zero is written unread. -/
def Obligations.ClearOperand : Prop :=
  ∀ (s : State) (r : Reg),
    let cc : Cc := { n := false, z := true, v := false, c := false }
    (∃ t, exec (.clr (.reg r)) s = .next t ∧ LoadsRegister r 0 cc s s t) ∧
    (∃ t, exec (.clrb (.reg r)) s = .next t ∧ LoadsRegister r (highByte (s.reg r) ++ (0 : Byte)) cc s s t) ∧
    ∀ (m : MemMode) (ea inc : Word) (s1 : State), s.npr = [] →
      (eaOf m r .word s.useScratch = .ok (ea, inc) s1 →
        (s.inst.params.movClrReadBeforeWrite = true → ∃ old s2, readWord .datip ea s1 = .ok old s2) →
        isOdd ea = false → answersWrite .word s ea = true →
        ∃ t, exec (.clr (.mem m r)) s = .next t ∧ StoresResult .word r inc ea (0 : Word) cc s s1 t) ∧
      (eaOf m r .byte s.useScratch = .ok (ea, inc) s1 →
        (s.inst.params.movClrReadBeforeWrite = true → ∃ old s2, readByte .datip ea s1 = .ok old s2) →
        answersWrite .byte s ea = true →
        ∃ t, exec (.clrb (.mem m r)) s = .next t ∧ StoresResult .byte r inc ea (0 : Byte) cc s s1 t)

/-- R157, R158: TST and TSTB of any operand that can be read: N and Z from the value, V and C cleared, nothing written. -/
def Obligations.TestOperand : Prop :=
  ∀ (s : State) (o : Operand) (s1 : State), s.npr = [] →
    (∀ v : Word, readOperand .word o s.useScratch = .ok v s1 →
      ∃ t, exec (.tst o) s = .next t ∧
        OnlyFlags { n := decide (v.toInt < 0), z := decide (v = 0), v := false, c := false } s s1 t) ∧
    (∀ v : Byte, readOperand .byte o s.useScratch = .ok v s1 →
      ∃ t, exec (.tstb o) s = .next t ∧
        OnlyFlags { n := decide (v.toInt < 0), z := decide (v = 0), v := false, c := false } s s1 t)

/-! ### Double-operand instructions -/

/-- R183 to R186: CMP, CMPB, BIT and BITB of any operands that can be read, the source first: only the condition codes
change, from the source and then the destination. -/
def Obligations.CompareOperands : Prop :=
  ∀ (src dst : Operand) (s s1 s2 : State), s.npr = [] →
    (∀ p ∈ wordCompare, ∀ a b : Word, readSource .word src s.useScratch = .ok a s1 →
      readOperand .word dst s1 = .ok b s2 →
      ∃ t, exec (p.1 src dst) s = .next t ∧ OnlyFlags (p.2 a s.cc b).cc s s2 t) ∧
    (∀ p ∈ byteCompare, ∀ a b : Byte, readSource .byte src s.useScratch = .ok a s1 →
      readOperand .byte dst s1 = .ok b s2 →
      ∃ t, exec (p.1 src dst) s = .next t ∧ OnlyFlags (p.2 a s.cc b).cc s s2 t)

/-- R187 to R192, R125: BIC, BIS, ADD, SUB, BICB and BISB with a register destination: the source is read, then the
register as the source's addressing mode left it. -/
def Obligations.CombineRegister : Prop :=
  ∀ (src : Operand) (r : Reg) (s s1 : State), s.npr = [] →
    (∀ p ∈ wordCombine, ∀ a : Word, readSource .word src s.useScratch = .ok a s1 →
      let out := p.2 a s.cc (s1.reg r)
      ∃ t, exec (p.1 src (.reg r)) s = .next t ∧ LoadsRegister r out.res out.cc s s1 t) ∧
    (∀ p ∈ byteCombine, ∀ a : Byte, readSource .byte src s.useScratch = .ok a s1 →
      let out := p.2 a s.cc (lowByte (s1.reg r))
      ∃ t, exec (p.1 src (.reg r)) s = .next t ∧ LoadsRegister r (highByte (s1.reg r) ++ out.res) out.cc s s1 t)

/-- R187 to R192, R111, R59: the same with a destination in memory, whose address is computed after the source is read:
the result is stored there and nowhere else. -/
def Obligations.CombineMemory : Prop :=
  ∀ (src : Operand) (m : MemMode) (r : Reg) (s s1 : State) (ea inc : Word) (s2 s3 : State), s.npr = [] →
    (∀ p ∈ wordCombine, ∀ a b : Word, readSource .word src s.useScratch = .ok a s1 →
      eaOf m r .word s1 = .ok (ea, inc) s2 → readWord .datip ea s2 = .ok b s3 → answersWrite .word s ea = true →
      let out := p.2 a s.cc b
      ∃ t, exec (p.1 src (.mem m r)) s = .next t ∧ StoresResult .word r inc ea out.res out.cc s s2 t) ∧
    (∀ p ∈ byteCombine, ∀ a b : Byte, readSource .byte src s.useScratch = .ok a s1 →
      eaOf m r .byte s1 = .ok (ea, inc) s2 → readByte .datip ea s2 = .ok b s3 → answersWrite .byte s ea = true →
      let out := p.2 a s.cc b
      ∃ t, exec (p.1 src (.mem m r)) s = .next t ∧ StoresResult .byte r inc ea out.res out.cc s s2 t)

/-- R181, R182: MOV and MOVB with a register destination: MOV loads the word, MOVB all sixteen bits, the byte extended by
its sign; C is not affected. -/
def Obligations.MoveRegister : Prop :=
  ∀ (src : Operand) (r : Reg) (s s1 : State), s.npr = [] →
    (∀ a : Word, readSource .word src s.useScratch = .ok a s1 →
      ∃ t, exec (.mov src (.reg r)) s = .next t ∧
        LoadsRegister r a { n := decide (a.toInt < 0), z := decide (a = 0), v := false, c := s.cc.c } s s1 t) ∧
    (∀ a : Byte, readSource .byte src s.useScratch = .ok a s1 →
      ∃ t, exec (.movb src (.reg r)) s = .next t ∧
        LoadsRegister r (BitVec.ofInt 16 a.toInt)
          { n := decide (a.toInt < 0), z := decide (a = 0), v := false, c := s.cc.c } s s1 t)

/-- R181, R182, R60: MOV and MOVB with a destination in memory; with `mov_clr_read_before_write` the old value must be
readable. -/
def Obligations.MoveMemory : Prop :=
  ∀ (src : Operand) (m : MemMode) (r : Reg) (s s1 : State) (ea inc : Word) (s2 : State), s.npr = [] →
    (∀ a : Word, readSource .word src s.useScratch = .ok a s1 → eaOf m r .word s1 = .ok (ea, inc) s2 →
      (s.inst.params.movClrReadBeforeWrite = true → ∃ old s3, readWord .datip ea s2 = .ok old s3) →
      isOdd ea = false → answersWrite .word s ea = true →
      ∃ t, exec (.mov src (.mem m r)) s = .next t ∧
        StoresResult .word r inc ea a
          { n := decide (a.toInt < 0), z := decide (a = 0), v := false, c := s.cc.c } s s2 t) ∧
    (∀ a : Byte, readSource .byte src s.useScratch = .ok a s1 → eaOf m r .byte s1 = .ok (ea, inc) s2 →
      (s.inst.params.movClrReadBeforeWrite = true → ∃ old s3, readByte .datip ea s2 = .ok old s3) →
      answersWrite .byte s ea = true →
      ∃ t, exec (.movb src (.mem m r)) s = .next t ∧
        StoresResult .byte r inc ea a
          { n := decide (a.toInt < 0), z := decide (a = 0), v := false, c := s.cc.c } s s2 t)

/-! ### Aborts of operand accesses -/

/-- R264, R265, R268, R142, R195, R60: an instruction whose operand read raises changes no condition code and no memory,
and takes the trap of the abort, from the registers as they then are, word and byte: where the operand of TST; the
address or the read half of a destination, CLR and MOV among them; a source; the second operand of a comparison; or the
address of JMP and JSR raises. -/
def Obligations.AbortedReadTraps : Prop :=
  ∀ (sz : Size) (s s1 : State) (c : Abort), s.npr = [] → s.pending.busError = false →
    s.pending.parityError = false → TrapReady (abortVector c) s1 →
    let traps (i : Instr) : Prop := TrapsFrom (abortVector c) s s1 i ∧ s1.psw = s.psw
    (∀ o, readOperand sz o s.useScratch = .abort c s1 → traps (test sz o)) ∧
    (∀ mk ∈ clear sz :: singleModify sz, ∀ m r, eaOf m r sz s.useScratch = .abort c s1 → traps (mk (.mem m r))) ∧
    (∀ m r ea inc s0, eaOf m r sz s.useScratch = .ok (ea, inc) s0 → readMem sz .datip ea s0 = .abort c s1 →
      (∀ mk ∈ singleModify sz, traps (mk (.mem m r))) ∧
      (s.inst.params.movClrReadBeforeWrite = true → traps (clear sz (.mem m r)))) ∧
    (∀ mk ∈ move sz :: doubleModify sz ++ doubleCompare sz, ∀ src dst,
      readSource sz src s.useScratch = .abort c s1 → traps (mk src dst)) ∧
    (∀ src a s00, readSource sz src s.useScratch = .ok a s00 →
      (∀ mk ∈ doubleCompare sz, ∀ dst, readOperand sz dst s00 = .abort c s1 → traps (mk src dst)) ∧
      (∀ mk ∈ move sz :: doubleModify sz, ∀ m r, eaOf m r sz s00 = .abort c s1 → traps (mk src (.mem m r))) ∧
      (∀ m r ea inc s0, eaOf m r sz s00 = .ok (ea, inc) s0 → readMem sz .datip ea s0 = .abort c s1 →
        (∀ mk ∈ doubleModify sz, traps (mk src (.mem m r))) ∧
        (s.inst.params.movClrReadBeforeWrite = true → traps (move sz src (.mem m r))))) ∧
    (∀ m r, eaOf m r .word s.useScratch = .abort c s1 →
      traps (.jmp m r) ∧ ∀ link, traps (.jsr link m r))

/-- R264, D4: when only the write half of a modifying instruction is not answered, word and byte, the trap saves the new
condition codes, with the register of mode 2 moved (DEDUCED, log 27), and memory keeps its value; so does the plain write
of MOV and CLR under `mov_clr_read_before_write` false, the register of mode 2 unmoved (log 28). R218, R267: when JSR's
push is odd or not answered, R6 stays decremented and the other registers are as the address left them; where the trap's
own push fails too, the processor halts. -/
def Obligations.AbortedWriteHalfTraps : Prop :=
  ∀ (m : MemMode) (r : Reg) (s : State) (ea inc : Word) (s1 : State),
    s.npr = [] → s.pending.busError = false →
    let moved (cc : Cc) : State := (s1.setReg r (s1.reg r + inc)).setCc cc
    let traps (after : State) (i : Instr) : Prop := TrapReady 0o4 after → TrapsFrom 0o4 s after i
    (eaOf m r .word s.useScratch = .ok (ea, inc) s1 →
      (answersWrite .word s ea = false → ∀ old s2, readWord .datip ea s1 = .ok old s2 →
        (∀ p ∈ wordModify, traps (moved (p.2 s.inst.params s.cc old).cc) (p.1 (.mem m r))) ∧
        (s.inst.params.movClrReadBeforeWrite = true →
          traps (moved (aluClr s.cc : Alu 16).cc) (.clr (.mem m r)))) ∧
      (s.inst.params.movClrReadBeforeWrite = false → isOdd ea = true ∨ answersWrite .word s ea = false →
        traps (s1.setCc (aluClr s.cc : Alu 16).cc) (.clr (.mem m r)))) ∧
    (eaOf m r .byte s.useScratch = .ok (ea, inc) s1 → answersWrite .byte s ea = false →
      (∀ old s2, readByte .datip ea s1 = .ok old s2 →
        (∀ p ∈ byteModify, traps (moved (p.2 s.inst.params s.cc old).cc) (p.1 (.mem m r))) ∧
        (s.inst.params.movClrReadBeforeWrite = true →
          traps (moved (aluClr s.cc : Alu 8).cc) (.clrb (.mem m r)))) ∧
      (s.inst.params.movClrReadBeforeWrite = false → traps (s1.setCc (aluClr s.cc : Alu 8).cc) (.clrb (.mem m r)))) ∧
    (∀ src (a : Word) s0, readSource .word src s.useScratch = .ok a s0 → eaOf m r .word s0 = .ok (ea, inc) s1 →
      (answersWrite .word s ea = false → ∀ old s2, readWord .datip ea s1 = .ok old s2 →
        (∀ p ∈ wordCombine, traps (moved (p.2 a s.cc old).cc) (p.1 src (.mem m r))) ∧
        (s.inst.params.movClrReadBeforeWrite = true → traps (moved (aluMov a s.cc).cc) (.mov src (.mem m r)))) ∧
      (s.inst.params.movClrReadBeforeWrite = false → isOdd ea = true ∨ answersWrite .word s ea = false →
        traps (s1.setCc (aluMov a s.cc).cc) (.mov src (.mem m r)))) ∧
    (∀ src (a : Byte) s0, readSource .byte src s.useScratch = .ok a s0 → eaOf m r .byte s0 = .ok (ea, inc) s1 →
      answersWrite .byte s ea = false →
      (∀ old s2, readByte .datip ea s1 = .ok old s2 →
        (∀ p ∈ byteCombine, traps (moved (p.2 a s.cc old).cc) (p.1 src (.mem m r))) ∧
        (s.inst.params.movClrReadBeforeWrite = true → traps (moved (aluMov a s.cc).cc) (.movb src (.mem m r)))) ∧
      (s.inst.params.movClrReadBeforeWrite = false → traps (s1.setCc (aluMov a s.cc).cc) (.movb src (.mem m r)))) ∧
    (∀ link, eaOf m r .word s.useScratch = .ok (ea, inc) s1 →
      let s2 := s1.setReg r (s1.reg r + inc)
      let pushed := s2.pushDown true
      isOdd (s2.reg .sp - 2) = true ∨ answersWrite .word s (s2.reg .sp - 2) = false →
      traps pushed (.jsr link m r) ∧
      (isOdd (s2.reg .sp - 4) = true ∨ answersWrite .word s (s2.reg .sp - 4) = false →
        ∃ t, exec (.jsr link m r) s = .next t ∧ t.runState = .halted ∧ t.ir = 0 ∧ t.reg .sp = s2.reg .sp - 4 ∧
          (∀ q, q ≠ .sp → t.reg q = s2.reg q) ∧ t.psw = s.psw ∧ SameMemory s t ∧ t.hidden.r13 = 0o4))

/-! ### Program control -/

/-- R200 to R217: each branch adds twice its signed offset, bits 7:0 of its word, to PC when its condition holds, and
otherwise does nothing; the trace flag follows T (D5), and that R13 is kept is the model's choice (log 6). -/
def Obligations.Branches : Prop :=
  ∀ p ∈ branches, ∀ (offset : Byte) (s : State),
    (encode (p.1 offset)).extractLsb' 0 8 = offset ∧
    ∃ t, exec (p.1 offset) s = .next t ∧
      (p.2 s.cc → t.reg .pc = s.reg .pc + BitVec.ofInt 16 (2 * offset.toInt)) ∧
      (¬ p.2 s.cc → t.reg .pc = s.reg .pc) ∧
      (∀ q, q ≠ .pc → t.reg q = s.reg q) ∧ t.pending.stackOverflow = s.pending.stackOverflow ∧ OnlyRegisters s t

/-- R168, R166, R129: JMP: PC is the effective address; the operand there is not accessed, and mode 2 uses the register
before its increment. -/
def Obligations.Jump : Prop :=
  ∀ (m : MemMode) (r : Reg) (s : State) (ea inc : Word) (s1 : State), s.npr = [] →
    eaOf m r .word s.useScratch = .ok (ea, inc) s1 →
    ∃ t, exec (.jmp m r) s = .next t ∧ t.reg .pc = ea ∧
      (∀ q, q ≠ .pc → t.reg q = if q = r then s1.reg r + inc else s1.reg q) ∧
      t.pending.stackOverflow = s1.pending.stackOverflow ∧ OnlyRegisters s t

/-- R218, D17: JSR: the address first; then the link register is pushed, receives the return address, and PC the
address. -/
def Obligations.JumpToSubroutine : Prop :=
  ∀ (link : Reg) (m : MemMode) (r : Reg) (s : State) (ea inc : Word) (s1 : State), s.npr = [] →
    eaOf m r .word s.useScratch = .ok (ea, inc) s1 →
    let s2 := s1.setReg r (s1.reg r + inc)
    let sp := s2.reg .sp - 2
    let pushed := if link = .sp then sp else s2.reg link
    isOdd sp = false → answersWrite .word s sp = true →
    ∃ t, exec (.jsr link m r) s = .next t ∧ t.reg .pc = ea ∧
      (link ≠ .pc → t.reg link = s2.reg .pc) ∧ (link ≠ .sp → t.reg .sp = sp) ∧
      (∀ q, q ≠ .pc → q ≠ .sp → q ≠ link → t.reg q = s2.reg q) ∧
      Stored .word sp pushed s t ∧ PswAfterStore sp (lowByte pushed) s.cc s t ∧
      t.pending.stackOverflow = (s1.pending.stackOverflow || decide (sp.toNat < 0o400)) ∧ Completed s t

/-- R219, D17: RTS: PC receives the register and the register the popped word; RTS PC jumps to the popped word. -/
def Obligations.ReturnFromSubroutine : Prop :=
  ∀ (r : Reg) (s : State) (v : Word) (s1 : State), s.npr = [] →
    readWord .dati (s.reg .sp) s.useScratch = .ok v s1 →
    ∃ t, exec (.rts r) s = .next t ∧ t.reg r = v ∧ (r ≠ .pc → t.reg .pc = s.reg r) ∧
      (r ≠ .sp → t.reg .sp = s.reg .sp + 2) ∧ (∀ q, q ≠ .pc → q ≠ .sp → q ≠ r → t.reg q = s.reg q) ∧
      t.pending.stackOverflow = s.pending.stackOverflow ∧ OnlyRegisters s t

/-! ### Traps -/

/-- R275, R271: the trap sequence: PSW and PC pushed, PC and PSW loaded from the vector, the stack limit checked at both
pushes where they are checked. The zeros above the pushed PSW are the spec's decision D1 (log 10); that the processor is
running afterwards, whatever it waited in, is DEDUCED (R244, D7; log 37). -/
def Obligations.TrapSequence : Prop :=
  ∀ (checked : Bool) (v : Word) (s : State), TrapReady v s →
    let t := trapSequence checked v s
    TrapTaken v s t ∧ TrapKeeps s t ∧ t.hidden.b = t.memWord (v + 2) ∧ t.ir = s.ir ∧ t.requests = s.requests ∧
    t.brLatch = s.brLatch ∧
    t.haltPassed = s.haltPassed ∧ t.pending.trace = s.pending.trace ∧
    t.pending.stackOverflow = (s.pending.stackOverflow ||
      (checked && (decide ((s.reg .sp - 2).toNat < 0o400) || decide ((s.reg .sp - 4).toNat < 0o400))))

/-- R267: when the first push of a trap sequence is odd or not answered, IR is cleared and the processor halts: R6 stays
decremented by two, nothing is written, PC and PSW keep their values, R13 holds the vector, and so does B (R282 of an
interrupt, spec 95 E2 of every trap). That the service point at which it halts has latched the bus requests is DEDUCED
(R285; log 49). -/
def Obligations.DoubleBusErrorHalts : Prop :=
  ∀ (checked : Bool) (v : Word) (s : State), s.npr = [] →
    (isOdd (s.reg .sp - 2) = true ∨ answersWrite .word s (s.reg .sp - 2) = false) →
    let t := trapSequence checked v s
    t.ir = 0 ∧ t.runState = .halted ∧ t.reg .sp = s.reg .sp - 2 ∧ (∀ q, q ≠ .sp → t.reg q = s.reg q) ∧
    t.psw = s.psw ∧ SameMemory s t ∧ t.hidden.r13 = v ∧ t.hidden.b = v ∧ t.requests = s.requests ∧ t.brLatch = s.brLines

/-- R266, R268: an error in a later transfer of a trap sequence ends it there and stays pending for the service point: a
bus error in the push of PC, which leaves PC in B (spec 95 E2), a bus or parity error in the read of the vector and in the
read of the word after it; a word with bad parity is left in B. That the processor is then running, whatever it waited in,
is DEDUCED (log 37), and the zeros above the pushed PSW are the spec's decision D1 (log 10). -/
def Obligations.LaterTrapErrorsStayPending : Prop :=
  ∀ (checked : Bool) (v : Word) (s : State), s.npr = [] → s.mem.wf = true →
    plainWord s (s.reg .sp - 2) = true →
    let t := trapSequence checked v s
    let noAnswer (a : Word) : Prop :=
      isOdd a = true ∨ (internalAddress a.toNat = false ∧ answer s.inst .dati a = none)
    let parity (a : Word) : Prop :=
      isOdd a = false ∧ internalAddress a.toNat = false ∧ (answer s.inst .dati a).isSome = true ∧
        badParity s.inst a = true
    let stopped (pc : Word) : Prop :=
      t.reg .sp = s.reg .sp - 4 ∧ t.memWord (s.reg .sp - 2) = zext s.psw ∧ t.reg .pc = pc ∧ t.psw = s.psw ∧
      (∀ q, q ≠ .sp → q ≠ .pc → t.reg q = s.reg q) ∧ t.runState = .run ∧ t.ir = s.ir ∧ t.requests = s.requests ∧
      SameMemoryBut [s.reg .sp - 4, s.reg .sp - 3, s.reg .sp - 2, s.reg .sp - 1] s t
    let busErrorLeft : Prop := t.pending.busError = true ∧ t.pending.parityError = s.pending.parityError
    let parityErrorLeft (a : Word) : Prop :=
      t.pending.parityError = true ∧ t.pending.busError = s.pending.busError ∧
      (answer s.inst .dati a = some .memory → t.hidden.b = t.memWord a)
    (answersWrite .word s (s.reg .sp - 4) = false →
      stopped (s.reg .pc) ∧ SameMemoryBut [s.reg .sp - 2, s.reg .sp - 1] s t ∧ t.hidden.b = s.reg .pc ∧
        busErrorLeft) ∧
    (plainWord s (s.reg .sp - 4) = true →
      (noAnswer v → stopped (s.reg .pc) ∧ t.memWord (s.reg .sp - 4) = s.reg .pc ∧ busErrorLeft) ∧
      (parity v → stopped (s.reg .pc) ∧ t.memWord (s.reg .sp - 4) = s.reg .pc ∧ parityErrorLeft v) ∧
      (plainWord s v = true →
        (noAnswer (v + 2) → stopped (t.memWord v) ∧ t.memWord (s.reg .sp - 4) = s.reg .pc ∧ busErrorLeft) ∧
        (parity (v + 2) → stopped (t.memWord v) ∧ t.memWord (s.reg .sp - 4) = s.reg .pc ∧ parityErrorLeft (v + 2))))

/-- R220 to R224, R95, R96, R269, D5: BPT, IOT, EMT, TRAP, the reserved and the illegal words take the trap of their IR
CODE, IR becomes 100000, whose IR CODE is none, and the trace flag is touched only under `trace_after_trap_instruction`. -/
def Obligations.TrapInstructions : Prop :=
  ∀ (i : Instr) (v : Word) (s : State), trapsThrough i v → TrapReady v s →
    irCodeVector (irCode i) = some v ∧
    ∃ t, exec i s = .next t ∧ TrapTaken v s t ∧ TrapKeeps s t ∧ t.ir = 0o100000 ∧ t.irCode = .none ∧
      t.requests = s.requests ∧ t.brLatch = s.brLatch ∧
      t.pending.stackOverflow = (s.pending.stackOverflow ||
        (decide ((s.reg .sp - 2).toNat < 0o400) || decide ((s.reg .sp - 4).toNat < 0o400))) ∧
      t.pending.trace = (if s.inst.params.traceAfterTrapInstruction then s.tBit else s.pending.trace)

/-- R227 to R229, D5: RTI and RTT restore PC and the whole PSW from the stack; after RTI the trace flag is the T bit
popped, RTT sets none; that R13 is kept is the model's choice (log 6). -/
def Obligations.ReturnFromTrap : Prop :=
  ∀ (s : State) (newPc newPsw : Word) (s1 s2 : State), s.npr = [] →
    readWord .dati (s.reg .sp) s.useScratch = .ok newPc s1 →
    readWord .dati (s.reg .sp + 2) ((s1.setReg .sp (s.reg .sp + 2)).setReg .pc newPc) = .ok newPsw s2 →
    (∀ i, i = .rti ∨ i = .rtt →
      ∃ t, exec i s = .next t ∧ t.reg .pc = newPc ∧ t.psw = lowByte newPsw ∧ t.reg .sp = s.reg .sp + 4 ∧
        (∀ q, q ≠ .pc → q ≠ .sp → t.reg q = s.reg q) ∧ SameMemory s t ∧ SameControl s t ∧
        t.pending.stackOverflow = s.pending.stackOverflow ∧
        (i = .rti → t.pending.trace = newPsw.getLsbD 4) ∧ (i = .rtt → t.pending.trace = s.pending.trace))

/-- R219, R227, R124, D17: when a pop raises, R6 is not incremented for it and the register or PSW it would load is
unchanged; PC is as the parameters say. -/
def Obligations.AbortedPops : Prop :=
  ∀ (s : State) (c : Abort), s.npr = [] → s.pending.busError = false → s.pending.parityError = false →
    (∀ u, readWord .dati (s.reg .sp) s.useScratch = .abort c u → TrapReady (abortVector c) s →
      (∀ r, ∃ t, exec (.rts r) s = .next t ∧ TrapKeeps s t ∧
        TrapTaken (abortVector c) (if s.inst.params.rtsAbortPcLoaded then s.setReg .pc (s.reg r) else s) t) ∧
      (∀ i, i = .rti ∨ i = .rtt → ∃ t, exec i s = .next t ∧ TrapKeeps s t ∧ TrapTaken (abortVector c) s t)) ∧
    (∀ v s1 u, readWord .dati (s.reg .sp) s.useScratch = .ok v s1 →
      let s2 := s.setReg .sp (s.reg .sp + 2)
      readWord .dati (s.reg .sp + 2) ((s1.setReg .sp (s.reg .sp + 2)).setReg .pc v) = .abort c u →
      TrapReady (abortVector c) s2 →
      ∀ i, i = .rti ∨ i = .rtt → ∃ t, exec i s = .next t ∧ TrapKeeps s t ∧
        TrapTaken (abortVector c) (if s.inst.params.rtiAbortPcLoaded then s2.setReg .pc v else s2) t)

/-! ### Operate instructions and condition codes -/

/-- R240, R241, D5: HALT halts the processor and WAIT makes it wait; the trace flag follows T, the service point at which
HALT halts it has latched the bus requests (R285; log 49), and nothing else changes. That the microprogram's temporaries R10
to R13, R17 and B are among what they keep is the model's choice (log 6). -/
def Obligations.HaltAndWait : Prop :=
  ∀ s : State,
    let traced : Pending := { s.pending with trace := s.tBit && (s.tBit || s.inst.params.traceAfterPswWrite) }
    exec .halt s = .next { s with runState := .halted, pending := traced, brLatch := s.brLines } ∧
    exec .wait s = .next { s with runState := .wait, pending := traced }

/-- R242, R48, D15: RESET, 000005: every device's request is gone, the trace flag follows T, and nothing of the processor
changes; R325, D14: nor does it when another device drives BUS INIT. That a device in its power-up state requests nothing
is the model's choice (log 34), and so is that R10 to R12, R17 and B keep their values (log 6). -/
def Obligations.Reset : Prop :=
  decode 0o000005 = .reset ∧
  (∀ s : State, ∃ t, exec .reset s = .next t ∧ t.requests = [] ∧
    t = { s with requests := [], pending := t.pending } ∧
    t.pending = { s.pending with trace := s.tBit && (s.tBit || s.inst.params.traceAfterPswWrite) }) ∧
  ∀ (s : State) (rest : List Turn), s.agenda = .other .busInit :: rest →
    step s = .next { s with agenda := rest, requests := [] }

/-- R250 to R252: the condition code operators, 000240 + mask and 000260 + mask: each condition code whose mask bit is 1
is cleared by the clear form and set by the set form; every other PSW bit stays, and nothing else changes but the trace
flag, which follows T (D5); that R13 is kept is the model's choice (log 6). -/
def Obligations.ConditionCodeOperators : Prop :=
  ∀ (mask : BitVec 4) (s : State),
    decode ((0o0012 : BitVec 12) ++ mask) = .clcc mask ∧ decode ((0o0013 : BitVec 12) ++ mask) = .secc mask ∧
    (∃ t, exec (.clcc mask) s = .next t ∧
      (∀ i, i < 8 → t.psw.getLsbD i = (s.psw.getLsbD i && !mask.getLsbD i)) ∧
      (∀ q, t.reg q = s.reg q) ∧ SameMemory s t ∧ t.pending.stackOverflow = s.pending.stackOverflow ∧
      Completed s t) ∧
    (∃ t, exec (.secc mask) s = .next t ∧
      (∀ i, i < 8 → t.psw.getLsbD i = (s.psw.getLsbD i || mask.getLsbD i)) ∧
      (∀ q, t.reg q = s.reg q) ∧ SameMemory s t ∧ t.pending.stackOverflow = s.pending.stackOverflow ∧
      Completed s t)

/-! ### The service point -/

/-- R270: of what is pending, the service point takes the one of highest priority, clears it alone, and takes its trap;
the halt switch comes after the traps and, asserted, shuts the bus requests out (R285). Each pass latches the bus requests
on its entry (GrantedRequestIsHighest) and leaves its service point behind (log 43). IR is not looked at: in RUN and WAIT it
can be 000000 only after a continue from HALTED, and where step 1 of R270 read literally would halt again, at a service
point that no continue resumed, the model takes what is pending: DESIGN CHOICE (log 48). -/
def Obligations.ServiceOrder : Prop :=
  ∀ s₀ s : State, TurnOf s₀ s → s.runState = .run ∨ s.runState = .wait →
    let p := s.pending
    let takes (checked : Bool) (v : Word) (left : Pending) : Prop :=
      step s₀ = .next { trapSequence checked v (s.enterService.setPending left) with haltPassed := false }
    (p.busError = true → takes true 0o4 { p with busError := false }) ∧
    (p.busError = false → p.parityError = true → takes true 0o114 { p with parityError := false }) ∧
    (p.busError = false → p.parityError = false → p.trace = true →
      takes true s.inst.params.traceVector { p with trace := false }) ∧
    (p.busError = false → p.parityError = false → p.trace = false → p.stackOverflow = true →
      takes s.inst.params.stovRetrigger s.inst.params.stackOverflowVector { p with stackOverflow := false }) ∧
    (p.busError = false → p.parityError = false → p.trace = false → p.stackOverflow = false → p.powerFail = true →
      takes true 0o24 { p with powerFail := false }) ∧
    (NothingPending s → s.haltRequest = true → s.haltPassed = false →
      step s₀ = .next { s.enterService with
        haltRequest := false, runState := .haltGranted (decide (s.runState = .wait)) })

/-- R270, R281, R283, R285: the bus requests are latched on entry to the service point, but a service point that a continue
resumes has latched its own before the halt; what devices do to their lines in the rest of the turn comes after (log 51). A
request is granted when no halt request is asserted, its level is latched and above PRI and no higher level is latched on
which a device still requests; PRI = 7 masks all levels, PRI below 4 none; a trap, power fail and the halt switch are taken
whatever PRI, and no bus request with them. That a latched level whose devices have withdrawn is passed over, and that the
service point resumed neither latches nor grants the halt request again, is how the model reads the spec (logs 49, 43). -/
def Obligations.GrantedRequestIsHighest : Prop :=
  ∀ s : State,
    s.enterService = { s with
      brLatch := s.enterService.brLatch
      requests := s.deviceActs.foldl (fun l a => a.apply l) s.requests
      deviceActs := [] } ∧
    (s.haltPassed = true → s.enterService.brLatch = s.brLatch) ∧
    (s.haltPassed = false → ∀ l, s.enterService.brLatch.holds l = true ↔ ∃ r ∈ s.requests, r.level = l) ∧
    (let asks (q : Request) : Prop := q ∈ s.requests ∧ s.brLatch.holds q.level = true
     (∀ r, requestToGrant s = some r →
       s.haltRequest = false ∧ asks r ∧ s.pri < r.level.num ∧ ∀ q, asks q → q.level.num ≤ r.level.num) ∧
     (requestToGrant s = none ↔ s.haltRequest = true ∨ ∀ q, asks q → q.level.num ≤ s.pri) ∧
     (s.pri = 7 → requestToGrant s = none) ∧
     (s.pri < 4 → s.haltRequest = false → (∃ q, asks q) → requestToGrant s ≠ none)) ∧
    (¬ NothingPending s ∨ (s.haltRequest = true ∧ s.haltPassed = false) →
      ∀ psw : Byte, ∃ t, service (s.setPsw psw) = some t ∧ t.requests = s.enterService.requests)

/-- R282, R275, R271, R244, R285, R260: with nothing of higher priority the granted request is dropped and its vector's trap
taken, from RUN and from WAIT; of several on its level it is the one nearest the processor. That grant, drop and trap are
one step is the spec's decision D6 (log 21), the order of the list U16's parameter (log 21), and that WAIT ends in RUN is
D7 (log 37); that IR is not looked at, where it is still 000000 after a continue, is log 48. A device raises and withdraws
its request between steps (log 17) or in the course of one (log 51). -/
def Obligations.InterruptTaken : Prop :=
  (∀ (s₀ s : State) (r : Request), TurnOf s₀ s → s.runState = .run ∨ s.runState = .wait →
    NothingPending s → s.haltRequest = false → grantedRequest s.enterService = some r → TrapReady r.vector s →
    ∃ t before after, step s₀ = .next t ∧ TrapTaken r.vector s t ∧ TrapKeeps s t ∧ t.ir = s.ir ∧
      t.brLatch = s.enterService.brLatch ∧ s.enterService.requests = before ++ r :: after ∧
      (∀ q ∈ before, q.level ≠ r.level) ∧ t.requests = before ++ after ∧ t.hidden.b = t.memWord (r.vector + 2) ∧
      t.pending.trace = s.pending.trace ∧ t.pending.stackOverflow = (s.pending.stackOverflow ||
        (decide ((s.reg .sp - 2).toNat < 0o400) || decide ((s.reg .sp - 4).toNat < 0o400)))) ∧
  ∀ (s : State) (rest : List Turn) (r : Request),
    (∀ n, s.agenda = .other (.device (.raise r n)) :: rest →
      step s = .next { s with agenda := rest, requests := s.requests.take n ++ r :: s.requests.drop n }) ∧
    (s.agenda = .other (.device (.withdraw r)) :: rest →
      step s = .next { s with agenda := rest, requests := s.requests.erase r })

/-- R241, R244, R43: with nothing to service a waiting processor stays as it is, but for the bus requests that the service
point latches (R285), what devices do to their lines meanwhile (log 51) and the service point, which is left behind (log
43); a halted one stays whatever is pending. -/
def Obligations.WaitingAndHaltedStay : Prop :=
  ∀ s₀ s : State, TurnOf s₀ s →
    (s.runState = .wait → Quiet s → step s₀ = .next { s.enterService with haltPassed := false }) ∧
    (s.runState = .halted → step s₀ = .next s) ∧ (∀ w, s.runState = .haltGranted w → step s₀ = .next s)

/-- R243, R244, R283, D10: the console asserts and releases the halt request; its continue lets a halted processor run, or
wait again if it was waiting, from the service point it was at, and changes nothing else. With the halt request asserted
through the continue and no flag pending, that service point executes one instruction (StepRunsDecodedInstruction), and
the next one halts again. A bus request raised while the processor was halted is not among those that the service point
resumed has latched, and waits for the next (R270, R283, R285; log 49); that it sees the flags set meanwhile is the model's
choice (log 45). -/
def Obligations.ConsoleContinues : Prop :=
  (∀ (s : State) (rest : List Turn),
    (∀ on, s.agenda = .other (.haltSwitch on) :: rest → step s = .next { s with agenda := rest, haltRequest := on }) ∧
    (s.agenda = .other .consoleContinue :: rest →
      (s.runState = .halted → step s = .next { s with agenda := rest, runState := .run, haltPassed := true }) ∧
      (s.runState = .haltGranted true →
        step s = .next { s with agenda := rest, runState := .wait, haltPassed := true }) ∧
      (s.runState = .haltGranted false →
        step s = .next { s with agenda := rest, runState := .run, haltPassed := true }))) ∧
  ∀ s₀ s t t' : State, TurnOf s₀ s → s.runState = .run ∨ s.runState = .wait → NothingPending s →
    s.haltRequest = true → s.haltPassed = true → step s₀ = .next t →
    Quiet s ∧ t.haltRequest = true ∧ t.haltPassed = false ∧ t.agenda = s.agenda ∧ t.deviceActs = [] ∧
    (NothingPending t → t.runState = .run ∨ t.runState = .wait → TurnOf t t' →
      step t = .next { t'.enterService with
        haltRequest := false, runState := .haltGranted (decide (t.runState = .wait)) })

/-- R45, R40, R66, R243, R363: while the processor is halted the console reads and writes R0 to R17, each at its own
address from 177700 to 177717, a write to R17 swapping the bytes, and the whole PSW; while it is not, the register
addresses read as zero and a write to them is lost. R72, R286: what another master reads from memory and writes to it,
word and byte. That the PSW is loaded whole while halted and as R34 says while not, that a word goes to its even address
and that a byte at a register address is lost are as log 24 reads the spec, and the zeros above the PSW are D1 (log 10). -/
def Obligations.ConsoleRegisterAccess : Prop :=
  ∀ s : State,
    (s.isHalted = true ↔ s.runState = .halted ∨ ∃ w, s.runState = .haltGranted w) ∧
    (s.isHalted = true →
      (∀ p ∈ scratchPad, masterRead p.1 s = some (p.2 s) ∧
        ∀ v : Word, let t := masterWrite (.word p.1 v) s
          p.2 t = (if p.1 = 0o177717 then lowByte v ++ highByte v else v) ∧
          (∀ q ∈ scratchPad, q.1 ≠ p.1 → q.2 t = q.2 s) ∧ t = { s with regs := t.regs, hidden := t.hidden } ∧
          t.hidden.b = s.hidden.b) ∧
      (∀ v : Word, masterWrite (.word pswAddress v) s = { s with psw := lowByte v }) ∧
      ∀ v : Byte, masterWrite (.byte pswAddress v) s = { s with psw := v }) ∧
    (s.isHalted = false →
      (∀ a : Word, isRegisterAddress a = true → masterRead a s = some 0 ∧ ∀ v, masterWrite (.word a v) s = s) ∧
      (∀ v : Word, let t := masterWrite (.word pswAddress v) s
        PswAfterStore pswAddress (lowByte v) s.cc s t ∧ t = { s with psw := t.psw, free := t.free }) ∧
      ∀ v : Byte, let t := masterWrite (.byte pswAddress v) s
        PswAfterStore pswAddress v s.cc s t ∧ t = { s with psw := t.psw, free := t.free }) ∧
    masterRead pswAddress s = some (zext s.psw) ∧
    (∀ (a : Word) (v : Byte), isRegisterAddress a = true ∨ a = 0o177777 → masterWrite (.byte a v) s = s) ∧
    (∀ a : Word, internalAddress a.toNat = false →
      masterRead a s = (if answer s.inst .dati (evenAddr a) = some .memory then some (s.memWord (evenAddr a)) else none) ∧
      (answer s.inst .dato (evenAddr a) ≠ some .memory → ∀ v, masterWrite (.word a v) s = s) ∧
      (answer s.inst .datob (evenAddr a) ≠ some .memory → ∀ v, masterWrite (.byte a v) s = s) ∧
      (s.mem.wf = true → answer s.inst .dato (evenAddr a) = some .memory → ∀ v : Word,
        let t := masterWrite (.word a v) s
        t.memWord (evenAddr a) = v ∧ SameMemoryBut [evenAddr a, evenAddr a + 1] s t ∧ t = { s with mem := t.mem }) ∧
      (s.mem.wf = true → answer s.inst .datob (evenAddr a) = some .memory → ∀ v : Byte,
        let t := masterWrite (.byte a v) s
        t.memByte a = v ∧ SameMemoryBut [a] s t ∧ t = { s with mem := t.mem })) ∧
    ∀ rest w, s.agenda = .other (.masterWrite w) :: rest → step s = .next (masterWrite w { s with agenda := rest })

/-! ### Power -/

/-- R46, R47, R321: what reset leaves: PC and PSW from the words at 24 and 26, R13 = 26, IR = 100000, running. The flags
are clear by the spec's decision D8; that memory lists nothing is the model's choice (log 3), and so are the halt request
clear and no bus request (logs 33, 34). -/
def Obligations.ResetState : Prop :=
  let s := State.reset
  s.reg .pc = s.memWord 0o24 ∧ s.psw = lowByte (s.memWord 0o26) ∧ s.hidden.r13 = 0o26 ∧ s.ir = 0o100000 ∧
  s.runState = .run ∧ Quiet s ∧ HaltedIrZero s

/-- R321, R46: the restart routine: R5 receives the PC left over, PC and PSW come from the words at 24 and 26, R13 and B
end as the routine leaves them, nothing is pushed, no other register changes; it waits while AC LO is asserted. R264: a
read that raises ends it there: PC is loaded when only 26 cannot be read, the PSW is not, and the error whose trap is
through 4 is pending for the service point that follows, after bad parity too, where R321 is followed (log 44). -/
def Obligations.Restart : Prop :=
  ∀ s₀ s : State, TurnOf s₀ s → s.npr = [] → s.runState = .init →
    (s.power.acLo = true → step s₀ = .next s) ∧
    (s.power.acLo = false → plainWord s 0o24 = true → plainWord s 0o26 = true →
      ∃ t, step s₀ = .next t ∧ t.reg .r5 = s.reg .pc ∧ t.reg .pc = s.memWord 0o24 ∧
        t.psw = lowByte (s.memWord 0o26) ∧ t.hidden.r13 = 0o26 ∧ t.hidden.b = s.memWord 0o26 ∧
        (∀ q, q ≠ .r5 → q ≠ .pc → t.reg q = s.reg q) ∧ t.mem = s.mem ∧ t.pending = s.pending ∧
        t.runState = .run ∧ t.power.pup = true) ∧
    (s.power.acLo = false → ∀ (a pc : Word),
      (a = 0o24 ∧ pc = s.reg .pc) ∨ (a = 0o26 ∧ plainWord s 0o24 = true ∧ pc = s.memWord 0o24) →
      let stopped (t : State) : Prop :=
        step s₀ = .next t ∧ t.reg .r5 = s.reg .pc ∧ t.reg .pc = pc ∧ t.psw = s.psw ∧ t.hidden.r13 = a ∧
        (∀ q, q ≠ .r5 → q ≠ .pc → t.reg q = s.reg q) ∧ t.mem = s.mem ∧ t.runState = .run ∧ t.ir = s.ir ∧
        t.requests = s.requests ∧ t.haltRequest = s.haltRequest ∧ t.power = { s.power with pup := true }
      (answer s.inst .dati a = none → ∃ t, stopped t ∧ t.pending = { s.pending with busError := true }) ∧
      ((answer s.inst .dati a).isSome = true → badParity s.inst a = true →
        ∃ t, stopped t ∧ (answer s.inst .dati a = some .memory → t.hidden.b = s.memWord a) ∧
          t.pending = { s.pending with busError := true }))

/-- R273, R321, R326, U8: the assertion of AC LO sets power fail and starts PDWN, but in the PUP interval it sets nothing
(log 42), and in INIT, without power or when asserted already it changes only the line; when PDWN times out the processor
is initialised, registers and memory intact (log 35), and without power, or with PDWN not running, nothing else changes.
While DC LO is asserted the processor takes no step; when it is negated the processor is initialised, memory as
`memory_retained` says (log 23), and nothing is said of the registers, which may hold any value. -/
def Obligations.PowerFail : Prop :=
  ∀ (s : State) (rest : List Turn),
    (s.agenda = .other (.acLo true) :: rest → s.runState ≠ .powerOff → s.runState ≠ .init → s.power.acLo = false →
      ∃ t, step s = .next t ∧ t.power = { s.power with acLo := true, pdwn := s.power.pdwn || !s.power.pup } ∧
        t.pending = { s.pending with powerFail := s.pending.powerFail || !s.power.pup } ∧
        t = { s with agenda := rest, power := t.power, pending := t.pending }) ∧
    (s.agenda = .other (.acLo true) :: rest →
      s.runState = .powerOff ∨ s.runState = .init ∨ s.power.acLo = true →
      step s = .next { s with agenda := rest, power := { s.power with acLo := true } }) ∧
    (s.agenda = .other (.acLo false) :: rest →
      step s = .next { s with agenda := rest, power := { s.power with acLo := false } }) ∧
    (s.agenda = .other .pupEnds :: rest →
      step s = .next { s with agenda := rest, power := { s.power with pup := false } }) ∧
    (s.agenda = .other .pdwnEnds :: rest → s.runState ≠ .powerOff → s.power.pdwn = true →
      ∃ t, step s = .next t ∧ t.runState = .init ∧ t.ir = 0o100000 ∧ t.regs = s.regs ∧ t.psw = s.psw ∧ t.mem = s.mem ∧
        NothingPending t ∧ t.requests = [] ∧ t.power = { s.power with pup := false, pdwn := false }) ∧
    (s.agenda = .other .pdwnEnds :: rest → s.runState = .powerOff ∨ s.power.pdwn = false →
      step s = .next { s with agenda := rest, power := { s.power with pdwn := false } }) ∧
    (s.agenda = .other (.dcLo true) :: rest →
      step s = .next { s with agenda := rest, power := { s.power with dcLo := true }, runState := .powerOff }) ∧
    (∀ u, TurnOf s u → s.runState = .powerOff → step s = .fault .powerOff) ∧
    (s.agenda = .other (.dcLo false) :: rest →
      (s.power.dcLo = false → step s = .next { s with agenda := rest }) ∧
      (s.power.dcLo = true →
        ∃ t, step s = .next t ∧ t.runState = .init ∧ t.ir = 0o100000 ∧ NothingPending t ∧ t.requests = [] ∧
          t.power = { s.power with dcLo := false, pup := false, pdwn := false } ∧ t.haltRequest = s.haltRequest ∧
          t.inst = s.inst ∧ t.agenda = rest ∧ t.mem = if s.inst.memoryRetained then s.mem else []))

/-! ### Invariants and whole-machine rules -/

/-- R50, R66, R67: memory keeps its canonical form, and never lists a byte that the processor serves itself. -/
def Obligations.StepKeepsMemoryGood : Prop := ∀ s t : State, MemoryGood s → step s = .next t → MemoryGood t

/-- The memory after reset is good. -/
def Obligations.ResetMemoryGood : Prop := MemoryGood State.reset

/-- R8: no step changes the installation. -/
def Obligations.StepKeepsInstallation : Prop := ∀ s t : State, step s = .next t → t.inst = s.inst

/-- R43, R240, R267, R270 step 1: every step keeps it that a processor in HALTED has IR = 000000: only the HALT
instruction and a double bus error, which clears IR, halt the machine, whatever the other agents do. -/
def Obligations.HaltsOnlyWithZeroIr : Prop := ∀ s t : State, HaltedIrZero s → step s = .next t → HaltedIrZero t

/-- R326, R273, R311: a step of the processor never changes the power lines, never raises a bus request, which only its
devices do meanwhile, and never presses the halt switch. -/
def Obligations.ProcessorLeavesTheLines : Prop :=
  ∀ s₀ s t : State, TurnOf s₀ s → s.runState ≠ .init → step s₀ = .next t →
    t.power = s.power ∧ (∀ r ∈ t.requests, r ∈ s.requests ∨ ∃ n, DeviceAct.raise r n ∈ s.deviceActs) ∧
    (t.haltRequest = true → s.haltRequest = true)

/-- R20 to R22, R300: no processor step ends in a refusal, and it ends in a fault only while power is off: every word at
PC is executed or trapped. -/
def Obligations.StepNeverRefuses : Prop :=
  ∀ s : State, (∀ r, step s ≠ .refused r) ∧ (s.runState ≠ .powerOff → ∀ f, step s ≠ .fault f)
end

