-- ==== Sys2Proof/Laws/State.lean ====
section
/-! SUPPORT. What each update of the state does to each of its fields, and to the views of them: one lemma for each pair,
true by unfolding, so that no later proof unfolds an update. -/

namespace Sys2Proof.Machine

/-! ### `setReg` -/

@[simp] theorem State.regs_setReg (s : State) (r : Reg) (v : Word) : (s.setReg r v).regs = s.regs.set r v := rfl
@[simp] theorem State.psw_setReg (s : State) (r : Reg) (v : Word) : (s.setReg r v).psw = s.psw := rfl
@[simp] theorem State.ir_setReg (s : State) (r : Reg) (v : Word) : (s.setReg r v).ir = s.ir := rfl
@[simp] theorem State.hidden_setReg (s : State) (r : Reg) (v : Word) : (s.setReg r v).hidden = s.hidden := rfl
@[simp] theorem State.pending_setReg (s : State) (r : Reg) (v : Word) : (s.setReg r v).pending = s.pending := rfl
@[simp] theorem State.runState_setReg (s : State) (r : Reg) (v : Word) : (s.setReg r v).runState = s.runState := rfl
@[simp] theorem State.mem_setReg (s : State) (r : Reg) (v : Word) : (s.setReg r v).mem = s.mem := rfl
@[simp] theorem State.requests_setReg (s : State) (r : Reg) (v : Word) : (s.setReg r v).requests = s.requests := rfl
@[simp] theorem State.brLatch_setReg (s : State) (r : Reg) (v : Word) : (s.setReg r v).brLatch = s.brLatch := rfl
@[simp] theorem State.haltRequest_setReg (s : State) (r : Reg) (v : Word) : (s.setReg r v).haltRequest = s.haltRequest := rfl
@[simp] theorem State.haltPassed_setReg (s : State) (r : Reg) (v : Word) : (s.setReg r v).haltPassed = s.haltPassed := rfl
@[simp] theorem State.power_setReg (s : State) (r : Reg) (v : Word) : (s.setReg r v).power = s.power := rfl
@[simp] theorem State.agenda_setReg (s : State) (r : Reg) (v : Word) : (s.setReg r v).agenda = s.agenda := rfl
@[simp] theorem State.npr_setReg (s : State) (r : Reg) (v : Word) : (s.setReg r v).npr = s.npr := rfl
@[simp] theorem State.deviceActs_setReg (s : State) (r : Reg) (v : Word) : (s.setReg r v).deviceActs = s.deviceActs := rfl
@[simp] theorem State.free_setReg (s : State) (r : Reg) (v : Word) : (s.setReg r v).free = s.free := rfl
@[simp] theorem State.inst_setReg (s : State) (r : Reg) (v : Word) : (s.setReg r v).inst = s.inst := rfl
@[simp] theorem State.memByte_setReg (s : State) (r : Reg) (v : Word) (x : Word) : (s.setReg r v).memByte x = s.memByte x := rfl
@[simp] theorem State.memWord_setReg (s : State) (r : Reg) (v : Word) (x : Word) : (s.setReg r v).memWord x = s.memWord x := rfl
@[simp] theorem State.tBit_setReg (s : State) (r : Reg) (v : Word) : (s.setReg r v).tBit = s.tBit := rfl
@[simp] theorem State.pri_setReg (s : State) (r : Reg) (v : Word) : (s.setReg r v).pri = s.pri := rfl
@[simp] theorem State.cc_setReg (s : State) (r : Reg) (v : Word) : (s.setReg r v).cc = s.cc := rfl
@[simp] theorem State.isHalted_setReg (s : State) (r : Reg) (v : Word) : (s.setReg r v).isHalted = s.isHalted := rfl

/-! ### `bump` -/

@[simp] theorem State.regs_bump (s : State) (r : Reg) (v : Word) : (s.bump r v).regs = s.regs.set r (s.reg r + v) := rfl
@[simp] theorem State.psw_bump (s : State) (r : Reg) (v : Word) : (s.bump r v).psw = s.psw := rfl
@[simp] theorem State.ir_bump (s : State) (r : Reg) (v : Word) : (s.bump r v).ir = s.ir := rfl
@[simp] theorem State.hidden_bump (s : State) (r : Reg) (v : Word) : (s.bump r v).hidden = s.hidden := rfl
@[simp] theorem State.pending_bump (s : State) (r : Reg) (v : Word) : (s.bump r v).pending = s.pending := rfl
@[simp] theorem State.runState_bump (s : State) (r : Reg) (v : Word) : (s.bump r v).runState = s.runState := rfl
@[simp] theorem State.mem_bump (s : State) (r : Reg) (v : Word) : (s.bump r v).mem = s.mem := rfl
@[simp] theorem State.requests_bump (s : State) (r : Reg) (v : Word) : (s.bump r v).requests = s.requests := rfl
@[simp] theorem State.brLatch_bump (s : State) (r : Reg) (v : Word) : (s.bump r v).brLatch = s.brLatch := rfl
@[simp] theorem State.haltRequest_bump (s : State) (r : Reg) (v : Word) : (s.bump r v).haltRequest = s.haltRequest := rfl
@[simp] theorem State.haltPassed_bump (s : State) (r : Reg) (v : Word) : (s.bump r v).haltPassed = s.haltPassed := rfl
@[simp] theorem State.power_bump (s : State) (r : Reg) (v : Word) : (s.bump r v).power = s.power := rfl
@[simp] theorem State.agenda_bump (s : State) (r : Reg) (v : Word) : (s.bump r v).agenda = s.agenda := rfl
@[simp] theorem State.npr_bump (s : State) (r : Reg) (v : Word) : (s.bump r v).npr = s.npr := rfl
@[simp] theorem State.deviceActs_bump (s : State) (r : Reg) (v : Word) : (s.bump r v).deviceActs = s.deviceActs := rfl
@[simp] theorem State.free_bump (s : State) (r : Reg) (v : Word) : (s.bump r v).free = s.free := rfl
@[simp] theorem State.inst_bump (s : State) (r : Reg) (v : Word) : (s.bump r v).inst = s.inst := rfl
@[simp] theorem State.memByte_bump (s : State) (r : Reg) (v : Word) (x : Word) : (s.bump r v).memByte x = s.memByte x := rfl
@[simp] theorem State.memWord_bump (s : State) (r : Reg) (v : Word) (x : Word) : (s.bump r v).memWord x = s.memWord x := rfl
@[simp] theorem State.tBit_bump (s : State) (r : Reg) (v : Word) : (s.bump r v).tBit = s.tBit := rfl
@[simp] theorem State.pri_bump (s : State) (r : Reg) (v : Word) : (s.bump r v).pri = s.pri := rfl
@[simp] theorem State.cc_bump (s : State) (r : Reg) (v : Word) : (s.bump r v).cc = s.cc := rfl
@[simp] theorem State.isHalted_bump (s : State) (r : Reg) (v : Word) : (s.bump r v).isHalted = s.isHalted := rfl

/-! ### `setPsw` -/

@[simp] theorem State.regs_setPsw (s : State) (v : Byte) : (s.setPsw v).regs = s.regs := rfl
@[simp] theorem State.psw_setPsw (s : State) (v : Byte) : (s.setPsw v).psw = v := rfl
@[simp] theorem State.ir_setPsw (s : State) (v : Byte) : (s.setPsw v).ir = s.ir := rfl
@[simp] theorem State.hidden_setPsw (s : State) (v : Byte) : (s.setPsw v).hidden = s.hidden := rfl
@[simp] theorem State.pending_setPsw (s : State) (v : Byte) : (s.setPsw v).pending = s.pending := rfl
@[simp] theorem State.runState_setPsw (s : State) (v : Byte) : (s.setPsw v).runState = s.runState := rfl
@[simp] theorem State.mem_setPsw (s : State) (v : Byte) : (s.setPsw v).mem = s.mem := rfl
@[simp] theorem State.requests_setPsw (s : State) (v : Byte) : (s.setPsw v).requests = s.requests := rfl
@[simp] theorem State.brLatch_setPsw (s : State) (v : Byte) : (s.setPsw v).brLatch = s.brLatch := rfl
@[simp] theorem State.haltRequest_setPsw (s : State) (v : Byte) : (s.setPsw v).haltRequest = s.haltRequest := rfl
@[simp] theorem State.haltPassed_setPsw (s : State) (v : Byte) : (s.setPsw v).haltPassed = s.haltPassed := rfl
@[simp] theorem State.power_setPsw (s : State) (v : Byte) : (s.setPsw v).power = s.power := rfl
@[simp] theorem State.agenda_setPsw (s : State) (v : Byte) : (s.setPsw v).agenda = s.agenda := rfl
@[simp] theorem State.npr_setPsw (s : State) (v : Byte) : (s.setPsw v).npr = s.npr := rfl
@[simp] theorem State.deviceActs_setPsw (s : State) (v : Byte) : (s.setPsw v).deviceActs = s.deviceActs := rfl
@[simp] theorem State.free_setPsw (s : State) (v : Byte) : (s.setPsw v).free = s.free := rfl
@[simp] theorem State.inst_setPsw (s : State) (v : Byte) : (s.setPsw v).inst = s.inst := rfl
@[simp] theorem State.reg_setPsw (s : State) (v : Byte) (q : Reg) : (s.setPsw v).reg q = s.reg q := rfl
@[simp] theorem State.memByte_setPsw (s : State) (v : Byte) (x : Word) : (s.setPsw v).memByte x = s.memByte x := rfl
@[simp] theorem State.memWord_setPsw (s : State) (v : Byte) (x : Word) : (s.setPsw v).memWord x = s.memWord x := rfl
@[simp] theorem State.isHalted_setPsw (s : State) (v : Byte) : (s.setPsw v).isHalted = s.isHalted := rfl

/-! ### `setCc` -/

@[simp] theorem State.regs_setCc (s : State) (f : Cc) : (s.setCc f).regs = s.regs := rfl
@[simp] theorem State.psw_setCc (s : State) (f : Cc) : (s.setCc f).psw = s.psw.extractLsb' 4 4 ++ f.bits := rfl
@[simp] theorem State.ir_setCc (s : State) (f : Cc) : (s.setCc f).ir = s.ir := rfl
@[simp] theorem State.hidden_setCc (s : State) (f : Cc) : (s.setCc f).hidden = s.hidden := rfl
@[simp] theorem State.pending_setCc (s : State) (f : Cc) : (s.setCc f).pending = s.pending := rfl
@[simp] theorem State.runState_setCc (s : State) (f : Cc) : (s.setCc f).runState = s.runState := rfl
@[simp] theorem State.mem_setCc (s : State) (f : Cc) : (s.setCc f).mem = s.mem := rfl
@[simp] theorem State.requests_setCc (s : State) (f : Cc) : (s.setCc f).requests = s.requests := rfl
@[simp] theorem State.brLatch_setCc (s : State) (f : Cc) : (s.setCc f).brLatch = s.brLatch := rfl
@[simp] theorem State.haltRequest_setCc (s : State) (f : Cc) : (s.setCc f).haltRequest = s.haltRequest := rfl
@[simp] theorem State.haltPassed_setCc (s : State) (f : Cc) : (s.setCc f).haltPassed = s.haltPassed := rfl
@[simp] theorem State.power_setCc (s : State) (f : Cc) : (s.setCc f).power = s.power := rfl
@[simp] theorem State.agenda_setCc (s : State) (f : Cc) : (s.setCc f).agenda = s.agenda := rfl
@[simp] theorem State.npr_setCc (s : State) (f : Cc) : (s.setCc f).npr = s.npr := rfl
@[simp] theorem State.deviceActs_setCc (s : State) (f : Cc) : (s.setCc f).deviceActs = s.deviceActs := rfl
@[simp] theorem State.free_setCc (s : State) (f : Cc) : (s.setCc f).free = s.free := rfl
@[simp] theorem State.inst_setCc (s : State) (f : Cc) : (s.setCc f).inst = s.inst := rfl
@[simp] theorem State.reg_setCc (s : State) (f : Cc) (q : Reg) : (s.setCc f).reg q = s.reg q := rfl
@[simp] theorem State.memByte_setCc (s : State) (f : Cc) (x : Word) : (s.setCc f).memByte x = s.memByte x := rfl
@[simp] theorem State.memWord_setCc (s : State) (f : Cc) (x : Word) : (s.setCc f).memWord x = s.memWord x := rfl
@[simp] theorem State.isHalted_setCc (s : State) (f : Cc) : (s.setCc f).isHalted = s.isHalted := rfl

/-! ### `setIr` -/

@[simp] theorem State.regs_setIr (s : State) (w : Word) : (s.setIr w).regs = s.regs := rfl
@[simp] theorem State.psw_setIr (s : State) (w : Word) : (s.setIr w).psw = s.psw := rfl
@[simp] theorem State.ir_setIr (s : State) (w : Word) : (s.setIr w).ir = w := rfl
@[simp] theorem State.hidden_setIr (s : State) (w : Word) : (s.setIr w).hidden = s.hidden := rfl
@[simp] theorem State.pending_setIr (s : State) (w : Word) : (s.setIr w).pending = s.pending := rfl
@[simp] theorem State.runState_setIr (s : State) (w : Word) : (s.setIr w).runState = s.runState := rfl
@[simp] theorem State.mem_setIr (s : State) (w : Word) : (s.setIr w).mem = s.mem := rfl
@[simp] theorem State.requests_setIr (s : State) (w : Word) : (s.setIr w).requests = s.requests := rfl
@[simp] theorem State.brLatch_setIr (s : State) (w : Word) : (s.setIr w).brLatch = s.brLatch := rfl
@[simp] theorem State.haltRequest_setIr (s : State) (w : Word) : (s.setIr w).haltRequest = s.haltRequest := rfl
@[simp] theorem State.haltPassed_setIr (s : State) (w : Word) : (s.setIr w).haltPassed = s.haltPassed := rfl
@[simp] theorem State.power_setIr (s : State) (w : Word) : (s.setIr w).power = s.power := rfl
@[simp] theorem State.agenda_setIr (s : State) (w : Word) : (s.setIr w).agenda = s.agenda := rfl
@[simp] theorem State.npr_setIr (s : State) (w : Word) : (s.setIr w).npr = s.npr := rfl
@[simp] theorem State.deviceActs_setIr (s : State) (w : Word) : (s.setIr w).deviceActs = s.deviceActs := rfl
@[simp] theorem State.free_setIr (s : State) (w : Word) : (s.setIr w).free = s.free := rfl
@[simp] theorem State.inst_setIr (s : State) (w : Word) : (s.setIr w).inst = s.inst := rfl
@[simp] theorem State.reg_setIr (s : State) (w : Word) (q : Reg) : (s.setIr w).reg q = s.reg q := rfl
@[simp] theorem State.memByte_setIr (s : State) (w : Word) (x : Word) : (s.setIr w).memByte x = s.memByte x := rfl
@[simp] theorem State.memWord_setIr (s : State) (w : Word) (x : Word) : (s.setIr w).memWord x = s.memWord x := rfl
@[simp] theorem State.tBit_setIr (s : State) (w : Word) : (s.setIr w).tBit = s.tBit := rfl
@[simp] theorem State.pri_setIr (s : State) (w : Word) : (s.setIr w).pri = s.pri := rfl
@[simp] theorem State.cc_setIr (s : State) (w : Word) : (s.setIr w).cc = s.cc := rfl
@[simp] theorem State.isHalted_setIr (s : State) (w : Word) : (s.setIr w).isHalted = s.isHalted := rfl

/-! ### `setHidden` -/

@[simp] theorem State.regs_setHidden (s : State) (h : Hidden) : (s.setHidden h).regs = s.regs := rfl
@[simp] theorem State.psw_setHidden (s : State) (h : Hidden) : (s.setHidden h).psw = s.psw := rfl
@[simp] theorem State.ir_setHidden (s : State) (h : Hidden) : (s.setHidden h).ir = s.ir := rfl
@[simp] theorem State.hidden_setHidden (s : State) (h : Hidden) : (s.setHidden h).hidden = h := rfl
@[simp] theorem State.pending_setHidden (s : State) (h : Hidden) : (s.setHidden h).pending = s.pending := rfl
@[simp] theorem State.runState_setHidden (s : State) (h : Hidden) : (s.setHidden h).runState = s.runState := rfl
@[simp] theorem State.mem_setHidden (s : State) (h : Hidden) : (s.setHidden h).mem = s.mem := rfl
@[simp] theorem State.requests_setHidden (s : State) (h : Hidden) : (s.setHidden h).requests = s.requests := rfl
@[simp] theorem State.brLatch_setHidden (s : State) (h : Hidden) : (s.setHidden h).brLatch = s.brLatch := rfl
@[simp] theorem State.haltRequest_setHidden (s : State) (h : Hidden) : (s.setHidden h).haltRequest = s.haltRequest := rfl
@[simp] theorem State.haltPassed_setHidden (s : State) (h : Hidden) : (s.setHidden h).haltPassed = s.haltPassed := rfl
@[simp] theorem State.power_setHidden (s : State) (h : Hidden) : (s.setHidden h).power = s.power := rfl
@[simp] theorem State.agenda_setHidden (s : State) (h : Hidden) : (s.setHidden h).agenda = s.agenda := rfl
@[simp] theorem State.npr_setHidden (s : State) (h : Hidden) : (s.setHidden h).npr = s.npr := rfl
@[simp] theorem State.deviceActs_setHidden (s : State) (h : Hidden) : (s.setHidden h).deviceActs = s.deviceActs := rfl
@[simp] theorem State.free_setHidden (s : State) (h : Hidden) : (s.setHidden h).free = s.free := rfl
@[simp] theorem State.inst_setHidden (s : State) (h : Hidden) : (s.setHidden h).inst = s.inst := rfl
@[simp] theorem State.reg_setHidden (s : State) (h : Hidden) (q : Reg) : (s.setHidden h).reg q = s.reg q := rfl
@[simp] theorem State.memByte_setHidden (s : State) (h : Hidden) (x : Word) : (s.setHidden h).memByte x = s.memByte x := rfl
@[simp] theorem State.memWord_setHidden (s : State) (h : Hidden) (x : Word) : (s.setHidden h).memWord x = s.memWord x := rfl
@[simp] theorem State.tBit_setHidden (s : State) (h : Hidden) : (s.setHidden h).tBit = s.tBit := rfl
@[simp] theorem State.pri_setHidden (s : State) (h : Hidden) : (s.setHidden h).pri = s.pri := rfl
@[simp] theorem State.cc_setHidden (s : State) (h : Hidden) : (s.setHidden h).cc = s.cc := rfl
@[simp] theorem State.isHalted_setHidden (s : State) (h : Hidden) : (s.setHidden h).isHalted = s.isHalted := rfl

/-! ### `setPending` -/

@[simp] theorem State.regs_setPending (s : State) (p : Pending) : (s.setPending p).regs = s.regs := rfl
@[simp] theorem State.psw_setPending (s : State) (p : Pending) : (s.setPending p).psw = s.psw := rfl
@[simp] theorem State.ir_setPending (s : State) (p : Pending) : (s.setPending p).ir = s.ir := rfl
@[simp] theorem State.hidden_setPending (s : State) (p : Pending) : (s.setPending p).hidden = s.hidden := rfl
@[simp] theorem State.pending_setPending (s : State) (p : Pending) : (s.setPending p).pending = p := rfl
@[simp] theorem State.runState_setPending (s : State) (p : Pending) : (s.setPending p).runState = s.runState := rfl
@[simp] theorem State.mem_setPending (s : State) (p : Pending) : (s.setPending p).mem = s.mem := rfl
@[simp] theorem State.requests_setPending (s : State) (p : Pending) : (s.setPending p).requests = s.requests := rfl
@[simp] theorem State.brLatch_setPending (s : State) (p : Pending) : (s.setPending p).brLatch = s.brLatch := rfl
@[simp] theorem State.haltRequest_setPending (s : State) (p : Pending) : (s.setPending p).haltRequest = s.haltRequest := rfl
@[simp] theorem State.haltPassed_setPending (s : State) (p : Pending) : (s.setPending p).haltPassed = s.haltPassed := rfl
@[simp] theorem State.power_setPending (s : State) (p : Pending) : (s.setPending p).power = s.power := rfl
@[simp] theorem State.agenda_setPending (s : State) (p : Pending) : (s.setPending p).agenda = s.agenda := rfl
@[simp] theorem State.npr_setPending (s : State) (p : Pending) : (s.setPending p).npr = s.npr := rfl
@[simp] theorem State.deviceActs_setPending (s : State) (p : Pending) : (s.setPending p).deviceActs = s.deviceActs := rfl
@[simp] theorem State.free_setPending (s : State) (p : Pending) : (s.setPending p).free = s.free := rfl
@[simp] theorem State.inst_setPending (s : State) (p : Pending) : (s.setPending p).inst = s.inst := rfl
@[simp] theorem State.reg_setPending (s : State) (p : Pending) (q : Reg) : (s.setPending p).reg q = s.reg q := rfl
@[simp] theorem State.memByte_setPending (s : State) (p : Pending) (x : Word) : (s.setPending p).memByte x = s.memByte x := rfl
@[simp] theorem State.memWord_setPending (s : State) (p : Pending) (x : Word) : (s.setPending p).memWord x = s.memWord x := rfl
@[simp] theorem State.tBit_setPending (s : State) (p : Pending) : (s.setPending p).tBit = s.tBit := rfl
@[simp] theorem State.pri_setPending (s : State) (p : Pending) : (s.setPending p).pri = s.pri := rfl
@[simp] theorem State.cc_setPending (s : State) (p : Pending) : (s.setPending p).cc = s.cc := rfl
@[simp] theorem State.isHalted_setPending (s : State) (p : Pending) : (s.setPending p).isHalted = s.isHalted := rfl

/-! ### `setTrace` -/

@[simp] theorem State.regs_setTrace (s : State) (t : Bool) : (s.setTrace t).regs = s.regs := rfl
@[simp] theorem State.psw_setTrace (s : State) (t : Bool) : (s.setTrace t).psw = s.psw := rfl
@[simp] theorem State.ir_setTrace (s : State) (t : Bool) : (s.setTrace t).ir = s.ir := rfl
@[simp] theorem State.hidden_setTrace (s : State) (t : Bool) : (s.setTrace t).hidden = s.hidden := rfl
@[simp] theorem State.pending_setTrace (s : State) (t : Bool) : (s.setTrace t).pending = { s.pending with trace := t } := rfl
@[simp] theorem State.runState_setTrace (s : State) (t : Bool) : (s.setTrace t).runState = s.runState := rfl
@[simp] theorem State.mem_setTrace (s : State) (t : Bool) : (s.setTrace t).mem = s.mem := rfl
@[simp] theorem State.requests_setTrace (s : State) (t : Bool) : (s.setTrace t).requests = s.requests := rfl
@[simp] theorem State.brLatch_setTrace (s : State) (t : Bool) : (s.setTrace t).brLatch = s.brLatch := rfl
@[simp] theorem State.haltRequest_setTrace (s : State) (t : Bool) : (s.setTrace t).haltRequest = s.haltRequest := rfl
@[simp] theorem State.haltPassed_setTrace (s : State) (t : Bool) : (s.setTrace t).haltPassed = s.haltPassed := rfl
@[simp] theorem State.power_setTrace (s : State) (t : Bool) : (s.setTrace t).power = s.power := rfl
@[simp] theorem State.agenda_setTrace (s : State) (t : Bool) : (s.setTrace t).agenda = s.agenda := rfl
@[simp] theorem State.npr_setTrace (s : State) (t : Bool) : (s.setTrace t).npr = s.npr := rfl
@[simp] theorem State.deviceActs_setTrace (s : State) (t : Bool) : (s.setTrace t).deviceActs = s.deviceActs := rfl
@[simp] theorem State.free_setTrace (s : State) (t : Bool) : (s.setTrace t).free = s.free := rfl
@[simp] theorem State.inst_setTrace (s : State) (t : Bool) : (s.setTrace t).inst = s.inst := rfl
@[simp] theorem State.reg_setTrace (s : State) (t : Bool) (q : Reg) : (s.setTrace t).reg q = s.reg q := rfl
@[simp] theorem State.memByte_setTrace (s : State) (t : Bool) (x : Word) : (s.setTrace t).memByte x = s.memByte x := rfl
@[simp] theorem State.memWord_setTrace (s : State) (t : Bool) (x : Word) : (s.setTrace t).memWord x = s.memWord x := rfl
@[simp] theorem State.tBit_setTrace (s : State) (t : Bool) : (s.setTrace t).tBit = s.tBit := rfl
@[simp] theorem State.pri_setTrace (s : State) (t : Bool) : (s.setTrace t).pri = s.pri := rfl
@[simp] theorem State.cc_setTrace (s : State) (t : Bool) : (s.setTrace t).cc = s.cc := rfl
@[simp] theorem State.isHalted_setTrace (s : State) (t : Bool) : (s.setTrace t).isHalted = s.isHalted := rfl

/-! ### `setRunState` -/

@[simp] theorem State.regs_setRunState (s : State) (y : RunState) : (s.setRunState y).regs = s.regs := rfl
@[simp] theorem State.psw_setRunState (s : State) (y : RunState) : (s.setRunState y).psw = s.psw := rfl
@[simp] theorem State.ir_setRunState (s : State) (y : RunState) : (s.setRunState y).ir = s.ir := rfl
@[simp] theorem State.hidden_setRunState (s : State) (y : RunState) : (s.setRunState y).hidden = s.hidden := rfl
@[simp] theorem State.pending_setRunState (s : State) (y : RunState) : (s.setRunState y).pending = s.pending := rfl
@[simp] theorem State.runState_setRunState (s : State) (y : RunState) : (s.setRunState y).runState = y := rfl
@[simp] theorem State.mem_setRunState (s : State) (y : RunState) : (s.setRunState y).mem = s.mem := rfl
@[simp] theorem State.requests_setRunState (s : State) (y : RunState) : (s.setRunState y).requests = s.requests := rfl
@[simp] theorem State.brLatch_setRunState (s : State) (y : RunState) : (s.setRunState y).brLatch = s.brLatch := rfl
@[simp] theorem State.haltRequest_setRunState (s : State) (y : RunState) : (s.setRunState y).haltRequest = s.haltRequest := rfl
@[simp] theorem State.haltPassed_setRunState (s : State) (y : RunState) : (s.setRunState y).haltPassed = s.haltPassed := rfl
@[simp] theorem State.power_setRunState (s : State) (y : RunState) : (s.setRunState y).power = s.power := rfl
@[simp] theorem State.agenda_setRunState (s : State) (y : RunState) : (s.setRunState y).agenda = s.agenda := rfl
@[simp] theorem State.npr_setRunState (s : State) (y : RunState) : (s.setRunState y).npr = s.npr := rfl
@[simp] theorem State.deviceActs_setRunState (s : State) (y : RunState) : (s.setRunState y).deviceActs = s.deviceActs := rfl
@[simp] theorem State.free_setRunState (s : State) (y : RunState) : (s.setRunState y).free = s.free := rfl
@[simp] theorem State.inst_setRunState (s : State) (y : RunState) : (s.setRunState y).inst = s.inst := rfl
@[simp] theorem State.reg_setRunState (s : State) (y : RunState) (q : Reg) : (s.setRunState y).reg q = s.reg q := rfl
@[simp] theorem State.memByte_setRunState (s : State) (y : RunState) (x : Word) : (s.setRunState y).memByte x = s.memByte x := rfl
@[simp] theorem State.memWord_setRunState (s : State) (y : RunState) (x : Word) : (s.setRunState y).memWord x = s.memWord x := rfl
@[simp] theorem State.tBit_setRunState (s : State) (y : RunState) : (s.setRunState y).tBit = s.tBit := rfl
@[simp] theorem State.pri_setRunState (s : State) (y : RunState) : (s.setRunState y).pri = s.pri := rfl
@[simp] theorem State.cc_setRunState (s : State) (y : RunState) : (s.setRunState y).cc = s.cc := rfl

/-! ### `setMem` -/

@[simp] theorem State.regs_setMem (s : State) (m : Memory) : (s.setMem m).regs = s.regs := rfl
@[simp] theorem State.psw_setMem (s : State) (m : Memory) : (s.setMem m).psw = s.psw := rfl
@[simp] theorem State.ir_setMem (s : State) (m : Memory) : (s.setMem m).ir = s.ir := rfl
@[simp] theorem State.hidden_setMem (s : State) (m : Memory) : (s.setMem m).hidden = s.hidden := rfl
@[simp] theorem State.pending_setMem (s : State) (m : Memory) : (s.setMem m).pending = s.pending := rfl
@[simp] theorem State.runState_setMem (s : State) (m : Memory) : (s.setMem m).runState = s.runState := rfl
@[simp] theorem State.mem_setMem (s : State) (m : Memory) : (s.setMem m).mem = m := rfl
@[simp] theorem State.requests_setMem (s : State) (m : Memory) : (s.setMem m).requests = s.requests := rfl
@[simp] theorem State.brLatch_setMem (s : State) (m : Memory) : (s.setMem m).brLatch = s.brLatch := rfl
@[simp] theorem State.haltRequest_setMem (s : State) (m : Memory) : (s.setMem m).haltRequest = s.haltRequest := rfl
@[simp] theorem State.haltPassed_setMem (s : State) (m : Memory) : (s.setMem m).haltPassed = s.haltPassed := rfl
@[simp] theorem State.power_setMem (s : State) (m : Memory) : (s.setMem m).power = s.power := rfl
@[simp] theorem State.agenda_setMem (s : State) (m : Memory) : (s.setMem m).agenda = s.agenda := rfl
@[simp] theorem State.npr_setMem (s : State) (m : Memory) : (s.setMem m).npr = s.npr := rfl
@[simp] theorem State.deviceActs_setMem (s : State) (m : Memory) : (s.setMem m).deviceActs = s.deviceActs := rfl
@[simp] theorem State.free_setMem (s : State) (m : Memory) : (s.setMem m).free = s.free := rfl
@[simp] theorem State.inst_setMem (s : State) (m : Memory) : (s.setMem m).inst = s.inst := rfl
@[simp] theorem State.reg_setMem (s : State) (m : Memory) (q : Reg) : (s.setMem m).reg q = s.reg q := rfl
@[simp] theorem State.tBit_setMem (s : State) (m : Memory) : (s.setMem m).tBit = s.tBit := rfl
@[simp] theorem State.pri_setMem (s : State) (m : Memory) : (s.setMem m).pri = s.pri := rfl
@[simp] theorem State.cc_setMem (s : State) (m : Memory) : (s.setMem m).cc = s.cc := rfl
@[simp] theorem State.isHalted_setMem (s : State) (m : Memory) : (s.setMem m).isHalted = s.isHalted := rfl

/-! ### `setMemByte` -/

@[simp] theorem State.regs_setMemByte (s : State) (a : Word) (b : Byte) : (s.setMemByte a b).regs = s.regs := rfl
@[simp] theorem State.psw_setMemByte (s : State) (a : Word) (b : Byte) : (s.setMemByte a b).psw = s.psw := rfl
@[simp] theorem State.ir_setMemByte (s : State) (a : Word) (b : Byte) : (s.setMemByte a b).ir = s.ir := rfl
@[simp] theorem State.hidden_setMemByte (s : State) (a : Word) (b : Byte) : (s.setMemByte a b).hidden = s.hidden := rfl
@[simp] theorem State.pending_setMemByte (s : State) (a : Word) (b : Byte) : (s.setMemByte a b).pending = s.pending := rfl
@[simp] theorem State.runState_setMemByte (s : State) (a : Word) (b : Byte) : (s.setMemByte a b).runState = s.runState := rfl
@[simp] theorem State.mem_setMemByte (s : State) (a : Word) (b : Byte) : (s.setMemByte a b).mem = s.mem.write a.toNat b := rfl
@[simp] theorem State.requests_setMemByte (s : State) (a : Word) (b : Byte) : (s.setMemByte a b).requests = s.requests := rfl
@[simp] theorem State.brLatch_setMemByte (s : State) (a : Word) (b : Byte) : (s.setMemByte a b).brLatch = s.brLatch := rfl
@[simp] theorem State.haltRequest_setMemByte (s : State) (a : Word) (b : Byte) : (s.setMemByte a b).haltRequest = s.haltRequest := rfl
@[simp] theorem State.haltPassed_setMemByte (s : State) (a : Word) (b : Byte) : (s.setMemByte a b).haltPassed = s.haltPassed := rfl
@[simp] theorem State.power_setMemByte (s : State) (a : Word) (b : Byte) : (s.setMemByte a b).power = s.power := rfl
@[simp] theorem State.agenda_setMemByte (s : State) (a : Word) (b : Byte) : (s.setMemByte a b).agenda = s.agenda := rfl
@[simp] theorem State.npr_setMemByte (s : State) (a : Word) (b : Byte) : (s.setMemByte a b).npr = s.npr := rfl
@[simp] theorem State.deviceActs_setMemByte (s : State) (a : Word) (b : Byte) : (s.setMemByte a b).deviceActs = s.deviceActs := rfl
@[simp] theorem State.free_setMemByte (s : State) (a : Word) (b : Byte) : (s.setMemByte a b).free = s.free := rfl
@[simp] theorem State.inst_setMemByte (s : State) (a : Word) (b : Byte) : (s.setMemByte a b).inst = s.inst := rfl
@[simp] theorem State.reg_setMemByte (s : State) (a : Word) (b : Byte) (q : Reg) : (s.setMemByte a b).reg q = s.reg q := rfl
@[simp] theorem State.tBit_setMemByte (s : State) (a : Word) (b : Byte) : (s.setMemByte a b).tBit = s.tBit := rfl
@[simp] theorem State.pri_setMemByte (s : State) (a : Word) (b : Byte) : (s.setMemByte a b).pri = s.pri := rfl
@[simp] theorem State.cc_setMemByte (s : State) (a : Word) (b : Byte) : (s.setMemByte a b).cc = s.cc := rfl
@[simp] theorem State.isHalted_setMemByte (s : State) (a : Word) (b : Byte) : (s.setMemByte a b).isHalted = s.isHalted := rfl

/-! ### `setMemWord` -/

@[simp] theorem State.regs_setMemWord (s : State) (a v : Word) : (s.setMemWord a v).regs = s.regs := rfl
@[simp] theorem State.psw_setMemWord (s : State) (a v : Word) : (s.setMemWord a v).psw = s.psw := rfl
@[simp] theorem State.ir_setMemWord (s : State) (a v : Word) : (s.setMemWord a v).ir = s.ir := rfl
@[simp] theorem State.hidden_setMemWord (s : State) (a v : Word) : (s.setMemWord a v).hidden = s.hidden := rfl
@[simp] theorem State.pending_setMemWord (s : State) (a v : Word) : (s.setMemWord a v).pending = s.pending := rfl
@[simp] theorem State.runState_setMemWord (s : State) (a v : Word) : (s.setMemWord a v).runState = s.runState := rfl
@[simp] theorem State.mem_setMemWord (s : State) (a v : Word) : (s.setMemWord a v).mem = (s.mem.write a.toNat (lowByte v)).write (a + 1).toNat (highByte v) := rfl
@[simp] theorem State.requests_setMemWord (s : State) (a v : Word) : (s.setMemWord a v).requests = s.requests := rfl
@[simp] theorem State.brLatch_setMemWord (s : State) (a v : Word) : (s.setMemWord a v).brLatch = s.brLatch := rfl
@[simp] theorem State.haltRequest_setMemWord (s : State) (a v : Word) : (s.setMemWord a v).haltRequest = s.haltRequest := rfl
@[simp] theorem State.haltPassed_setMemWord (s : State) (a v : Word) : (s.setMemWord a v).haltPassed = s.haltPassed := rfl
@[simp] theorem State.power_setMemWord (s : State) (a v : Word) : (s.setMemWord a v).power = s.power := rfl
@[simp] theorem State.agenda_setMemWord (s : State) (a v : Word) : (s.setMemWord a v).agenda = s.agenda := rfl
@[simp] theorem State.npr_setMemWord (s : State) (a v : Word) : (s.setMemWord a v).npr = s.npr := rfl
@[simp] theorem State.deviceActs_setMemWord (s : State) (a v : Word) : (s.setMemWord a v).deviceActs = s.deviceActs := rfl
@[simp] theorem State.free_setMemWord (s : State) (a v : Word) : (s.setMemWord a v).free = s.free := rfl
@[simp] theorem State.inst_setMemWord (s : State) (a v : Word) : (s.setMemWord a v).inst = s.inst := rfl
@[simp] theorem State.reg_setMemWord (s : State) (a v : Word) (q : Reg) : (s.setMemWord a v).reg q = s.reg q := rfl
@[simp] theorem State.tBit_setMemWord (s : State) (a v : Word) : (s.setMemWord a v).tBit = s.tBit := rfl
@[simp] theorem State.pri_setMemWord (s : State) (a v : Word) : (s.setMemWord a v).pri = s.pri := rfl
@[simp] theorem State.cc_setMemWord (s : State) (a v : Word) : (s.setMemWord a v).cc = s.cc := rfl
@[simp] theorem State.isHalted_setMemWord (s : State) (a v : Word) : (s.setMemWord a v).isHalted = s.isHalted := rfl

/-! ### `setRequests` -/

@[simp] theorem State.regs_setRequests (s : State) (l : List Request) : (s.setRequests l).regs = s.regs := rfl
@[simp] theorem State.psw_setRequests (s : State) (l : List Request) : (s.setRequests l).psw = s.psw := rfl
@[simp] theorem State.ir_setRequests (s : State) (l : List Request) : (s.setRequests l).ir = s.ir := rfl
@[simp] theorem State.hidden_setRequests (s : State) (l : List Request) : (s.setRequests l).hidden = s.hidden := rfl
@[simp] theorem State.pending_setRequests (s : State) (l : List Request) : (s.setRequests l).pending = s.pending := rfl
@[simp] theorem State.runState_setRequests (s : State) (l : List Request) : (s.setRequests l).runState = s.runState := rfl
@[simp] theorem State.mem_setRequests (s : State) (l : List Request) : (s.setRequests l).mem = s.mem := rfl
@[simp] theorem State.requests_setRequests (s : State) (l : List Request) : (s.setRequests l).requests = l := rfl
@[simp] theorem State.brLatch_setRequests (s : State) (l : List Request) : (s.setRequests l).brLatch = s.brLatch := rfl
@[simp] theorem State.haltRequest_setRequests (s : State) (l : List Request) : (s.setRequests l).haltRequest = s.haltRequest := rfl
@[simp] theorem State.haltPassed_setRequests (s : State) (l : List Request) : (s.setRequests l).haltPassed = s.haltPassed := rfl
@[simp] theorem State.power_setRequests (s : State) (l : List Request) : (s.setRequests l).power = s.power := rfl
@[simp] theorem State.agenda_setRequests (s : State) (l : List Request) : (s.setRequests l).agenda = s.agenda := rfl
@[simp] theorem State.npr_setRequests (s : State) (l : List Request) : (s.setRequests l).npr = s.npr := rfl
@[simp] theorem State.deviceActs_setRequests (s : State) (l : List Request) : (s.setRequests l).deviceActs = s.deviceActs := rfl
@[simp] theorem State.free_setRequests (s : State) (l : List Request) : (s.setRequests l).free = s.free := rfl
@[simp] theorem State.inst_setRequests (s : State) (l : List Request) : (s.setRequests l).inst = s.inst := rfl
@[simp] theorem State.reg_setRequests (s : State) (l : List Request) (q : Reg) : (s.setRequests l).reg q = s.reg q := rfl
@[simp] theorem State.memByte_setRequests (s : State) (l : List Request) (x : Word) : (s.setRequests l).memByte x = s.memByte x := rfl
@[simp] theorem State.memWord_setRequests (s : State) (l : List Request) (x : Word) : (s.setRequests l).memWord x = s.memWord x := rfl
@[simp] theorem State.tBit_setRequests (s : State) (l : List Request) : (s.setRequests l).tBit = s.tBit := rfl
@[simp] theorem State.pri_setRequests (s : State) (l : List Request) : (s.setRequests l).pri = s.pri := rfl
@[simp] theorem State.cc_setRequests (s : State) (l : List Request) : (s.setRequests l).cc = s.cc := rfl
@[simp] theorem State.isHalted_setRequests (s : State) (l : List Request) : (s.setRequests l).isHalted = s.isHalted := rfl

/-! ### `setHaltRequest` -/

@[simp] theorem State.regs_setHaltRequest (s : State) (on : Bool) : (s.setHaltRequest on).regs = s.regs := rfl
@[simp] theorem State.psw_setHaltRequest (s : State) (on : Bool) : (s.setHaltRequest on).psw = s.psw := rfl
@[simp] theorem State.ir_setHaltRequest (s : State) (on : Bool) : (s.setHaltRequest on).ir = s.ir := rfl
@[simp] theorem State.hidden_setHaltRequest (s : State) (on : Bool) : (s.setHaltRequest on).hidden = s.hidden := rfl
@[simp] theorem State.pending_setHaltRequest (s : State) (on : Bool) : (s.setHaltRequest on).pending = s.pending := rfl
@[simp] theorem State.runState_setHaltRequest (s : State) (on : Bool) : (s.setHaltRequest on).runState = s.runState := rfl
@[simp] theorem State.mem_setHaltRequest (s : State) (on : Bool) : (s.setHaltRequest on).mem = s.mem := rfl
@[simp] theorem State.requests_setHaltRequest (s : State) (on : Bool) : (s.setHaltRequest on).requests = s.requests := rfl
@[simp] theorem State.brLatch_setHaltRequest (s : State) (on : Bool) : (s.setHaltRequest on).brLatch = s.brLatch := rfl
@[simp] theorem State.haltRequest_setHaltRequest (s : State) (on : Bool) : (s.setHaltRequest on).haltRequest = on := rfl
@[simp] theorem State.haltPassed_setHaltRequest (s : State) (on : Bool) : (s.setHaltRequest on).haltPassed = s.haltPassed := rfl
@[simp] theorem State.power_setHaltRequest (s : State) (on : Bool) : (s.setHaltRequest on).power = s.power := rfl
@[simp] theorem State.agenda_setHaltRequest (s : State) (on : Bool) : (s.setHaltRequest on).agenda = s.agenda := rfl
@[simp] theorem State.npr_setHaltRequest (s : State) (on : Bool) : (s.setHaltRequest on).npr = s.npr := rfl
@[simp] theorem State.deviceActs_setHaltRequest (s : State) (on : Bool) : (s.setHaltRequest on).deviceActs = s.deviceActs := rfl
@[simp] theorem State.free_setHaltRequest (s : State) (on : Bool) : (s.setHaltRequest on).free = s.free := rfl
@[simp] theorem State.inst_setHaltRequest (s : State) (on : Bool) : (s.setHaltRequest on).inst = s.inst := rfl
@[simp] theorem State.reg_setHaltRequest (s : State) (on : Bool) (q : Reg) : (s.setHaltRequest on).reg q = s.reg q := rfl
@[simp] theorem State.memByte_setHaltRequest (s : State) (on : Bool) (x : Word) : (s.setHaltRequest on).memByte x = s.memByte x := rfl
@[simp] theorem State.memWord_setHaltRequest (s : State) (on : Bool) (x : Word) : (s.setHaltRequest on).memWord x = s.memWord x := rfl
@[simp] theorem State.tBit_setHaltRequest (s : State) (on : Bool) : (s.setHaltRequest on).tBit = s.tBit := rfl
@[simp] theorem State.pri_setHaltRequest (s : State) (on : Bool) : (s.setHaltRequest on).pri = s.pri := rfl
@[simp] theorem State.cc_setHaltRequest (s : State) (on : Bool) : (s.setHaltRequest on).cc = s.cc := rfl
@[simp] theorem State.isHalted_setHaltRequest (s : State) (on : Bool) : (s.setHaltRequest on).isHalted = s.isHalted := rfl

/-! ### `setHaltPassed` -/

@[simp] theorem State.regs_setHaltPassed (s : State) (passed : Bool) : (s.setHaltPassed passed).regs = s.regs := rfl
@[simp] theorem State.psw_setHaltPassed (s : State) (passed : Bool) : (s.setHaltPassed passed).psw = s.psw := rfl
@[simp] theorem State.ir_setHaltPassed (s : State) (passed : Bool) : (s.setHaltPassed passed).ir = s.ir := rfl
@[simp] theorem State.hidden_setHaltPassed (s : State) (passed : Bool) : (s.setHaltPassed passed).hidden = s.hidden := rfl
@[simp] theorem State.pending_setHaltPassed (s : State) (passed : Bool) : (s.setHaltPassed passed).pending = s.pending := rfl
@[simp] theorem State.runState_setHaltPassed (s : State) (passed : Bool) : (s.setHaltPassed passed).runState = s.runState := rfl
@[simp] theorem State.mem_setHaltPassed (s : State) (passed : Bool) : (s.setHaltPassed passed).mem = s.mem := rfl
@[simp] theorem State.requests_setHaltPassed (s : State) (passed : Bool) : (s.setHaltPassed passed).requests = s.requests := rfl
@[simp] theorem State.brLatch_setHaltPassed (s : State) (passed : Bool) : (s.setHaltPassed passed).brLatch = s.brLatch := rfl
@[simp] theorem State.haltRequest_setHaltPassed (s : State) (passed : Bool) : (s.setHaltPassed passed).haltRequest = s.haltRequest := rfl
@[simp] theorem State.haltPassed_setHaltPassed (s : State) (passed : Bool) : (s.setHaltPassed passed).haltPassed = passed := rfl
@[simp] theorem State.power_setHaltPassed (s : State) (passed : Bool) : (s.setHaltPassed passed).power = s.power := rfl
@[simp] theorem State.agenda_setHaltPassed (s : State) (passed : Bool) : (s.setHaltPassed passed).agenda = s.agenda := rfl
@[simp] theorem State.npr_setHaltPassed (s : State) (passed : Bool) : (s.setHaltPassed passed).npr = s.npr := rfl
@[simp] theorem State.deviceActs_setHaltPassed (s : State) (passed : Bool) : (s.setHaltPassed passed).deviceActs = s.deviceActs := rfl
@[simp] theorem State.free_setHaltPassed (s : State) (passed : Bool) : (s.setHaltPassed passed).free = s.free := rfl
@[simp] theorem State.inst_setHaltPassed (s : State) (passed : Bool) : (s.setHaltPassed passed).inst = s.inst := rfl
@[simp] theorem State.reg_setHaltPassed (s : State) (passed : Bool) (q : Reg) : (s.setHaltPassed passed).reg q = s.reg q := rfl
@[simp] theorem State.memByte_setHaltPassed (s : State) (passed : Bool) (x : Word) : (s.setHaltPassed passed).memByte x = s.memByte x := rfl
@[simp] theorem State.memWord_setHaltPassed (s : State) (passed : Bool) (x : Word) : (s.setHaltPassed passed).memWord x = s.memWord x := rfl
@[simp] theorem State.tBit_setHaltPassed (s : State) (passed : Bool) : (s.setHaltPassed passed).tBit = s.tBit := rfl
@[simp] theorem State.pri_setHaltPassed (s : State) (passed : Bool) : (s.setHaltPassed passed).pri = s.pri := rfl
@[simp] theorem State.cc_setHaltPassed (s : State) (passed : Bool) : (s.setHaltPassed passed).cc = s.cc := rfl
@[simp] theorem State.isHalted_setHaltPassed (s : State) (passed : Bool) : (s.setHaltPassed passed).isHalted = s.isHalted := rfl

/-! ### `setBrLatch` -/

@[simp] theorem State.regs_setBrLatch (s : State) (l : BrLatch) : (s.setBrLatch l).regs = s.regs := rfl
@[simp] theorem State.psw_setBrLatch (s : State) (l : BrLatch) : (s.setBrLatch l).psw = s.psw := rfl
@[simp] theorem State.ir_setBrLatch (s : State) (l : BrLatch) : (s.setBrLatch l).ir = s.ir := rfl
@[simp] theorem State.hidden_setBrLatch (s : State) (l : BrLatch) : (s.setBrLatch l).hidden = s.hidden := rfl
@[simp] theorem State.pending_setBrLatch (s : State) (l : BrLatch) : (s.setBrLatch l).pending = s.pending := rfl
@[simp] theorem State.runState_setBrLatch (s : State) (l : BrLatch) : (s.setBrLatch l).runState = s.runState := rfl
@[simp] theorem State.mem_setBrLatch (s : State) (l : BrLatch) : (s.setBrLatch l).mem = s.mem := rfl
@[simp] theorem State.requests_setBrLatch (s : State) (l : BrLatch) : (s.setBrLatch l).requests = s.requests := rfl
@[simp] theorem State.brLatch_setBrLatch (s : State) (l : BrLatch) : (s.setBrLatch l).brLatch = l := rfl
@[simp] theorem State.haltRequest_setBrLatch (s : State) (l : BrLatch) : (s.setBrLatch l).haltRequest = s.haltRequest := rfl
@[simp] theorem State.haltPassed_setBrLatch (s : State) (l : BrLatch) : (s.setBrLatch l).haltPassed = s.haltPassed := rfl
@[simp] theorem State.power_setBrLatch (s : State) (l : BrLatch) : (s.setBrLatch l).power = s.power := rfl
@[simp] theorem State.agenda_setBrLatch (s : State) (l : BrLatch) : (s.setBrLatch l).agenda = s.agenda := rfl
@[simp] theorem State.npr_setBrLatch (s : State) (l : BrLatch) : (s.setBrLatch l).npr = s.npr := rfl
@[simp] theorem State.deviceActs_setBrLatch (s : State) (l : BrLatch) : (s.setBrLatch l).deviceActs = s.deviceActs := rfl
@[simp] theorem State.free_setBrLatch (s : State) (l : BrLatch) : (s.setBrLatch l).free = s.free := rfl
@[simp] theorem State.inst_setBrLatch (s : State) (l : BrLatch) : (s.setBrLatch l).inst = s.inst := rfl
@[simp] theorem State.reg_setBrLatch (s : State) (l : BrLatch) (q : Reg) : (s.setBrLatch l).reg q = s.reg q := rfl
@[simp] theorem State.memByte_setBrLatch (s : State) (l : BrLatch) (x : Word) : (s.setBrLatch l).memByte x = s.memByte x := rfl
@[simp] theorem State.memWord_setBrLatch (s : State) (l : BrLatch) (x : Word) : (s.setBrLatch l).memWord x = s.memWord x := rfl
@[simp] theorem State.tBit_setBrLatch (s : State) (l : BrLatch) : (s.setBrLatch l).tBit = s.tBit := rfl
@[simp] theorem State.pri_setBrLatch (s : State) (l : BrLatch) : (s.setBrLatch l).pri = s.pri := rfl
@[simp] theorem State.cc_setBrLatch (s : State) (l : BrLatch) : (s.setBrLatch l).cc = s.cc := rfl
@[simp] theorem State.isHalted_setBrLatch (s : State) (l : BrLatch) : (s.setBrLatch l).isHalted = s.isHalted := rfl

/-! ### `latchRequests` -/

@[simp] theorem State.regs_latchRequests (s : State) : s.latchRequests.regs = s.regs := rfl
@[simp] theorem State.psw_latchRequests (s : State) : s.latchRequests.psw = s.psw := rfl
@[simp] theorem State.ir_latchRequests (s : State) : s.latchRequests.ir = s.ir := rfl
@[simp] theorem State.hidden_latchRequests (s : State) : s.latchRequests.hidden = s.hidden := rfl
@[simp] theorem State.pending_latchRequests (s : State) : s.latchRequests.pending = s.pending := rfl
@[simp] theorem State.runState_latchRequests (s : State) : s.latchRequests.runState = s.runState := rfl
@[simp] theorem State.mem_latchRequests (s : State) : s.latchRequests.mem = s.mem := rfl
@[simp] theorem State.requests_latchRequests (s : State) : s.latchRequests.requests = s.requests := rfl
@[simp] theorem State.brLatch_latchRequests (s : State) : s.latchRequests.brLatch = s.brLines := rfl
@[simp] theorem State.haltRequest_latchRequests (s : State) : s.latchRequests.haltRequest = s.haltRequest := rfl
@[simp] theorem State.haltPassed_latchRequests (s : State) : s.latchRequests.haltPassed = s.haltPassed := rfl
@[simp] theorem State.power_latchRequests (s : State) : s.latchRequests.power = s.power := rfl
@[simp] theorem State.agenda_latchRequests (s : State) : s.latchRequests.agenda = s.agenda := rfl
@[simp] theorem State.npr_latchRequests (s : State) : s.latchRequests.npr = s.npr := rfl
@[simp] theorem State.deviceActs_latchRequests (s : State) : s.latchRequests.deviceActs = s.deviceActs := rfl
@[simp] theorem State.free_latchRequests (s : State) : s.latchRequests.free = s.free := rfl
@[simp] theorem State.inst_latchRequests (s : State) : s.latchRequests.inst = s.inst := rfl
@[simp] theorem State.reg_latchRequests (s : State) (q : Reg) : s.latchRequests.reg q = s.reg q := rfl
@[simp] theorem State.memByte_latchRequests (s : State) (x : Word) : s.latchRequests.memByte x = s.memByte x := rfl
@[simp] theorem State.memWord_latchRequests (s : State) (x : Word) : s.latchRequests.memWord x = s.memWord x := rfl
@[simp] theorem State.tBit_latchRequests (s : State) : s.latchRequests.tBit = s.tBit := rfl
@[simp] theorem State.pri_latchRequests (s : State) : s.latchRequests.pri = s.pri := rfl
@[simp] theorem State.cc_latchRequests (s : State) : s.latchRequests.cc = s.cc := rfl
@[simp] theorem State.isHalted_latchRequests (s : State) : s.latchRequests.isHalted = s.isHalted := rfl

/-! ### `devicesAct` -/

@[simp] theorem State.regs_devicesAct (s : State) : s.devicesAct.regs = s.regs := rfl
@[simp] theorem State.psw_devicesAct (s : State) : s.devicesAct.psw = s.psw := rfl
@[simp] theorem State.ir_devicesAct (s : State) : s.devicesAct.ir = s.ir := rfl
@[simp] theorem State.hidden_devicesAct (s : State) : s.devicesAct.hidden = s.hidden := rfl
@[simp] theorem State.pending_devicesAct (s : State) : s.devicesAct.pending = s.pending := rfl
@[simp] theorem State.runState_devicesAct (s : State) : s.devicesAct.runState = s.runState := rfl
@[simp] theorem State.mem_devicesAct (s : State) : s.devicesAct.mem = s.mem := rfl
@[simp] theorem State.requests_devicesAct (s : State) :
    s.devicesAct.requests = s.deviceActs.foldl (fun l a => a.apply l) s.requests := rfl
@[simp] theorem State.brLatch_devicesAct (s : State) : s.devicesAct.brLatch = s.brLatch := rfl
@[simp] theorem State.haltRequest_devicesAct (s : State) : s.devicesAct.haltRequest = s.haltRequest := rfl
@[simp] theorem State.haltPassed_devicesAct (s : State) : s.devicesAct.haltPassed = s.haltPassed := rfl
@[simp] theorem State.power_devicesAct (s : State) : s.devicesAct.power = s.power := rfl
@[simp] theorem State.agenda_devicesAct (s : State) : s.devicesAct.agenda = s.agenda := rfl
@[simp] theorem State.npr_devicesAct (s : State) : s.devicesAct.npr = s.npr := rfl
@[simp] theorem State.deviceActs_devicesAct (s : State) : s.devicesAct.deviceActs = [] := rfl
@[simp] theorem State.free_devicesAct (s : State) : s.devicesAct.free = s.free := rfl
@[simp] theorem State.inst_devicesAct (s : State) : s.devicesAct.inst = s.inst := rfl
@[simp] theorem State.reg_devicesAct (s : State) (q : Reg) : s.devicesAct.reg q = s.reg q := rfl
@[simp] theorem State.memByte_devicesAct (s : State) (x : Word) : s.devicesAct.memByte x = s.memByte x := rfl
@[simp] theorem State.memWord_devicesAct (s : State) (x : Word) : s.devicesAct.memWord x = s.memWord x := rfl
@[simp] theorem State.tBit_devicesAct (s : State) : s.devicesAct.tBit = s.tBit := rfl
@[simp] theorem State.pri_devicesAct (s : State) : s.devicesAct.pri = s.pri := rfl
@[simp] theorem State.cc_devicesAct (s : State) : s.devicesAct.cc = s.cc := rfl
@[simp] theorem State.isHalted_devicesAct (s : State) : s.devicesAct.isHalted = s.isHalted := rfl

/-! ### `enterService` -/

@[simp] theorem State.regs_enterService (s : State) : s.enterService.regs = s.regs := rfl
@[simp] theorem State.psw_enterService (s : State) : s.enterService.psw = s.psw := rfl
@[simp] theorem State.ir_enterService (s : State) : s.enterService.ir = s.ir := rfl
@[simp] theorem State.hidden_enterService (s : State) : s.enterService.hidden = s.hidden := rfl
@[simp] theorem State.pending_enterService (s : State) : s.enterService.pending = s.pending := rfl
@[simp] theorem State.runState_enterService (s : State) : s.enterService.runState = s.runState := rfl
@[simp] theorem State.mem_enterService (s : State) : s.enterService.mem = s.mem := rfl
@[simp] theorem State.requests_enterService (s : State) :
    s.enterService.requests = s.deviceActs.foldl (fun l a => a.apply l) s.requests := rfl
@[simp] theorem State.brLatch_enterService (s : State) :
    s.enterService.brLatch = if s.haltPassed then s.brLatch else s.brLines := rfl
@[simp] theorem State.haltRequest_enterService (s : State) : s.enterService.haltRequest = s.haltRequest := rfl
@[simp] theorem State.haltPassed_enterService (s : State) : s.enterService.haltPassed = s.haltPassed := rfl
@[simp] theorem State.power_enterService (s : State) : s.enterService.power = s.power := rfl
@[simp] theorem State.agenda_enterService (s : State) : s.enterService.agenda = s.agenda := rfl
@[simp] theorem State.npr_enterService (s : State) : s.enterService.npr = s.npr := rfl
@[simp] theorem State.deviceActs_enterService (s : State) : s.enterService.deviceActs = [] := rfl
@[simp] theorem State.free_enterService (s : State) : s.enterService.free = s.free := rfl
@[simp] theorem State.inst_enterService (s : State) : s.enterService.inst = s.inst := rfl
@[simp] theorem State.reg_enterService (s : State) (q : Reg) : s.enterService.reg q = s.reg q := rfl
@[simp] theorem State.memByte_enterService (s : State) (x : Word) : s.enterService.memByte x = s.memByte x := rfl
@[simp] theorem State.memWord_enterService (s : State) (x : Word) : s.enterService.memWord x = s.memWord x := rfl
@[simp] theorem State.tBit_enterService (s : State) : s.enterService.tBit = s.tBit := rfl
@[simp] theorem State.pri_enterService (s : State) : s.enterService.pri = s.pri := rfl
@[simp] theorem State.cc_enterService (s : State) : s.enterService.cc = s.cc := rfl
@[simp] theorem State.isHalted_enterService (s : State) : s.enterService.isHalted = s.isHalted := rfl

/-! ### `leaveService` -/

@[simp] theorem State.regs_leaveService (s : State)  : (s.leaveService).regs = s.regs := rfl
@[simp] theorem State.psw_leaveService (s : State)  : (s.leaveService).psw = s.psw := rfl
@[simp] theorem State.ir_leaveService (s : State)  : (s.leaveService).ir = s.ir := rfl
@[simp] theorem State.hidden_leaveService (s : State)  : (s.leaveService).hidden = s.hidden := rfl
@[simp] theorem State.pending_leaveService (s : State)  : (s.leaveService).pending = s.pending := rfl
@[simp] theorem State.runState_leaveService (s : State)  : (s.leaveService).runState = s.runState := rfl
@[simp] theorem State.mem_leaveService (s : State)  : (s.leaveService).mem = s.mem := rfl
@[simp] theorem State.requests_leaveService (s : State)  : (s.leaveService).requests = s.requests := rfl
@[simp] theorem State.brLatch_leaveService (s : State)  : (s.leaveService).brLatch = s.brLatch := rfl
@[simp] theorem State.haltRequest_leaveService (s : State)  : (s.leaveService).haltRequest = s.haltRequest := rfl
@[simp] theorem State.haltPassed_leaveService (s : State)  : (s.leaveService).haltPassed = false := rfl
@[simp] theorem State.power_leaveService (s : State)  : (s.leaveService).power = s.power := rfl
@[simp] theorem State.agenda_leaveService (s : State)  : (s.leaveService).agenda = s.agenda := rfl
@[simp] theorem State.npr_leaveService (s : State)  : (s.leaveService).npr = s.npr := rfl
@[simp] theorem State.deviceActs_leaveService (s : State)  : (s.leaveService).deviceActs = s.deviceActs := rfl
@[simp] theorem State.free_leaveService (s : State)  : (s.leaveService).free = s.free := rfl
@[simp] theorem State.inst_leaveService (s : State)  : (s.leaveService).inst = s.inst := rfl
@[simp] theorem State.reg_leaveService (s : State)  (q : Reg) : (s.leaveService).reg q = s.reg q := rfl
@[simp] theorem State.memByte_leaveService (s : State)  (x : Word) : (s.leaveService).memByte x = s.memByte x := rfl
@[simp] theorem State.memWord_leaveService (s : State)  (x : Word) : (s.leaveService).memWord x = s.memWord x := rfl
@[simp] theorem State.tBit_leaveService (s : State)  : (s.leaveService).tBit = s.tBit := rfl
@[simp] theorem State.pri_leaveService (s : State)  : (s.leaveService).pri = s.pri := rfl
@[simp] theorem State.cc_leaveService (s : State)  : (s.leaveService).cc = s.cc := rfl
@[simp] theorem State.isHalted_leaveService (s : State)  : (s.leaveService).isHalted = s.isHalted := rfl

/-! ### `setPower` -/

@[simp] theorem State.regs_setPower (s : State) (p : Power) : (s.setPower p).regs = s.regs := rfl
@[simp] theorem State.psw_setPower (s : State) (p : Power) : (s.setPower p).psw = s.psw := rfl
@[simp] theorem State.ir_setPower (s : State) (p : Power) : (s.setPower p).ir = s.ir := rfl
@[simp] theorem State.hidden_setPower (s : State) (p : Power) : (s.setPower p).hidden = s.hidden := rfl
@[simp] theorem State.pending_setPower (s : State) (p : Power) : (s.setPower p).pending = s.pending := rfl
@[simp] theorem State.runState_setPower (s : State) (p : Power) : (s.setPower p).runState = s.runState := rfl
@[simp] theorem State.mem_setPower (s : State) (p : Power) : (s.setPower p).mem = s.mem := rfl
@[simp] theorem State.requests_setPower (s : State) (p : Power) : (s.setPower p).requests = s.requests := rfl
@[simp] theorem State.brLatch_setPower (s : State) (p : Power) : (s.setPower p).brLatch = s.brLatch := rfl
@[simp] theorem State.haltRequest_setPower (s : State) (p : Power) : (s.setPower p).haltRequest = s.haltRequest := rfl
@[simp] theorem State.haltPassed_setPower (s : State) (p : Power) : (s.setPower p).haltPassed = s.haltPassed := rfl
@[simp] theorem State.power_setPower (s : State) (p : Power) : (s.setPower p).power = p := rfl
@[simp] theorem State.agenda_setPower (s : State) (p : Power) : (s.setPower p).agenda = s.agenda := rfl
@[simp] theorem State.npr_setPower (s : State) (p : Power) : (s.setPower p).npr = s.npr := rfl
@[simp] theorem State.deviceActs_setPower (s : State) (p : Power) : (s.setPower p).deviceActs = s.deviceActs := rfl
@[simp] theorem State.free_setPower (s : State) (p : Power) : (s.setPower p).free = s.free := rfl
@[simp] theorem State.inst_setPower (s : State) (p : Power) : (s.setPower p).inst = s.inst := rfl
@[simp] theorem State.reg_setPower (s : State) (p : Power) (q : Reg) : (s.setPower p).reg q = s.reg q := rfl
@[simp] theorem State.memByte_setPower (s : State) (p : Power) (x : Word) : (s.setPower p).memByte x = s.memByte x := rfl
@[simp] theorem State.memWord_setPower (s : State) (p : Power) (x : Word) : (s.setPower p).memWord x = s.memWord x := rfl
@[simp] theorem State.tBit_setPower (s : State) (p : Power) : (s.setPower p).tBit = s.tBit := rfl
@[simp] theorem State.pri_setPower (s : State) (p : Power) : (s.setPower p).pri = s.pri := rfl
@[simp] theorem State.cc_setPower (s : State) (p : Power) : (s.setPower p).cc = s.cc := rfl
@[simp] theorem State.isHalted_setPower (s : State) (p : Power) : (s.setPower p).isHalted = s.isHalted := rfl

/-! ### `useFree` -/

@[simp] theorem State.regs_useFree (s : State) (n : Nat) : (s.useFree n).regs = s.regs := rfl
@[simp] theorem State.psw_useFree (s : State) (n : Nat) : (s.useFree n).psw = s.psw := rfl
@[simp] theorem State.ir_useFree (s : State) (n : Nat) : (s.useFree n).ir = s.ir := rfl
@[simp] theorem State.hidden_useFree (s : State) (n : Nat) : (s.useFree n).hidden = s.hidden := rfl
@[simp] theorem State.pending_useFree (s : State) (n : Nat) : (s.useFree n).pending = s.pending := rfl
@[simp] theorem State.runState_useFree (s : State) (n : Nat) : (s.useFree n).runState = s.runState := rfl
@[simp] theorem State.mem_useFree (s : State) (n : Nat) : (s.useFree n).mem = s.mem := rfl
@[simp] theorem State.requests_useFree (s : State) (n : Nat) : (s.useFree n).requests = s.requests := rfl
@[simp] theorem State.brLatch_useFree (s : State) (n : Nat) : (s.useFree n).brLatch = s.brLatch := rfl
@[simp] theorem State.haltRequest_useFree (s : State) (n : Nat) : (s.useFree n).haltRequest = s.haltRequest := rfl
@[simp] theorem State.haltPassed_useFree (s : State) (n : Nat) : (s.useFree n).haltPassed = s.haltPassed := rfl
@[simp] theorem State.power_useFree (s : State) (n : Nat) : (s.useFree n).power = s.power := rfl
@[simp] theorem State.agenda_useFree (s : State) (n : Nat) : (s.useFree n).agenda = s.agenda := rfl
@[simp] theorem State.npr_useFree (s : State) (n : Nat) : (s.useFree n).npr = s.npr := rfl
@[simp] theorem State.deviceActs_useFree (s : State) (n : Nat) : (s.useFree n).deviceActs = s.deviceActs := rfl
@[simp] theorem State.free_useFree (s : State) (n : Nat) : (s.useFree n).free = s.free + n := rfl
@[simp] theorem State.inst_useFree (s : State) (n : Nat) : (s.useFree n).inst = s.inst := rfl
@[simp] theorem State.reg_useFree (s : State) (n : Nat) (q : Reg) : (s.useFree n).reg q = s.reg q := rfl
@[simp] theorem State.memByte_useFree (s : State) (n : Nat) (x : Word) : (s.useFree n).memByte x = s.memByte x := rfl
@[simp] theorem State.memWord_useFree (s : State) (n : Nat) (x : Word) : (s.useFree n).memWord x = s.memWord x := rfl
@[simp] theorem State.tBit_useFree (s : State) (n : Nat) : (s.useFree n).tBit = s.tBit := rfl
@[simp] theorem State.pri_useFree (s : State) (n : Nat) : (s.useFree n).pri = s.pri := rfl
@[simp] theorem State.cc_useFree (s : State) (n : Nat) : (s.useFree n).cc = s.cc := rfl
@[simp] theorem State.isHalted_useFree (s : State) (n : Nat) : (s.useFree n).isHalted = s.isHalted := rfl

/-! ### Registers -/

theorem State.reg_setReg (s : State) (r q : Reg) (v : Word) : (s.setReg r v).reg q = if q = r then v else s.reg q := by
  cases r <;> cases q <;> rfl

@[simp] theorem State.reg_setReg_self (s : State) (r : Reg) (v : Word) : (s.setReg r v).reg r = v := by
  cases r <;> rfl

theorem State.reg_setReg_of_ne (s : State) {r q : Reg} (v : Word) (h : q ≠ r) : (s.setReg r v).reg q = s.reg q := by
  rw [State.reg_setReg, if_neg h]

theorem State.reg_bump (s : State) (r q : Reg) (d : Word) :
    (s.bump r d).reg q = if q = r then s.reg r + d else s.reg q := State.reg_setReg s r q _

@[simp] theorem State.setReg_reg (s : State) (r : Reg) : s.setReg r (s.reg r) = s := by
  cases r <;> rfl

@[simp] theorem State.bump_zero (s : State) (r : Reg) : s.bump r 0 = s := by
  cases r <;> simp [State.bump]

@[simp] theorem State.useFree_zero (s : State) : s.useFree 0 = s := rfl

theorem State.useFree_useFree (s : State) (m n : Nat) : (s.useFree m).useFree n = s.useFree (m + n) := by
  simp [State.useFree, Nat.add_assoc]

/-! ### The PSW -/

@[simp] theorem State.cc_setCc (s : State) (f : Cc) : (s.setCc f).cc = f := by
  obtain ⟨n, z, v, c⟩ := f
  simp only [State.cc, State.psw_setCc, BitVec.getLsbD_append]
  cases n <;> cases z <;> cases v <;> cases c <;> rfl

theorem State.high_psw_setCc (s : State) (f : Cc) :
    (s.setCc f).psw.extractLsb' 4 4 = s.psw.extractLsb' 4 4 := by
  simp only [State.psw_setCc]
  generalize s.psw.extractLsb' 4 4 = x
  generalize f.bits = y
  ext i hi
  simp only [BitVec.getElem_extractLsb', BitVec.getLsbD_append]
  simp [hi]

@[simp] theorem State.tBit_setCc (s : State) (f : Cc) : (s.setCc f).tBit = s.tBit := by
  have h := congrArg (fun x : BitVec 4 => x.getLsbD 0) (s.high_psw_setCc f)
  simpa [State.tBit, BitVec.getLsbD_extractLsb'] using h

/-! ### Completion -/

@[simp] theorem State.reg_complete (s : State) (t : Bool) (q : Reg) : (s.complete t).reg q = s.reg q := rfl
@[simp] theorem State.psw_complete (s : State) (t : Bool) : (s.complete t).psw = s.psw := rfl
@[simp] theorem State.cc_complete (s : State) (t : Bool) : (s.complete t).cc = s.cc := rfl
@[simp] theorem State.tBit_complete (s : State) (t : Bool) : (s.complete t).tBit = s.tBit := rfl
@[simp] theorem State.mem_complete (s : State) (t : Bool) : (s.complete t).mem = s.mem := rfl
@[simp] theorem State.memByte_complete (s : State) (t : Bool) (x : Word) : (s.complete t).memByte x = s.memByte x := rfl
@[simp] theorem State.memWord_complete (s : State) (t : Bool) (x : Word) : (s.complete t).memWord x = s.memWord x := rfl
@[simp] theorem State.inst_complete (s : State) (t : Bool) : (s.complete t).inst = s.inst := rfl
@[simp] theorem State.hidden_complete (s : State) (t : Bool) : (s.complete t).hidden = s.hidden := rfl
@[simp] theorem State.runState_complete (s : State) (t : Bool) : (s.complete t).runState = s.runState := rfl
@[simp] theorem State.haltPassed_complete (s : State) (t : Bool) : (s.complete t).haltPassed = s.haltPassed := rfl
@[simp] theorem State.brLatch_complete (s : State) (t : Bool) : (s.complete t).brLatch = s.brLatch := rfl
@[simp] theorem State.npr_complete (s : State) (t : Bool) : (s.complete t).npr = s.npr := rfl
@[simp] theorem State.deviceActs_complete (s : State) (t : Bool) : (s.complete t).deviceActs = s.deviceActs := rfl
@[simp] theorem State.pending_complete (s : State) (t : Bool) : (s.complete t).pending =
    { s.pending with trace := s.tBit && (t || s.inst.params.traceAfterPswWrite) } := rfl

/-! ### The microprogram's temporaries -/

@[simp] theorem State.reg_useScratch (s : State) (q : Reg) : s.useScratch.reg q = s.reg q := rfl
@[simp] theorem State.psw_useScratch (s : State) : s.useScratch.psw = s.psw := rfl
@[simp] theorem State.cc_useScratch (s : State) : s.useScratch.cc = s.cc := rfl
@[simp] theorem State.tBit_useScratch (s : State) : s.useScratch.tBit = s.tBit := rfl
@[simp] theorem State.pending_useScratch (s : State) : s.useScratch.pending = s.pending := rfl
@[simp] theorem State.mem_useScratch (s : State) : s.useScratch.mem = s.mem := rfl
@[simp] theorem State.memByte_useScratch (s : State) (x : Word) : s.useScratch.memByte x = s.memByte x := rfl
@[simp] theorem State.memWord_useScratch (s : State) (x : Word) : s.useScratch.memWord x = s.memWord x := rfl
@[simp] theorem State.inst_useScratch (s : State) : s.useScratch.inst = s.inst := rfl
@[simp] theorem State.npr_useScratch (s : State) : s.useScratch.npr = s.npr := rfl
@[simp] theorem State.deviceActs_useScratch (s : State) : s.useScratch.deviceActs = s.deviceActs := rfl
@[simp] theorem State.haltPassed_useScratch (s : State) : s.useScratch.haltPassed = s.haltPassed := rfl
@[simp] theorem State.brLatch_useScratch (s : State) : s.useScratch.brLatch = s.brLatch := rfl
@[simp] theorem State.runState_useScratch (s : State) : s.useScratch.runState = s.runState := rfl
@[simp] theorem State.r13_useScratch (s : State) : s.useScratch.hidden.r13 = s.hidden.r13 := rfl

/-! ### The stack limit check -/

/-- The check sets the one flag and nothing else. -/
theorem State.checkStack_eq (s : State) : s.checkStack =
    s.setPending { s.pending with stackOverflow := s.pending.stackOverflow || stackLow (s.reg .sp) } := by
  unfold State.checkStack
  cases h : stackLow (s.reg .sp) <;> simp [State.setPending]

/-- Before a push: R6 is decremented by two, and the flag follows the check. -/
theorem State.pushDown_eq (s : State) (checked : Bool) : s.pushDown checked =
    (s.setReg .sp (s.reg .sp - 2)).setPending { s.pending with
      stackOverflow := s.pending.stackOverflow || (checked && stackLow (s.reg .sp - 2)) } := by
  cases checked <;> simp [State.pushDown, State.checkStack_eq]
  rfl

/-- The decrement of modes 4 and 5; only R6 is checked. -/
theorem State.decrement_eq (s : State) (r : Reg) (d : Word) : s.decrement r d =
    (s.setReg r (s.reg r - d)).setPending { s.pending with
      stackOverflow := s.pending.stackOverflow || (decide (r = .sp) && stackLow (s.reg r - d)) } := by
  by_cases h : r = .sp
  · subst h
    simp [State.decrement, State.checkStack_eq]
  · simp [State.decrement, h]
    rfl

end Sys2Proof.Machine
end

