-- ==== Sys2Proof/Laws/Memory.lean ====
section
/-! SUPPORT. Memory: a read gives what was last written there, other bytes keep their values, and every operation keeps
the canonical form. -/

namespace Sys2Proof.Machine

/-! ### One byte -/

/-- A write leaves every other byte alone, in any list. -/
theorem Memory.read_write_of_ne (m : Memory) {a x : Nat} (b : Byte) (h : x ≠ a) :
    (Memory.write m a b).read x = Memory.read m x := by
  induction m with
  | nil =>
    simp only [Memory.write]
    split <;> simp [Memory.read, h.symm]
  | cons c m ih =>
    obtain ⟨a', b'⟩ := c
    simp only [Memory.write]
    repeat' split
    all_goals simp_all [Memory.read, eq_comm]

/-- In a canonical list no byte below the first address is listed. -/
theorem Memory.read_of_all_gt (m : Memory) (a : Nat) (h : ∀ c ∈ m, a < c.1) : Memory.read m a = Memory.unlisted := by
  induction m with
  | nil => rfl
  | cons c m ih =>
    obtain ⟨a', b'⟩ := c
    have h1 : a < a' := h (a', b') (by simp)
    rw [Memory.read, if_neg (by omega)]
    exact ih fun c hc => h c (by simp [hc])

/-- The parts of the canonical form. -/
theorem Memory.wf_cons (a : Nat) (b : Byte) (m : Memory) :
    Memory.wf ((a, b) :: m) = true ↔
      a < 2 ^ 16 ∧ b ≠ Memory.unlisted ∧ (∀ c ∈ m, a < c.1) ∧ Memory.wf m = true := by
  simp [Memory.wf, and_assoc]

/-- A read after a write to the same address gives the value written. -/
theorem Memory.read_write_self (m : Memory) (a : Nat) (b : Byte) (h : m.wf = true) : (m.write a b).read a = b := by
  induction m with
  | nil =>
    by_cases hb : b = Memory.unlisted <;> simp [Memory.write, Memory.read, hb]
  | cons c m ih =>
    obtain ⟨a', b'⟩ := c
    obtain ⟨-, -, hgt, hwf⟩ := (Memory.wf_cons a' b' m).1 h
    simp only [Memory.write]
    by_cases h1 : a < a'
    · by_cases hb : b = Memory.unlisted
      · simp only [h1, hb, if_true, Memory.read, if_neg (show a' ≠ a by omega)]
        exact Memory.read_of_all_gt m a fun c hc => lt_trans h1 (hgt c hc)
      · simp [h1, hb, Memory.read]
    · by_cases h2 : a = a'
      · subst h2
        by_cases hb : b = Memory.unlisted
        · simp only [lt_irrefl, hb, if_true, if_false]
          exact Memory.read_of_all_gt m a hgt
        · simp [hb, Memory.read]
      · simp [h1, h2, Memory.read, Ne.symm h2, ih hwf]

/-- What a write lists was listed before, or is the byte written. -/
theorem Memory.mem_write {m : Memory} {a : Nat} {b : Byte} {c : Host.Cell} (h : c ∈ m.write a b) : c ∈ m ∨ c = (a, b) := by
  induction m with
  | nil =>
    simp only [Memory.write] at h
    split at h <;> simp_all
  | cons d m ih =>
    obtain ⟨a', b'⟩ := d
    simp only [Memory.write] at h
    repeat' split at h
    all_goals simp_all
    all_goals tauto

/-- A write keeps the canonical form. -/
theorem Memory.wf_write (m : Memory) (a : Nat) (b : Byte) (ha : a < 2 ^ 16) (h : m.wf = true) :
    (m.write a b).wf = true := by
  induction m with
  | nil =>
    by_cases hb : b = Memory.unlisted <;> simp [Memory.write, Memory.wf, hb]
    omega
  | cons c m ih =>
    obtain ⟨a', b'⟩ := c
    obtain ⟨h16, hne, hgt, hwf⟩ := (Memory.wf_cons a' b' m).1 h
    simp only [Memory.write]
    by_cases h1 : a < a'
    · by_cases hb : b = Memory.unlisted
      · simpa [h1, hb] using h
      · rw [if_pos h1, if_neg hb, Memory.wf_cons]
        refine ⟨ha, hb, fun c hc => ?_, h⟩
        rcases List.mem_cons.1 hc with rfl | hc
        · exact h1
        · exact lt_trans h1 (hgt c hc)
    · by_cases h2 : a = a'
      · subst h2
        by_cases hb : b = Memory.unlisted
        · simpa [hb] using hwf
        · rw [if_neg h1, if_pos rfl, if_neg hb, Memory.wf_cons]
          exact ⟨ha, hb, hgt, hwf⟩
      · rw [if_neg h1, if_neg h2, Memory.wf_cons]
        refine ⟨h16, hne, fun c hc => ?_, ih hwf⟩
        rcases Memory.mem_write hc with hc | rfl
        · exact hgt c hc
        · show a' < a
          omega

/-! ### Bytes and words of the state -/

theorem State.memByte_setMemByte_self (s : State) (a : Word) (b : Byte) (h : s.mem.wf = true) :
    (s.setMemByte a b).memByte a = b := Memory.read_write_self _ _ _ h

theorem State.memByte_setMemByte_of_ne (s : State) {a x : Word} (b : Byte) (h : x ≠ a) :
    (s.setMemByte a b).memByte x = s.memByte x :=
  Memory.read_write_of_ne _ _ fun e => h (BitVec.eq_of_toNat_eq e)

theorem State.memByte_setMemWord_of_ne (s : State) {a x : Word} (v : Word) (h : x ≠ a) (h' : x ≠ a + 1) :
    (s.setMemWord a v).memByte x = s.memByte x := by
  rw [State.setMemWord, State.memByte_setMemByte_of_ne _ _ h', State.memByte_setMemByte_of_ne _ _ h]

theorem succ_ne (a : Word) : a + 1 ≠ a := by
  intro h
  have := congrArg BitVec.toNat h
  rw [BitVec.toNat_add, show ((1 : Word)).toNat = 1 from rfl] at this
  have := a.isLt
  omega

theorem append_high_low (v : Word) : (highByte v ++ lowByte v : Word) = v := by
  ext i hi
  simp only [highByte, lowByte, BitVec.getElem_append, BitVec.getElem_extractLsb']
  split <;> simp [BitVec.getLsbD_eq_getElem, hi]
  rename_i h
  simp [show 8 + (i - 8) = i by omega, BitVec.getLsbD_eq_getElem, hi]

/-- A word read after it was stored gives the word. -/
theorem State.memWord_setMemWord_self (s : State) (a v : Word) (h : s.mem.wf = true) :
    (s.setMemWord a v).memWord a = v := by
  have h1 : (s.setMemByte a (lowByte v)).mem.wf = true := Memory.wf_write _ _ _ a.isLt h
  rw [State.memWord, State.setMemWord, State.memByte_setMemByte_self _ _ _ h1,
    State.memByte_setMemByte_of_ne _ _ (succ_ne a).symm, State.memByte_setMemByte_self _ _ _ h, append_high_low]

/-! ### The canonical form of the state's memory -/

theorem State.wf_setMemByte (s : State) (a : Word) (b : Byte) (h : s.mem.wf = true) : (s.setMemByte a b).mem.wf = true :=
  Memory.wf_write _ _ _ a.isLt h

theorem State.wf_setMemWord (s : State) (a v : Word) (h : s.mem.wf = true) : (s.setMemWord a v).mem.wf = true :=
  State.wf_setMemByte _ _ _ (State.wf_setMemByte s a _ h)

/-- Placing an instruction keeps the canonical form. -/
theorem storeBytes_wf (m : Memory) (a : Word) (l : List Byte) (h : m.wf = true) : (storeBytes m a l).wf = true := by
  induction l generalizing m a with
  | nil => exact h
  | cons b l ih => exact ih _ _ (Memory.wf_write _ _ _ a.isLt h)

/-- The memory of the reset state is canonical. -/
theorem reset_mem_wf : State.reset.mem.wf = true := rfl

end Sys2Proof.Machine
end

