-- ==== Sys2Proof/Laws/Closed.lean ====
section
/-! SUPPORT. The induction over the machine, once: a property of states that no single update breaks is kept by every
step. -/

namespace Sys2Proof.Machine

open Sys2Proof.Config

/-- No single update that a transfer or an operand access makes breaks `P`: the registers, the PSW, the temporaries, the
flags and the model's counters may become anything, and memory changes only where it answers and stands behind no address
of the processor's own. -/
structure ClosedData (P : State → Prop) : Prop where
  regs : ∀ s g, P s → P { s with regs := g }
  psw : ∀ s v, P s → P { s with psw := v }
  hidden : ∀ s v, P s → P { s with hidden := v }
  pending : ∀ s v, P s → P { s with pending := v }
  npr : ∀ s v, P s → P { s with npr := v }
  free : ∀ s v, P s → P { s with free := v }
  memByte : ∀ s a v, P s → evenAddr a ≠ pswAddress → isRegisterAddress a = false →
    answer s.inst .datob (evenAddr a) = some .memory → P (s.setMemByte a v)
  memWord : ∀ s a v, P s → isOdd a = false → a ≠ pswAddress → isRegisterAddress a = false →
    answer s.inst .dato a = some .memory → P (s.setMemWord a v)

/-- Nor does an update of IR, of the run state or of the latched bus requests, which fetching, trapping and halting make
besides. -/
structure ClosedCore (P : State → Prop) : Prop extends ClosedData P where
  ir : ∀ s v, P s → P { s with ir := v }
  runState : ∀ s v, P s → P { s with runState := v }
  brLatch : ∀ s v, P s → P { s with brLatch := v }

/-- Nor does an update of the lines, the requests, the agenda or the devices' acts, nor the loss of memory. -/
structure Closed (P : State → Prop) : Prop extends ClosedCore P where
  requests : ∀ s v, P s → P { s with requests := v }
  haltRequest : ∀ s v, P s → P { s with haltRequest := v }
  haltPassed : ∀ s v, P s → P { s with haltPassed := v }
  power : ∀ s v, P s → P { s with power := v }
  agenda : ∀ s v, P s → P { s with agenda := v }
  deviceActs : ∀ s v, P s → P { s with deviceActs := v }
  lost : ∀ s, P s → P (s.setMem [])

/-- Whether a part of an instruction ends well or is aborted, `P` holds of the state it leaves. -/
def Res.Keeps {α : Type} (P : State → Prop) (r : Res α) : Prop :=
  match r with
  | .ok _ s => P s
  | .abort _ s => P s

/-- `P` holds of the next state, if there is one. -/
def NextKeeps (P : State → Prop) (o : Host.Outcome State Fault Refusal) : Prop := ∀ t, o = .next t → P t

theorem Res.Keeps.andThen {α β : Type} {P : State → Prop} {r : Res α} {f : α → State → Res β} (h : r.Keeps P)
    (hf : ∀ a s, P s → (f a s).Keeps P) : (r.andThen f).Keeps P := by
  cases r with
  | ok a s => exact hf a s h
  | abort c s => exact h

/-- An even address is not odd. -/
theorem isOdd_evenAddr (a : Word) : isOdd (evenAddr a) = false := by
  simp [isOdd, evenAddr]

/-- The number of an even address. -/
theorem toNat_evenAddr (a : Word) : (evenAddr a).toNat = 2 * (a.toNat / 2) := by
  apply Nat.eq_of_testBit_eq
  intro i
  rw [evenAddr, BitVec.toNat_and, Nat.testBit_and, show 2 * (a.toNat / 2) = 2 ^ 1 * (a.toNat / 2) by omega,
    Nat.testBit_two_pow_mul, show (0o177776 : Word).toNat = 2 ^ 1 * (2 ^ 15 - 1) by rfl, Nat.testBit_two_pow_mul,
    Nat.testBit_two_pow_sub_one]
  rcases i with _ | i
  · simp
  · by_cases hi : i < 15
    · simp [hi, Nat.testBit_div_two]
    · have : a.toNat.testBit (i + 1) = false := Nat.testBit_lt_two_pow (lt_of_lt_of_le a.isLt
        (Nat.pow_le_pow_right (by norm_num) (by omega)))
      simp [hi, this, Nat.testBit_div_two]

/-- The register addresses are whole words. -/
theorem isRegisterAddress_evenAddr (a : Word) : isRegisterAddress (evenAddr a) = isRegisterAddress a := by
  unfold isRegisterAddress
  rw [toNat_evenAddr]
  congr 1
  · exact decide_eq_decide.2 (by omega)
  · exact decide_eq_decide.2 (by omega)

namespace ClosedData

variable {P : State → Prop} (hP : ClosedData P)
include hP

/-! ### Single updates -/

theorem setReg (s : State) (r : Reg) (v : Word) (h : P s) : P (s.setReg r v) := hP.regs _ _ h
theorem bump (s : State) (r : Reg) (v : Word) (h : P s) : P (s.bump r v) := hP.regs _ _ h
theorem setPsw (s : State) (v : Byte) (h : P s) : P (s.setPsw v) := hP.psw _ _ h
theorem setCc (s : State) (f : Cc) (h : P s) : P (s.setCc f) := hP.psw _ _ h
theorem setHidden (s : State) (x : Hidden) (h : P s) : P (s.setHidden x) := hP.hidden _ _ h
theorem setPending (s : State) (p : Pending) (h : P s) : P (s.setPending p) := hP.pending _ _ h
theorem setTrace (s : State) (t : Bool) (h : P s) : P (s.setTrace t) := hP.pending _ _ h
theorem complete (s : State) (t : Bool) (h : P s) : P (s.complete t) := hP.pending _ _ h
theorem useFree (s : State) (n : Nat) (h : P s) : P (s.useFree n) := hP.free _ _ h
theorem useScratch (s : State) (h : P s) : P s.useScratch := hP.useFree _ _ (hP.setHidden _ _ h)
theorem checkStack (s : State) (h : P s) : P s.checkStack := by
  rw [State.checkStack_eq]
  exact hP.setPending _ _ h
theorem pushDown (s : State) (c : Bool) (h : P s) : P (s.pushDown c) := by
  rw [State.pushDown_eq]
  exact hP.setPending _ _ (hP.setReg _ _ _ h)
theorem decrement (s : State) (r : Reg) (d : Word) (h : P s) : P (s.decrement r d) := by
  rw [State.decrement_eq]
  exact hP.setPending _ _ (hP.setReg _ _ _ h)
theorem setSpm (s : State) (a v : Word) (h : P s) : P (s.setSpm a v) := by
  unfold State.setSpm
  split <;> first | exact hP.setReg _ _ _ h | exact hP.setHidden _ _ h

/-! ### The bus -/

theorem writePswByAddress (d : Byte) (s : State) (h : P s) : P (writePswByAddress d s) := by
  unfold Machine.writePswByAddress
  split
  · exact hP.setPsw _ _ h
  · exact hP.setPsw _ _ h
  · exact hP.useFree _ _ (hP.setPsw _ _ h)

theorem masterWrite (w : MasterWrite) (s : State) (h : P s) : P (masterWrite w s) := by
  cases w with
  | word a v =>
    simp only [Machine.masterWrite]
    split
    · split
      · exact hP.setSpm _ _ _ h
      · exact h
    · rename_i hw
      split
      · split
        · exact hP.setPsw _ _ h
        · exact hP.writePswByAddress _ _ h
      · rename_i hp
        split
        · rename_i ha
          exact hP.memWord _ _ _ h (isOdd_evenAddr a) hp (by simpa [isRegisterAddress_evenAddr] using hw) ha
        · exact h
  | byte a v =>
    simp only [Machine.masterWrite]
    split
    · split
      · exact hP.setPsw _ _ h
      · exact hP.writePswByAddress _ _ h
    · split
      · exact h
      · rename_i hp
        split
        · exact h
        · rename_i hw
          split
          · rename_i ha
            exact hP.memByte _ _ _ h hp (by simpa using hw) ha
          · exact h

theorem masterWrites (l : List MasterWrite) (s : State) (h : P s) : P (masterWrites l s) := by
  unfold Machine.masterWrites
  induction l generalizing s with
  | nil => exact h
  | cons w l ih => exact ih _ (hP.masterWrite w s h)

theorem busWindow (s : State) (h : P s) : P s.busWindow := by
  unfold State.busWindow
  split
  · exact h
  · exact hP.masterWrites _ _ (hP.npr _ _ h)

theorem transferIn (k : Transfer) (a : Word) (s : State) (h : P s) : (transferIn k a s).Keeps P := by
  have hw : ∀ kind, P (slaveWord kind a s).2 := by
    intro kind
    cases kind
    · exact h
    · exact hP.useFree _ _ h
  unfold Machine.transferIn
  repeat' split
  all_goals first | exact h | exact hw _

theorem readWord (k : Transfer) (a : Word) (s : State) (h : P s) : (readWord k a s).Keeps P := by
  unfold Machine.readWord
  split
  · exact hP.busWindow _ h
  · exact hP.transferIn _ _ _ (hP.busWindow _ h)

theorem readByte (k : Transfer) (a : Word) (s : State) (h : P s) : (readByte k a s).Keeps P := by
  have := hP.transferIn k a _ (hP.busWindow _ h)
  unfold Machine.readByte
  split <;> rename_i hr <;> rw [hr] at this <;> exact this

theorem putWord (a v : Word) (s : State) (h : P s) : (putWord a v s).Keeps P := by
  unfold Machine.putWord
  split
  · exact h
  · rename_i ho
    split
    · exact hP.writePswByAddress _ _ h
    · rename_i hp
      split
      · exact h
      · rename_i hw
        split
        · exact h
        · rename_i ha
          exact hP.memWord _ _ _ h (by simpa using ho) hp (by simpa using hw) ha
        · exact h

theorem putByte (a : Word) (v : Byte) (s : State) (h : P s) : (putByte a v s).Keeps P := by
  unfold Machine.putByte
  split
  · exact hP.writePswByAddress _ _ h
  · split
    · exact h
    · rename_i hp
      split
      · exact h
      · rename_i hw
        split
        · exact h
        · rename_i ha
          exact hP.memByte _ _ _ h hp (by simpa using hw) ha
        · exact h

theorem writeWord (a v : Word) (s : State) (h : P s) : (writeWord a v s).Keeps P := hP.putWord _ _ _ (hP.busWindow _ h)
theorem writeByte (a : Word) (v : Byte) (s : State) (h : P s) : (writeByte a v s).Keeps P :=
  hP.putByte _ _ _ (hP.busWindow _ h)

/-! ### Traps -/

theorem popWord (s : State) (h : P s) : (popWord s).Keeps P :=
  (hP.readWord _ _ _ h).andThen fun _ _ h1 => hP.setReg _ _ _ h1

theorem flagAbort (s : State) (c : Abort) (h : P s) : P (s.flagAbort c) := by
  cases c
  · exact hP.setPending _ _ h
  · exact hP.setPending _ _ (hP.setHidden _ _ h)

theorem readIntoB (a : Word) (s : State) (h : P s) : (readIntoB a s).Keeps P := by
  have h1 := hP.readWord .dati a _ h
  unfold Machine.readIntoB
  split <;> rename_i hr <;> rw [hr] at h1
  · exact hP.setHidden _ _ h1
  · exact hP.useFree _ _ (hP.setHidden _ _ h1)
  · exact h1

theorem loadVector (v : Word) (s : State) (h : P s) : (loadVector v s).Keeps P :=
  (hP.readIntoB _ _ h).andThen fun _ _ h1 =>
    (hP.readIntoB _ _ (hP.setReg _ _ _ (hP.setHidden _ _ h1))).andThen fun _ _ h2 => hP.setPsw _ _ h2

theorem pushPcAndVector (c : Bool) (v : Word) (s : State) (h : P s) : (pushPcAndVector c v s).Keeps P :=
  (hP.writeWord _ _ _ (hP.setHidden _ _ (hP.pushDown _ c h))).andThen fun _ _ h1 => hP.loadVector _ _ h1

theorem pushPsw (s : State) (h : P s) : (pushPsw s).Keeps P := by
  unfold Machine.pushPsw
  dsimp only
  split
  · exact hP.putWord _ _ _ (hP.busWindow _ h)
  · exact hP.putWord _ _ _ (hP.useFree _ _ (hP.busWindow _ h))

theorem settle (r : Res Unit) (h : r.Keeps P) : P r.settle := by
  cases r with
  | ok _ s => exact h
  | abort c s => exact hP.flagAbort s c h

theorem returnFromInterrupt (s : State) (h : P s) : (returnFromInterrupt s).Keeps P := by
  refine (hP.popWord _ h).andThen fun v s1 h1 => ?_
  have h2 := hP.popWord _ (hP.setReg _ .pc v h1)
  split <;> rename_i hr <;> rw [hr] at h2
  · exact hP.setPsw _ _ h2
  · show P (if _ then _ else _)
    split
    · exact h2
    · exact hP.setReg _ _ _ h2

/-! ### Operands -/

theorem writeReg (sz : Size) (r : Reg) (v : BitVec sz.bits) (s : State) (h : P s) : P (writeReg sz r v s) := by
  cases sz <;> exact hP.setReg _ _ _ h

theorem readMem (sz : Size) (k : Transfer) (a : Word) (s : State) (h : P s) : (readMem sz k a s).Keeps P := by
  cases sz
  · exact hP.readByte _ _ _ h
  · exact hP.readWord _ _ _ h

theorem putMem (sz : Size) (a : Word) (v : BitVec sz.bits) (s : State) (h : P s) : (putMem sz a v s).Keeps P := by
  cases sz
  · exact hP.putByte _ _ _ h
  · exact hP.putWord _ _ _ h

theorem writeMem (sz : Size) (a : Word) (v : BitVec sz.bits) (s : State) (h : P s) : (writeMem sz a v s).Keeps P := by
  cases sz
  · exact hP.writeByte _ _ _ h
  · exact hP.writeWord _ _ _ h

theorem nextWord (s : State) (h : P s) : (nextWord s).Keeps P :=
  (hP.readWord _ _ _ h).andThen fun _ _ h1 => hP.bump _ _ _ h1

theorem mode3Abort (r : Reg) (s : State) (h : P s) : P (mode3Abort r s) := by
  unfold Machine.mode3Abort
  split
  · exact hP.bump _ _ _ h
  · exact h
  · refine hP.useFree _ _ ?_
    split
    · exact hP.bump _ _ _ h
    · exact h

theorem eaOf (m : MemMode) (r : Reg) (sz : Size) (s : State) (h : P s) : (eaOf m r sz s).Keeps P := by
  cases m with
  | deferred => exact h
  | autoInc => exact h
  | autoIncDef =>
    have h1 := hP.readWord .dati (s.reg r) s h
    simp only [Machine.eaOf]
    split <;> rename_i hr <;> rw [hr] at h1
    · exact hP.bump _ _ _ h1
    · exact hP.mode3Abort _ _ h1
  | autoDec => exact hP.decrement _ _ _ h
  | autoDecDef => exact (hP.readWord _ _ _ (hP.decrement _ _ _ h)).andThen fun _ _ h1 => h1
  | index => exact (hP.nextWord _ h).andThen fun _ _ h1 => h1
  | indexDef =>
    exact (hP.nextWord _ h).andThen fun _ _ h1 => (hP.readWord _ _ _ h1).andThen fun _ _ h2 => h2

theorem readOperand (sz : Size) (o : Operand) (s : State) (h : P s) : (readOperand sz o s).Keeps P := by
  cases o with
  | reg r => exact h
  | mem m r =>
    exact (hP.eaOf _ _ _ _ h).andThen fun _ _ h1 => (hP.readMem _ _ _ _ h1).andThen fun _ _ h2 => hP.bump _ _ _ h2

theorem modifyOperand (sz : Size) (o : Operand) (f : Cc → BitVec sz.bits → Alu sz.bits) (s : State) (h : P s) :
    (modifyOperand sz o f s).Keeps P := by
  cases o with
  | reg r => exact hP.writeReg _ _ _ _ (hP.setCc _ _ h)
  | mem m r =>
    exact (hP.eaOf _ _ _ _ h).andThen fun _ _ h1 =>
      (hP.readMem _ _ _ _ h1).andThen fun _ _ h2 => hP.putMem _ _ _ _ (hP.setCc _ _ (hP.bump _ _ _ h2))

theorem storeOperand (sz : Size) (o : Operand) (f : Cc → Alu sz.bits) (s : State) (h : P s) :
    (storeOperand sz o f s).Keeps P := by
  cases o with
  | reg r => exact hP.modifyOperand sz (.reg r) (fun c _ => f c) s h
  | mem m r =>
    unfold Machine.storeOperand
    dsimp only
    split
    · exact hP.modifyOperand _ _ _ _ h
    · exact (hP.eaOf _ _ _ _ h).andThen fun _ _ h1 =>
        (hP.writeMem _ _ _ _ (hP.setCc _ _ h1)).andThen fun _ _ h2 => hP.bump _ _ _ h2

theorem addressOperand (m : MemMode) (r : Reg) (s : State) (h : P s) : (addressOperand m r s).Keeps P :=
  (hP.eaOf _ _ _ _ h).andThen fun _ _ h1 => hP.bump _ _ _ h1

theorem readSource (sz : Size) (o : Operand) (s : State) (h : P s) : (readSource sz o s).Keeps P :=
  (hP.readOperand _ _ _ h).andThen fun _ _ h1 => hP.setHidden _ _ h1

/-! ### Instructions -/

theorem testBody (sz : Size) (o : Operand) (s : State) (h : P s) : (testBody sz o s).Keeps P :=
  (hP.readOperand _ _ _ h).andThen fun _ _ h1 => hP.setCc _ _ h1

theorem compareBody (sz : Size) (a b : Operand) (f) (s : State) (h : P s) : (compareBody sz a b f s).Keeps P :=
  (hP.readSource _ _ _ h).andThen fun _ _ h1 => (hP.readOperand _ _ _ h1).andThen fun _ _ h2 => hP.setCc _ _ h2

theorem combineBody (sz : Size) (a b : Operand) (f) (s : State) (h : P s) : (combineBody sz a b f s).Keeps P :=
  (hP.readSource _ _ _ h).andThen fun _ _ h1 => hP.modifyOperand _ _ _ _ h1

theorem moveBody (a b : Operand) (s : State) (h : P s) : (moveBody a b s).Keeps P :=
  (hP.readSource _ _ _ h).andThen fun _ _ h1 => hP.storeOperand _ _ _ _ h1

theorem moveByteBody (a b : Operand) (s : State) (h : P s) : (moveByteBody a b s).Keeps P := by
  refine (hP.readSource _ _ _ h).andThen fun _ _ h1 => ?_
  cases b with
  | reg r => exact hP.setReg _ _ _ (hP.setCc _ _ h1)
  | mem m r => exact hP.storeOperand _ _ _ _ h1

theorem branchBody (c : Bool) (o : Byte) (s : State) (h : P s) : (branchBody c o s).Keeps P := by
  show P (if _ then _ else _)
  split
  · exact hP.setReg _ _ _ h
  · exact h

theorem jumpBody (m : MemMode) (r : Reg) (s : State) (h : P s) : (jumpBody m r s).Keeps P :=
  (hP.addressOperand _ _ _ h).andThen fun _ _ h1 => hP.setReg _ _ _ h1

theorem callBody (l : Reg) (m : MemMode) (r : Reg) (s : State) (h : P s) : (callBody l m r s).Keeps P :=
  (hP.addressOperand _ _ _ h).andThen fun _ _ h1 =>
    (hP.writeWord _ _ _ (hP.pushDown _ _ h1)).andThen fun _ _ h2 => hP.setReg _ _ _ (hP.setReg _ _ _ h2)

theorem returnBody (r : Reg) (s : State) (h : P s) : (returnBody r s).Keeps P := by
  have h1 := hP.popWord _ (hP.setReg _ .pc (s.reg r) h)
  unfold Machine.returnBody
  split <;> rename_i hr <;> rw [hr] at h1
  · exact hP.setReg _ _ _ h1
  · show P (if _ then _ else _)
    split
    · exact h1
    · exact hP.setReg _ _ _ h1

theorem conditionCodesBody (f) (s : State) (h : P s) : (conditionCodesBody f s).Keeps P := hP.setPsw _ _ h

theorem subtractCarryBody (sz : Size) (o : Operand) (s : State) (h : P s) : (subtractCarryBody sz o s).Keeps P :=
  hP.modifyOperand _ _ _ _ h

end ClosedData

namespace ClosedCore

variable {P : State → Prop} (hP : ClosedCore P)
include hP

theorem setIr (s : State) (w : Word) (h : P s) : P (s.setIr w) := hP.ir _ _ h
theorem setRunState (s : State) (x : RunState) (h : P s) : P (s.setRunState x) := hP.runState _ _ h
theorem latchRequests (s : State) (h : P s) : P s.latchRequests := hP.brLatch _ _ h
theorem trapSequence (c : Bool) (v : Word) (s : State) (h : P s) : P (trapSequence c v s) := by
  have h1 := hP.pushDown _ c (hP.setHidden _ { s.hidden with r13 := v, b := v } (hP.setRunState _ .run h))
  have h2 := hP.pushPsw _ h1
  unfold Machine.trapSequence
  dsimp only
  split
  · rename_i hr
    rw [hr] at h2
    exact hP.latchRequests _ (hP.useFree _ _ (hP.setPending _ _ (hP.setRunState _ _ (hP.setIr _ _ h2))))
  · rename_i hr
    rw [hr] at h2
    exact hP.settle _ (hP.pushPcAndVector c v _ h2)

theorem serviceAbort (s : State) (h : P s) : P (serviceAbort s) := by
  unfold Machine.serviceAbort
  split <;> exact hP.trapSequence _ _ _ (hP.setPending _ _ h)

theorem takeAbort (c : Abort) (s : State) (h : P s) : P (takeAbort c s) := hP.serviceAbort _ (hP.flagAbort _ _ h)

theorem instructionEnding (done : State → State) (hd : ∀ s, P s → P (done s)) (body : State → Res Unit)
    (hb : ∀ s, P s → (body s).Keeps P) (s : State) (h : P s) : NextKeeps P (instructionEnding done body s) := by
  have h1 := hb _ (hP.useScratch _ h)
  intro t ht
  unfold Machine.instructionEnding at ht
  split at ht <;> rename_i hr <;> rw [hr] at h1 <;> cases ht
  · exact hd _ h1
  · exact hP.takeAbort _ _ h1

theorem instruction (body : State → Res Unit) (hb : ∀ s, P s → (body s).Keeps P) (s : State) (h : P s) :
    NextKeeps P (instruction body s) :=
  hP.instructionEnding _ (fun _ hs => hP.complete _ _ hs) body hb s h

theorem instructionTrap (v : Word) (s : State) (h : P s) : NextKeeps P (instructionTrap v s) := by
  intro t ht
  unfold Machine.instructionTrap at ht
  cases ht
  refine hP.trapSequence _ _ _ (hP.setIr _ _ ?_)
  split
  · exact hP.setTrace _ _ h
  · exact h

/-- Every instruction keeps `P`, if dropping all requests does. -/
theorem exec (hR : ∀ s, P s → P (s.setRequests [])) (i : Instr) (s : State) (h : P s) :
    NextKeeps P (exec i s) := by
  cases i with
  | halt => intro t ht; cases ht; exact hP.latchRequests _ (hP.complete _ _ (hP.setRunState _ _ h))
  | wait => intro t ht; cases ht; exact hP.complete _ _ (hP.setRunState _ _ h)
  | rti => exact hP.instructionEnding _ (fun _ hs => hP.complete _ _ hs) _ hP.returnFromInterrupt s h
  | bpt => exact hP.instructionTrap _ s h
  | iot => exact hP.instructionTrap _ s h
  | reset => intro t ht; cases ht; exact hP.complete _ _ (hR _ h)
  | rtt => exact hP.instructionEnding _ (fun _ hs => hs) _ hP.returnFromInterrupt s h
  | reserved w => exact hP.instructionTrap _ s h
  | illegalJmp r => exact hP.instructionTrap _ s h
  | jmp m r => exact hP.instruction _ (hP.jumpBody m r) s h
  | rts r => exact hP.instruction _ (hP.returnBody r) s h
  | clcc mask => exact hP.instruction _ (fun s1 => hP.conditionCodesBody (fun cc => cc &&& ~~~ mask) s1) s h
  | secc mask => exact hP.instruction _ (fun s1 => hP.conditionCodesBody (fun cc => cc ||| mask) s1) s h
  | swab dst => exact hP.instruction _ (hP.modifyOperand .word dst _) s h
  | br offset => exact hP.instruction (Machine.branchBody _ offset) (hP.branchBody _ offset) s h
  | bne offset => exact hP.instruction (Machine.branchBody _ offset) (hP.branchBody _ offset) s h
  | beq offset => exact hP.instruction (Machine.branchBody _ offset) (hP.branchBody _ offset) s h
  | bge offset => exact hP.instruction (Machine.branchBody _ offset) (hP.branchBody _ offset) s h
  | blt offset => exact hP.instruction (Machine.branchBody _ offset) (hP.branchBody _ offset) s h
  | bgt offset => exact hP.instruction (Machine.branchBody _ offset) (hP.branchBody _ offset) s h
  | ble offset => exact hP.instruction (Machine.branchBody _ offset) (hP.branchBody _ offset) s h
  | bpl offset => exact hP.instruction (Machine.branchBody _ offset) (hP.branchBody _ offset) s h
  | bmi offset => exact hP.instruction (Machine.branchBody _ offset) (hP.branchBody _ offset) s h
  | bhi offset => exact hP.instruction (Machine.branchBody _ offset) (hP.branchBody _ offset) s h
  | blos offset => exact hP.instruction (Machine.branchBody _ offset) (hP.branchBody _ offset) s h
  | bvc offset => exact hP.instruction (Machine.branchBody _ offset) (hP.branchBody _ offset) s h
  | bvs offset => exact hP.instruction (Machine.branchBody _ offset) (hP.branchBody _ offset) s h
  | bcc offset => exact hP.instruction (Machine.branchBody _ offset) (hP.branchBody _ offset) s h
  | bcs offset => exact hP.instruction (Machine.branchBody _ offset) (hP.branchBody _ offset) s h
  | illegalJsr link r => exact hP.instructionTrap _ s h
  | jsr link m r => exact hP.instruction _ (hP.callBody link m r) s h
  | clr dst => exact hP.instruction _ (hP.storeOperand .word dst _) s h
  | com dst => exact hP.instruction _ (hP.modifyOperand .word dst _) s h
  | inc dst => exact hP.instruction _ (hP.modifyOperand .word dst _) s h
  | dec dst => exact hP.instruction _ (hP.modifyOperand .word dst _) s h
  | neg dst => exact hP.instruction _ (hP.modifyOperand .word dst _) s h
  | adc dst => exact hP.instruction _ (hP.modifyOperand .word dst _) s h
  | sbc dst => exact hP.instruction _ (hP.subtractCarryBody .word dst) s h
  | tst dst => exact hP.instruction _ (hP.testBody .word dst) s h
  | ror dst => exact hP.instruction _ (hP.modifyOperand .word dst _) s h
  | rol dst => exact hP.instruction _ (hP.modifyOperand .word dst _) s h
  | asr dst => exact hP.instruction _ (hP.modifyOperand .word dst _) s h
  | asl dst => exact hP.instruction _ (hP.modifyOperand .word dst _) s h
  | clrb dst => exact hP.instruction _ (hP.storeOperand .byte dst _) s h
  | comb dst => exact hP.instruction _ (hP.modifyOperand .byte dst _) s h
  | incb dst => exact hP.instruction _ (hP.modifyOperand .byte dst _) s h
  | decb dst => exact hP.instruction _ (hP.modifyOperand .byte dst _) s h
  | negb dst => exact hP.instruction _ (hP.modifyOperand .byte dst _) s h
  | adcb dst => exact hP.instruction _ (hP.modifyOperand .byte dst _) s h
  | sbcb dst => exact hP.instruction _ (hP.subtractCarryBody .byte dst) s h
  | tstb dst => exact hP.instruction _ (hP.testBody .byte dst) s h
  | rorb dst => exact hP.instruction _ (hP.modifyOperand .byte dst _) s h
  | rolb dst => exact hP.instruction _ (hP.modifyOperand .byte dst _) s h
  | asrb dst => exact hP.instruction _ (hP.modifyOperand .byte dst _) s h
  | aslb dst => exact hP.instruction _ (hP.modifyOperand .byte dst _) s h
  | mov src dst => exact hP.instruction _ (hP.moveBody src dst) s h
  | cmp src dst => exact hP.instruction _ (hP.compareBody .word src dst _) s h
  | bit src dst => exact hP.instruction _ (hP.compareBody .word src dst _) s h
  | bic src dst => exact hP.instruction _ (hP.combineBody .word src dst _) s h
  | bis src dst => exact hP.instruction _ (hP.combineBody .word src dst _) s h
  | add src dst => exact hP.instruction _ (hP.combineBody .word src dst _) s h
  | reservedEis low => exact hP.instructionTrap _ s h
  | emt code => exact hP.instructionTrap _ s h
  | trap code => exact hP.instructionTrap _ s h
  | movb src dst => exact hP.instruction _ (hP.moveByteBody src dst) s h
  | cmpb src dst => exact hP.instruction _ (hP.compareBody .byte src dst _) s h
  | bitb src dst => exact hP.instruction _ (hP.compareBody .byte src dst _) s h
  | bicb src dst => exact hP.instruction _ (hP.combineBody .byte src dst _) s h
  | bisb src dst => exact hP.instruction _ (hP.combineBody .byte src dst _) s h
  | sub src dst => exact hP.instruction _ (hP.combineBody .word src dst _) s h

/-! ### The fetch -/

theorem fetch (s : State) (h : P s) : (fetch s).Keeps P := by
  have h1 := hP.readWord .dati (s.reg .pc) s h
  unfold Machine.fetch
  split <;> rename_i hr <;> rw [hr] at h1
  · exact hP.bump _ _ _ (hP.setIr _ _ (hP.setHidden _ _ h1))
  · exact hP.useFree _ _ (hP.setIr _ _ (hP.setHidden _ _ h1))
  · exact hP.setIr _ _ (hP.setHidden _ _ h1)

theorem runInstruction (hR : ∀ s, P s → P (s.setRequests [])) (s : State) (h : P s) : NextKeeps P (runInstruction s) := by
  have h1 := hP.fetch s h
  unfold Machine.runInstruction
  split <;> rename_i hr <;> rw [hr] at h1
  · exact hP.exec hR _ _ h1
  · intro t ht; cases ht; exact hP.takeAbort _ _ h1

end ClosedCore

namespace Closed

variable {P : State → Prop} (hP : Closed P)
include hP

theorem setRequests (s : State) (l : List Request) (h : P s) : P (s.setRequests l) := hP.requests _ _ h
theorem devicesAct (s : State) (h : P s) : P s.devicesAct :=
  hP.deviceActs { s with requests := s.deviceActs.foldl (fun l a => a.apply l) s.requests } [] (hP.requests s _ h)
theorem enterService (s : State) (h : P s) : P s.enterService := hP.devicesAct _ (hP.brLatch _ _ h)
theorem setPower (s : State) (p : Power) (h : P s) : P (s.setPower p) := hP.power _ _ h
theorem leaveService (s : State) (h : P s) : P s.leaveService := hP.haltPassed _ _ h
theorem resume (r : RunState) (s : State) (h : P s) : P (resume r s) := hP.haltPassed _ _ (hP.runState _ _ h)

/-! ### The step -/

theorem arbitrate (s t : State) (h : P s) (ht : arbitrate s = some t) : P t := by
  unfold Machine.arbitrate at ht
  split at ht
  · cases ht; exact hP.serviceAbort _ h
  · split at ht
    · cases ht; exact hP.trapSequence _ _ _ (hP.setPending _ _ h)
    · split at ht
      · cases ht; exact hP.trapSequence _ _ _ (hP.setPending _ _ h)
      · split at ht
        · cases ht; exact hP.trapSequence _ _ _ (hP.setPending _ _ h)
        · split at ht
          · cases ht
            exact hP.runState _ (.haltGranted (decide (s.runState = .wait))) (hP.haltRequest s false h)
          · obtain ⟨r, -, rfl⟩ := Option.map_eq_some_iff.1 ht
            exact hP.trapSequence _ _ _ (hP.setRequests _ _ h)

theorem service (s t : State) (h : P s) (ht : service s = some t) : P t := by
  obtain ⟨u, hu, rfl⟩ := Option.map_eq_some_iff.1 ht
  exact hP.leaveService _ (hP.arbitrate _ _ (hP.enterService _ h) hu)

theorem enterInit (s : State) (h : P s) : P (enterInit s) :=
  hP.setPower _ _ (hP.haltPassed _ _ (hP.setRunState _ _ (hP.latchRequests _
    (hP.setRequests _ _ (hP.setPending _ _ (hP.setIr _ _ h))))))

theorem settleRestart (r : Res Unit) (h : r.Keeps P) : P (settleRestart r) := by
  unfold Machine.settleRestart
  split
  · exact hP.flagAbort _ _ (hP.setHidden _ _ h)
  · exact hP.settle _ h

theorem restart (s : State) (h : P s) : P (restart s) :=
  hP.setRunState _ _ (hP.settleRestart _ (hP.loadVector _ _ (hP.setPower _ _ (hP.setHidden _ _ (hP.setReg _ _ _ h)))))

theorem loseRegisters (s : State) (h : P s) : P (loseRegisters s) :=
  hP.free _ (s.free + 18) (hP.psw _ _ (hP.hidden _ _ (hP.regs _ _ h)))

theorem applyEvent (e : Event) (s : State) (h : P s) : P (applyEvent e s) := by
  cases e with
  | device a => exact hP.setRequests _ _ h
  | haltSwitch on => exact hP.haltRequest _ _ h
  | consoleContinue =>
    show P (Machine.consoleContinue s)
    unfold Machine.consoleContinue
    split <;> first | exact hP.resume _ _ h | exact h
  | masterWrite w => exact hP.masterWrite _ _ h
  | busInit => exact hP.setRequests _ _ h
  | acLo on =>
    cases on
    · exact hP.setPower _ _ h
    · show P (assertAcLo s)
      unfold assertAcLo
      dsimp only
      split
      · exact hP.setPower _ _ h
      · exact hP.setPower _ _ (hP.setPending _ _ (hP.setPower _ _ h))
  | dcLo on =>
    cases on
    · show P (if _ then _ else _)
      split
      · refine hP.enterInit _ (hP.loseRegisters _ ?_)
        split
        · exact hP.setPower _ _ h
        · exact hP.lost _ (hP.setPower _ _ h)
      · exact h
    · exact hP.setRunState _ _ (hP.setPower _ _ h)
  | pupEnds => exact hP.setPower _ _ h
  | pdwnEnds =>
    show P (endPowerDown s)
    unfold endPowerDown
    split
    · exact hP.enterInit _ h
    · exact hP.setPower _ _ h

theorem processorTurn (s : State) (h : P s) : NextKeeps P (processorTurn s) := by
  unfold Machine.processorTurn
  split
  · split
    · rename_i hs; intro t ht; cases ht; exact hP.service _ _ h hs
    · exact hP.runInstruction (fun s hs => hP.setRequests s [] hs) _ (hP.leaveService _ (hP.enterService _ h))
  · split
    · rename_i hs; intro t ht; cases ht; exact hP.service _ _ h hs
    · intro t ht; cases ht; exact hP.leaveService _ (hP.enterService _ h)
  · intro t ht; cases ht; exact h
  · intro t ht; cases ht; exact h
  · intro t ht; cases ht
  · split
    · intro t ht; cases ht; exact h
    · intro t ht; cases ht; exact hP.restart _ h

/-- Every step keeps `P`. -/
theorem step (s : State) (h : P s) : NextKeeps P (step s) := by
  unfold Machine.step
  split
  · exact hP.processorTurn s h
  · rename_i l acts rest _
    exact hP.processorTurn _ (hP.deviceActs { s with agenda := rest, npr := s.npr ++ l } (s.deviceActs ++ acts)
      (hP.npr { s with agenda := rest } (s.npr ++ l) (hP.agenda s rest h)))
  · intro t ht; cases ht; exact hP.applyEvent _ _ (hP.agenda _ _ h)

end Closed

end Sys2Proof.Machine
end

