-- ==== Sys2Proof/Laws/Ops.lean ====
section
/-! SUPPORT. What the shared operations can do, said once for each, for a processor that has the bus to itself (no NPR
write is scheduled): the lemmas that proofs cite instead of unfolding the operations. -/

namespace Sys2Proof.Machine

open Sys2Proof.Config Sys2Proof.Safety

/-! ### Addresses -/

theorem evenAddr_of_even {a : Word} (h : isOdd a = false) : evenAddr a = a := by
  apply BitVec.eq_of_toNat_eq
  rw [toNat_evenAddr]
  have h0 : a.toNat % 2 = 0 := by
    have : a.toNat.testBit 0 = false := h
    simpa [Nat.testBit_zero] using this
  omega

theorem isOdd_eq (a : Word) : isOdd a = decide (a.toNat % 2 = 1) := by
  show a.toNat.testBit 0 = _
  simp [Nat.testBit_zero]

/-- The processor's own addresses are the PSW's word and the register addresses. -/
theorem internalAddress_eq (a : Word) :
    internalAddress a.toNat = (decide (evenAddr a = pswAddress) || isRegisterAddress a) := by
  have h : (evenAddr a = pswAddress) ↔ (a.toNat = 0o177776 ∨ a.toNat = 0o177777) := by
    rw [← BitVec.toNat_inj, toNat_evenAddr, show (pswAddress).toNat = 0o177776 from rfl]
    omega
  simp [internalAddress, isRegisterAddress, h]

theorem not_psw_of_not_internal {a : Word} (h : internalAddress a.toNat = false) : evenAddr a ≠ pswAddress := by
  rw [internalAddress_eq] at h
  simp at h
  exact h.1

theorem not_register_of_not_internal {a : Word} (h : internalAddress a.toNat = false) : isRegisterAddress a = false := by
  rw [internalAddress_eq] at h
  simp at h
  exact h.2

/-! ### The bus window -/

@[simp] theorem State.busWindow_of_alone {s : State} (h : s.npr = []) : s.busWindow = s := by
  unfold State.busWindow
  rw [h]

/-! ### Reads -/

/-- What a read transfer gives. -/
theorem transferIn_ok {k : Transfer} {a w : Word} {s t : State} (h : transferIn k a s = .ok w t) :
    (evenAddr a = pswAddress ∧ w = zext s.psw ∧ t = s) ∨
    (isRegisterAddress a = true ∧ w = 0 ∧ t = s) ∨
    (internalAddress a.toNat = false ∧ answer s.inst k (evenAddr a) = some .memory ∧
      badParity s.inst (evenAddr a) = false ∧ w = s.memWord (evenAddr a) ∧ t = s) ∨
    (internalAddress a.toNat = false ∧ answer s.inst k (evenAddr a) = some .device ∧
      badParity s.inst (evenAddr a) = false ∧ w = freeWord s.free ∧ t = s.useFree 1) := by
  unfold transferIn at h
  split at h
  · cases h; simp_all
  · rename_i h1
    split at h
    · cases h; simp_all
    · rename_i h2
      have hi : internalAddress a.toNat = false := by simp [internalAddress_eq, h1, h2]
      split at h
      · cases h
      · rename_i kind hk
        split at h
        · cases h
        · rename_i hb
          cases kind <;> cases h <;> simp_all [slaveWord]

/-- What a failing read transfer leaves: the state as it is, but for the free value that a device answered with bad
parity. -/
theorem transferIn_abort {k : Transfer} {a : Word} {c : Abort} {s t : State} (h : transferIn k a s = .abort c t) :
    internalAddress a.toNat = false ∧
    ((c = .busError ∧ answer s.inst k (evenAddr a) = none ∧ t = s) ∨
      ∃ kind, answer s.inst k (evenAddr a) = some kind ∧ badParity s.inst (evenAddr a) = true ∧
        c = .parityError (slaveWord kind a s).1 ∧ t = (slaveWord kind a s).2) := by
  unfold transferIn at h
  split at h
  · cases h
  · rename_i h1
    split at h
    · cases h
    · rename_i h2
      have hi : internalAddress a.toNat = false := by simp [internalAddress_eq, h1, h2]
      split at h
      · cases h; simp_all
      · rename_i kind hk
        split at h
        · cases h; simp_all
        · cases h

/-- A slave's answer takes at most one free value. -/
theorem slaveWord_state (kind : RegionKind) (a : Word) (s : State) :
    (slaveWord kind a s).2 = s ∨ (slaveWord kind a s).2 = s.useFree 1 := by
  cases kind <;> simp [slaveWord]

/-- So does a failing read transfer. -/
theorem transferIn_abort_state {k : Transfer} {a : Word} {c : Abort} {s t : State} (h : transferIn k a s = .abort c t) :
    t = s ∨ t = s.useFree 1 := by
  obtain ⟨-, ⟨-, -, rfl⟩ | ⟨kind, -, -, -, rfl⟩⟩ := transferIn_abort h
  · exact .inl rfl
  · exact slaveWord_state kind a s

/-- A read leaves the state as it is, but for a free value that a device's answer takes. -/
theorem readWord_state {k : Transfer} {a w : Word} {s t : State} (hs : s.npr = []) (h : readWord k a s = .ok w t) :
    isOdd a = false ∧ (t = s ∨ t = s.useFree 1) := by
  unfold readWord at h
  rw [State.busWindow_of_alone hs] at h
  split at h
  · cases h
  · rename_i ho
    refine ⟨by simpa using ho, ?_⟩
    rcases transferIn_ok h with ⟨-, -, h⟩ | ⟨-, -, h⟩ | ⟨-, -, -, -, h⟩ | ⟨-, -, -, -, h⟩ <;> simp [h]

theorem readWord_abort {k : Transfer} {a : Word} {c : Abort} {s t : State} (hs : s.npr = [])
    (h : readWord k a s = .abort c t) : t = s ∨ t = s.useFree 1 := by
  unfold readWord at h
  rw [State.busWindow_of_alone hs] at h
  split at h
  · cases h; exact .inl rfl
  · exact transferIn_abort_state h

theorem readByte_state {k : Transfer} {a : Word} {b : Byte} {s t : State} (hs : s.npr = [])
    (h : readByte k a s = .ok b t) : t = s ∨ t = s.useFree 1 := by
  unfold readByte at h
  rw [State.busWindow_of_alone hs] at h
  split at h <;> cases h
  rename_i hr
  rcases transferIn_ok hr with ⟨-, -, h⟩ | ⟨-, -, h⟩ | ⟨-, -, -, -, h⟩ | ⟨-, -, -, -, h⟩ <;> simp [h]

theorem readByte_abort {k : Transfer} {a : Word} {c : Abort} {s t : State} (hs : s.npr = [])
    (h : readByte k a s = .abort c t) : t = s ∨ t = s.useFree 1 := by
  unfold readByte at h
  rw [State.busWindow_of_alone hs] at h
  split at h <;> cases h
  rename_i hr
  exact transferIn_abort_state hr

theorem readMem_state {sz : Size} {k : Transfer} {a : Word} {v : BitVec sz.bits} {s t : State} (hs : s.npr = [])
    (h : readMem sz k a s = .ok v t) : t = s ∨ t = s.useFree 1 := by
  cases sz
  · exact readByte_state hs h
  · exact (readWord_state hs h).2

theorem readMem_abort {sz : Size} {k : Transfer} {a : Word} {c : Abort} {s t : State} (hs : s.npr = [])
    (h : readMem sz k a s = .abort c t) : t = s ∨ t = s.useFree 1 := by
  cases sz
  · exact readByte_abort hs h
  · exact readWord_abort hs h

/-- A word of plain memory is read as it stands. -/
theorem readWord_plain {s : State} {a : Word} (hs : s.npr = []) (h : plainWord s a = true) :
    readWord .dati a s = .ok (s.memWord a) s := by
  simp only [plainWord, plainMemory, Bool.and_eq_true, Bool.not_eq_true', decide_eq_true_eq] at h
  obtain ⟨ho, ⟨⟨⟨⟨h1, -⟩, -⟩, -⟩, hb⟩, hi⟩ := h
  have hp := not_psw_of_not_internal hi
  rw [evenAddr_of_even ho] at h1 hb hp
  simp [readWord, hs, ho, transferIn, hp, not_register_of_not_internal hi, h1, hb, slaveWord, evenAddr_of_even ho]

/-- A read depends on the PSW, the memory, the installation and the next free value alone. -/
theorem readWord_ok_congr {k : Transfer} {a w : Word} {s t s' : State} (hs : s.npr = []) (hs' : s'.npr = [])
    (hp : s'.psw = s.psw) (hm : s'.mem = s.mem) (hi : s'.inst = s.inst) (hf : s'.free = s.free)
    (h : readWord k a s = .ok w t) : ∃ n, t = s.useFree n ∧ readWord k a s' = .ok w (s'.useFree n) := by
  have ho := (readWord_state hs h).1
  unfold readWord at h ⊢
  rw [State.busWindow_of_alone hs] at h
  simp only [ho, Bool.false_eq_true, if_false] at h
  simp only [ho, Bool.false_eq_true, if_false, State.busWindow_of_alone hs']
  unfold transferIn
  rcases transferIn_ok h with ⟨h1, rfl, rfl⟩ | ⟨h1, rfl, rfl⟩ | ⟨h1, h2, h3, rfl, rfl⟩ | ⟨h1, h2, h3, rfl, rfl⟩
  · exact ⟨0, rfl, by simp [h1, hp]⟩
  · refine ⟨0, rfl, ?_⟩
    have hn : evenAddr a ≠ pswAddress := by
      intro he
      rw [← isRegisterAddress_evenAddr, he] at h1
      exact absurd h1 (by decide)
    simp [hn, h1]
  · refine ⟨0, rfl, ?_⟩
    simp [not_psw_of_not_internal h1, not_register_of_not_internal h1, hi, h2, h3, slaveWord, State.memWord, State.memByte, hm]
  · refine ⟨1, rfl, ?_⟩
    simp [not_psw_of_not_internal h1, not_register_of_not_internal h1, hi, h2, h3, slaveWord, hf]

/-- How a read fails depends on the installation, the memory and the next free value alone. -/
theorem readWord_abort_congr {k : Transfer} {a : Word} {c : Abort} {s t s' : State} (hs : s.npr = [])
    (hs' : s'.npr = []) (hm : s'.mem = s.mem) (hi : s'.inst = s.inst) (hf : s'.free = s.free)
    (h : readWord k a s = .abort c t) : ∃ n, t = s.useFree n ∧ readWord k a s' = .abort c (s'.useFree n) := by
  unfold readWord at h ⊢
  rw [State.busWindow_of_alone hs] at h
  rw [State.busWindow_of_alone hs']
  split at h
  · rename_i ho
    cases h
    exact ⟨0, by simp [ho]⟩
  · rename_i ho
    obtain ⟨h1, ⟨rfl, h2, rfl⟩ | ⟨kind, h2, h3, rfl, rfl⟩⟩ := transferIn_abort h
    · refine ⟨0, rfl, ?_⟩
      unfold transferIn
      simp [ho, not_psw_of_not_internal h1, not_register_of_not_internal h1, hi, h2]
    · cases kind
      · refine ⟨0, rfl, ?_⟩
        unfold transferIn
        simp [ho, not_psw_of_not_internal h1, not_register_of_not_internal h1, hi, h2, h3, slaveWord, State.memWord,
          State.memByte, hm]
      · refine ⟨1, rfl, ?_⟩
        unfold transferIn
        simp [ho, not_psw_of_not_internal h1, not_register_of_not_internal h1, hi, h2, h3, slaveWord, hf]

/-! ### Writes -/

/-- What the DATO of a word leaves. -/
theorem putWord_ok {a v : Word} {s t : State} (h : putWord a v s = .ok () t) :
    isOdd a = false ∧
    ((a = pswAddress ∧ t = writePswByAddress (lowByte v) s) ∨
     (a ≠ pswAddress ∧ isRegisterAddress a = true ∧ t = s) ∨
     (internalAddress a.toNat = false ∧ answer s.inst .dato a = some .memory ∧ t = s.setMemWord a v) ∨
     (internalAddress a.toNat = false ∧ answer s.inst .dato a = some .device ∧ t = s)) := by
  unfold putWord at h
  split at h
  · cases h
  · rename_i ho
    have ho' : isOdd a = false := by simpa using ho
    refine ⟨ho', ?_⟩
    split at h
    · cases h; simp_all
    · rename_i h1
      split at h
      · cases h; simp_all
      · rename_i h2
        have hi : internalAddress a.toNat = false := by simp [internalAddress_eq, evenAddr_of_even ho', h1, h2]
        split at h <;> cases h <;> simp_all

/-- A DATO that fails changes nothing: the address is odd, or nothing answers there. -/
theorem putWord_abort {a v : Word} {c : Abort} {s t : State} (h : putWord a v s = .abort c t) :
    t = s ∧ c = .busError ∧ (isOdd a = true ∨ (internalAddress a.toNat = false ∧ answer s.inst .dato a = none)) := by
  unfold putWord at h
  split at h
  · cases h; simp_all
  · rename_i ho
    split at h
    · cases h
    · rename_i h1
      split at h
      · cases h
      · rename_i h2
        have hi : internalAddress a.toNat = false := by
          simp [internalAddress_eq, evenAddr_of_even (by simpa using ho), h1, h2]
        split at h <;> cases h
        simp_all

/-- What the DATOB of a byte leaves. -/
theorem putByte_ok {a : Word} {v : Byte} {s t : State} (h : putByte a v s = .ok () t) :
    (a = pswAddress ∧ t = writePswByAddress v s) ∨
    (a ≠ pswAddress ∧ internalAddress a.toNat = true ∧ t = s) ∨
    (internalAddress a.toNat = false ∧ answer s.inst .datob (evenAddr a) = some .memory ∧ t = s.setMemByte a v) ∨
    (internalAddress a.toNat = false ∧ answer s.inst .datob (evenAddr a) = some .device ∧ t = s) := by
  unfold putByte at h
  split at h
  · cases h; simp_all
  · rename_i h1
    split at h
    · rename_i h2
      cases h
      simp [h1, internalAddress_eq, h2]
    · rename_i h2
      split at h
      · rename_i h3
        cases h
        simp [h1, internalAddress_eq, h3]
      · rename_i h3
        have hi : internalAddress a.toNat = false := by simp [internalAddress_eq, h2, h3]
        split at h <;> cases h <;> simp_all

theorem putByte_abort {a : Word} {v : Byte} {c : Abort} {s t : State} (h : putByte a v s = .abort c t) :
    t = s ∧ c = .busError ∧ internalAddress a.toNat = false ∧ answer s.inst .datob (evenAddr a) = none := by
  unfold putByte at h
  split at h
  · cases h
  · rename_i h1
    split at h
    · cases h
    · rename_i h2
      split at h
      · cases h
      · rename_i h3
        have hi : internalAddress a.toNat = false := by simp [internalAddress_eq, h2, h3]
        split at h <;> cases h
        simp_all

/-- A write that is answered completes. -/
theorem putWord_answered {s : State} {a : Word} (v : Word) (ho : isOdd a = false)
    (h : answersWrite .word s a = true) : ∃ t, putWord a v s = .ok () t := by
  cases hr : putWord a v s with
  | ok u t => exact ⟨t, rfl⟩
  | abort c t =>
    obtain ⟨-, -, h' | ⟨h1, h2⟩⟩ := putWord_abort hr
    · simp [ho] at h'
    · simp [answersWrite, h1, writeTransfer, evenAddr_of_even ho, h2] at h

theorem putByte_answered {s : State} {a : Word} (v : Byte) (h : answersWrite .byte s a = true) :
    ∃ t, putByte a v s = .ok () t := by
  cases hr : putByte a v s with
  | ok u t => exact ⟨t, rfl⟩
  | abort c t =>
    obtain ⟨-, -, h1, h2⟩ := putByte_abort hr
    simp [answersWrite, h1, writeTransfer, h2] at h

/-- A word of plain memory is written as memory. -/
theorem writeWord_plain {s : State} {a : Word} (v : Word) (hs : s.npr = []) (h : plainWord s a = true) :
    writeWord a v s = .ok () (s.setMemWord a v) := by
  simp only [plainWord, plainMemory, Bool.and_eq_true, Bool.not_eq_true', decide_eq_true_eq] at h
  obtain ⟨ho, ⟨⟨⟨⟨-, -⟩, h1⟩, -⟩, -⟩, hi⟩ := h
  have hp := not_psw_of_not_internal hi
  rw [evenAddr_of_even ho] at hp h1
  simp [writeWord, hs, putWord, ho, hp, not_register_of_not_internal hi, h1]

/-- The PSW after a write to its address: PRI and T from the data. -/
theorem writePswByAddress_high (d : Byte) (s : State) :
    (writePswByAddress d s).psw.extractLsb' 4 4 = d.extractLsb' 4 4 := by
  have key : ∀ x y : BitVec 4, (x ++ y : BitVec 8).extractLsb' 4 4 = x := by decide
  unfold writePswByAddress
  split
  · rfl
  · exact key _ _
  · exact key _ _

/-- A write to the PSW's address changes the PSW, as the parameter says, and nothing else but the free values used. -/
theorem writePswByAddress_after (d : Byte) (s : State) :
    ∃ n, writePswByAddress d s = { s with psw := (writePswByAddress d s).psw, free := n } ∧
      PswAfterStore pswAddress d s.cc s (writePswByAddress d s) := by
  have low : ∀ x y : BitVec 4, (x ++ y : BitVec 8).extractLsb' 0 4 = y := by decide
  have hcc : ∀ x : BitVec 4, ∀ p : Byte,
      (State.cc { s with psw := (x ++ p.extractLsb' 0 4 : BitVec 8) }) = State.cc { s with psw := p } := by
    intro x p
    have h : ∀ (x : BitVec 4) (p : Byte) (i : Nat), i < 4 → (x ++ p.extractLsb' 0 4 : BitVec 8).getLsbD i = p.getLsbD i := by
      intro x p i hi
      rw [BitVec.getLsbD_append]
      simp [hi]
    simp only [State.cc, h x p _ (show 3 < 4 by decide), h x p _ (show 2 < 4 by decide),
      h x p _ (show 1 < 4 by decide), h x p _ (show 0 < 4 by decide)]
  simp only [PswAfterStore, if_pos]
  refine ⟨(writePswByAddress d s).free, ?_, writePswByAddress_high d s, ?_⟩
  · unfold writePswByAddress
    split <;> rfl
  · unfold writePswByAddress
    split
    · rename_i h; simp [h]
    · rename_i h; simp only [h]; exact hcc _ s.psw
    · rename_i h; simp

/-- A store that is answered completes, and leaves the value, the PSW at its address, or nothing, and changes nothing
else. -/
theorem putMem_stored (sz : Size) {s : State} {a : Word} (v : BitVec sz.bits) (ho : sz = .word → isOdd a = false)
    (h : answersWrite sz s a = true) : ∃ t, putMem sz a v s = .ok () t ∧ Stored sz a v s t ∧
      PswAfterStore a (lowOf sz v) s.cc s t ∧ (∃ m p n, t = { s with mem := m, psw := p, free := n }) := by
  cases sz with
  | word =>
    have ho' : isOdd a = false := ho rfl
    obtain ⟨t, ht⟩ := putWord_answered v ho' h
    refine ⟨t, ht, ?_⟩
    obtain ⟨-, ⟨rfl, rfl⟩ | ⟨h1, h2, rfl⟩ | ⟨h1, h2, rfl⟩ | ⟨h1, h2, rfl⟩⟩ := putWord_ok ht
    · obtain ⟨n, he, hp⟩ := writePswByAddress_after (lowByte v) s
      refine ⟨?_, hp, s.mem, _, n, he⟩
      unfold Stored
      rw [if_neg (by simp [internalAddress_eq, evenAddr_of_even ho'])]
      intro x
      rw [he]
      rfl
    · refine ⟨?_, ?_, _, _, _, rfl⟩
      · unfold Stored
        rw [if_neg (by simp [internalAddress_eq, h2])]
        intro x; rfl
      · simp [PswAfterStore, h1, SamePriority]
    · have h3 : a ≠ pswAddress := by
        have := not_psw_of_not_internal h1
        rwa [evenAddr_of_even ho'] at this
      refine ⟨?_, ?_, _, s.psw, s.free, rfl⟩
      · unfold Stored
        rw [if_pos ⟨h1, by rw [evenAddr_of_even ho']; exact h2⟩]
        refine ⟨fun hw => State.memWord_setMemWord_self s a v hw, fun x hx => ?_⟩
        simp only [List.mem_cons, List.not_mem_nil, or_false, not_or] at hx
        exact State.memByte_setMemWord_of_ne s v hx.1 hx.2
      · simp [PswAfterStore, h3, SamePriority]
    · have h3 : a ≠ pswAddress := by
        have := not_psw_of_not_internal h1
        rwa [evenAddr_of_even ho'] at this
      refine ⟨?_, ?_, _, _, _, rfl⟩
      · unfold Stored
        rw [if_neg (by simp [writeTransfer, evenAddr_of_even ho', h2])]
        intro x; rfl
      · simp [PswAfterStore, h3, SamePriority]
  | byte =>
    obtain ⟨t, ht⟩ := putByte_answered v h
    refine ⟨t, ht, ?_⟩
    obtain ⟨rfl, rfl⟩ | ⟨h1, h2, rfl⟩ | ⟨h1, h2, rfl⟩ | ⟨h1, h2, rfl⟩ := putByte_ok ht
    · obtain ⟨n, he, hp⟩ := writePswByAddress_after v s
      refine ⟨?_, hp, s.mem, _, n, he⟩
      unfold Stored
      rw [if_neg (by simp [internalAddress_eq, evenAddr_of_even (show isOdd pswAddress = false from rfl)])]
      intro x
      rw [he]
      rfl
    · refine ⟨?_, ?_, _, _, _, rfl⟩
      · unfold Stored
        rw [if_neg (by simp [h2])]
        intro x; rfl
      · simp [PswAfterStore, h1, SamePriority]
    · have h3 : a ≠ pswAddress := by
        rintro rfl
        exact not_psw_of_not_internal h1 rfl
      refine ⟨?_, ?_, _, s.psw, s.free, rfl⟩
      · unfold Stored
        rw [if_pos ⟨h1, h2⟩]
        refine ⟨fun hw => State.memByte_setMemByte_self s a v hw, fun x hx => ?_⟩
        simp only [List.mem_cons, List.not_mem_nil, or_false] at hx
        exact State.memByte_setMemByte_of_ne s v hx
      · simp [PswAfterStore, h3, SamePriority]
    · have h3 : a ≠ pswAddress := by
        rintro rfl
        exact not_psw_of_not_internal h1 rfl
      refine ⟨?_, ?_, _, _, _, rfl⟩
      · unfold Stored
        rw [if_neg (by simp [writeTransfer, h2])]
        intro x; rfl
      · simp [PswAfterStore, h3, SamePriority]

/-! ### Parts in sequence -/

@[simp] theorem Res.andThen_ok {α β : Type} (a : α) (s : State) (f : α → State → Res β) :
    (Res.ok a s).andThen f = f a s := rfl

@[simp] theorem Res.andThen_abort {α β : Type} (c : Abort) (s : State) (f : α → State → Res β) :
    (Res.abort c s).andThen f = .abort c s := rfl

theorem Res.andThen_eq_ok {α β : Type} {r : Res α} {f : α → State → Res β} {b : β} {t : State} :
    r.andThen f = .ok b t ↔ ∃ a s, r = .ok a s ∧ f a s = .ok b t := by
  cases r <;> simp

theorem Res.andThen_eq_abort {α β : Type} {r : Res α} {f : α → State → Res β} {c : Abort} {t : State} :
    r.andThen f = .abort c t ↔ r = .abort c t ∨ ∃ a s, r = .ok a s ∧ f a s = .abort c t := by
  cases r <;> simp

/-! ### Operands -/

/-- What evaluating operands can change: registers, the stack overflow flag and the counter of free values. -/
def Addressed (s t : State) : Prop :=
  ∃ g o n, t = { s with regs := g, pending := { s.pending with stackOverflow := o }, free := n }

theorem Addressed.refl (s : State) : Addressed s s := ⟨s.regs, s.pending.stackOverflow, s.free, rfl⟩

theorem Addressed.trans {s t u : State} (h : Addressed s t) (h' : Addressed t u) : Addressed s u := by
  obtain ⟨g, o, n, rfl⟩ := h
  obtain ⟨g', o', n', rfl⟩ := h'
  exact ⟨g', o', n', rfl⟩

theorem Addressed.of_setReg (s : State) (r : Reg) (v : Word) : Addressed s (s.setReg r v) := ⟨_, _, _, rfl⟩
theorem Addressed.of_bump (s : State) (r : Reg) (v : Word) : Addressed s (s.bump r v) := ⟨_, _, _, rfl⟩
theorem Addressed.of_useFree (s : State) (n : Nat) : Addressed s (s.useFree n) := ⟨_, _, _, rfl⟩
theorem Addressed.of_decrement (s : State) (r : Reg) (d : Word) : Addressed s (s.decrement r d) := by
  rw [State.decrement_eq]
  exact ⟨_, _, _, rfl⟩

theorem Addressed.of_read {s t : State} (h : t = s ∨ t = s.useFree 1) : Addressed s t := by
  rcases h with rfl | rfl
  · exact Addressed.refl _
  · exact Addressed.of_useFree _ 1

theorem Addressed.npr {s t : State} (h : Addressed s t) : t.npr = s.npr := by obtain ⟨g, o, n, rfl⟩ := h; rfl
theorem Addressed.psw {s t : State} (h : Addressed s t) : t.psw = s.psw := by obtain ⟨g, o, n, rfl⟩ := h; rfl
theorem Addressed.cc {s t : State} (h : Addressed s t) : t.cc = s.cc := by obtain ⟨g, o, n, rfl⟩ := h; rfl
theorem Addressed.mem {s t : State} (h : Addressed s t) : t.mem = s.mem := by obtain ⟨g, o, n, rfl⟩ := h; rfl
theorem Addressed.inst {s t : State} (h : Addressed s t) : t.inst = s.inst := by obtain ⟨g, o, n, rfl⟩ := h; rfl
theorem Addressed.hidden {s t : State} (h : Addressed s t) : t.hidden = s.hidden := by
  obtain ⟨g, o, n, rfl⟩ := h; rfl
theorem Addressed.sameControl {s t : State} (h : Addressed s t) : SameControl s t := by
  obtain ⟨g, o, n, rfl⟩ := h
  simp [SameControl]

/-- The next word of the instruction stream. -/
theorem nextWord_addressed {s : State} (hs : s.npr = []) :
    (∀ x t, nextWord s = .ok x t → Addressed s t) ∧ (∀ c t, nextWord s = .abort c t → Addressed s t) := by
  refine ⟨fun x t h => ?_, fun c t h => ?_⟩
  · obtain ⟨w, s1, h1, h2⟩ := Res.andThen_eq_ok.1 h
    cases h2
    exact (Addressed.of_read (readWord_state hs h1).2).trans (Addressed.of_bump _ _ _)
  · rcases Res.andThen_eq_abort.1 h with h1 | ⟨w, s1, -, h2⟩
    · exact Addressed.of_read (readWord_abort hs h1)
    · cases h2

/-- Computing an effective address, whether it ends well or is aborted. -/
theorem eaOf_addressed {s : State} (hs : s.npr = []) (m : MemMode) (r : Reg) (sz : Size) :
    (∀ e t, eaOf m r sz s = .ok e t → Addressed s t) ∧ (∀ c t, eaOf m r sz s = .abort c t → Addressed s t) := by
  have hd : ∀ d, (s.decrement r d).npr = [] := fun d => by rw [(Addressed.of_decrement s r d).npr, hs]
  cases m with
  | deferred => exact ⟨fun e t h => by cases h; exact Addressed.refl s, fun c t h => by cases h⟩
  | autoInc => exact ⟨fun e t h => by cases h; exact Addressed.refl s, fun c t h => by cases h⟩
  | autoDec => exact ⟨fun e t h => by cases h; exact Addressed.of_decrement _ _ _, fun c t h => by cases h⟩
  | autoIncDef =>
    constructor
    · intro e t h
      simp only [eaOf] at h
      split at h <;> cases h
      rename_i hr
      exact (Addressed.of_read (readWord_state hs hr).2).trans (Addressed.of_bump _ _ _)
    · intro c t h
      simp only [eaOf] at h
      split at h <;> cases h
      rename_i hr
      refine (Addressed.of_read (readWord_abort hs hr)).trans ?_
      unfold mode3Abort
      split
      · exact Addressed.of_bump _ _ _
      · exact Addressed.refl _
      · refine Addressed.trans ?_ (Addressed.of_useFree _ 1)
        split
        · exact Addressed.of_bump _ _ _
        · exact Addressed.refl _
  | autoDecDef =>
    constructor
    · intro e t h
      obtain ⟨w, s1, h1, h2⟩ := Res.andThen_eq_ok.1 h
      cases h2
      exact (Addressed.of_decrement s r 2).trans (Addressed.of_read (readWord_state (hd 2) h1).2)
    · intro c t h
      rcases Res.andThen_eq_abort.1 h with h1 | ⟨w, s1, -, h2⟩
      · exact (Addressed.of_decrement s r 2).trans (Addressed.of_read (readWord_abort (hd 2) h1))
      · cases h2
  | index =>
    constructor
    · intro e t h
      obtain ⟨w, s1, h1, h2⟩ := Res.andThen_eq_ok.1 h
      cases h2
      exact (nextWord_addressed hs).1 _ _ h1
    · intro c t h
      rcases Res.andThen_eq_abort.1 h with h1 | ⟨w, s1, -, h2⟩
      · exact (nextWord_addressed hs).2 _ _ h1
      · cases h2
  | indexDef =>
    constructor
    · intro e t h
      obtain ⟨w, s1, h1, h2⟩ := Res.andThen_eq_ok.1 h
      obtain ⟨w2, s2, h3, h4⟩ := Res.andThen_eq_ok.1 h2
      cases h4
      have ha := (nextWord_addressed hs).1 _ _ h1
      exact ha.trans (Addressed.of_read (readWord_state (ha.npr.trans hs) h3).2)
    · intro c t h
      rcases Res.andThen_eq_abort.1 h with h1 | ⟨w, s1, h1, h2⟩
      · exact (nextWord_addressed hs).2 _ _ h1
      · have ha := (nextWord_addressed hs).1 _ _ h1
        rcases Res.andThen_eq_abort.1 h2 with h3 | ⟨w2, s2, -, h4⟩
        · exact ha.trans (Addressed.of_read (readWord_abort (ha.npr.trans hs) h3))
        · cases h4

/-- Reading an operand, whether it ends well or is aborted. -/
theorem readOperand_addressed {s : State} (hs : s.npr = []) (sz : Size) (o : Operand) :
    (∀ v t, readOperand sz o s = .ok v t → Addressed s t) ∧
    (∀ c t, readOperand sz o s = .abort c t → Addressed s t) := by
  cases o with
  | reg r => exact ⟨fun v t h => by cases h; exact Addressed.refl s, fun c t h => by cases h⟩
  | mem m r =>
    constructor
    · intro v t h
      obtain ⟨e, s1, h1, h2⟩ := Res.andThen_eq_ok.1 h
      obtain ⟨w, s2, h3, h4⟩ := Res.andThen_eq_ok.1 h2
      cases h4
      have ha := (eaOf_addressed hs m r sz).1 _ _ h1
      exact (ha.trans (Addressed.of_read (readMem_state (ha.npr.trans hs) h3))).trans (Addressed.of_bump _ _ _)
    · intro c t h
      rcases Res.andThen_eq_abort.1 h with h1 | ⟨e, s1, h1, h2⟩
      · exact (eaOf_addressed hs m r sz).2 _ _ h1
      · have ha := (eaOf_addressed hs m r sz).1 _ _ h1
        rcases Res.andThen_eq_abort.1 h2 with h3 | ⟨w, s2, -, h4⟩
        · exact ha.trans (Addressed.of_read (readMem_abort (ha.npr.trans hs) h3))
        · cases h4

/-- Reading a source: besides, R11 receives it. -/
theorem readSource_addressed {s : State} (hs : s.npr = []) (sz : Size) (o : Operand) :
    (∀ v t, readSource sz o s = .ok v t → ∃ u, Addressed s u ∧ t = u.setHidden { u.hidden with r11 := sourceWord sz v u }) ∧
    (∀ c t, readSource sz o s = .abort c t → Addressed s t) := by
  constructor
  · intro v t h
    obtain ⟨w, s1, h1, h2⟩ := Res.andThen_eq_ok.1 h
    cases h2
    exact ⟨s1, (readOperand_addressed hs sz o).1 _ _ h1, rfl⟩
  · intro c t h
    rcases Res.andThen_eq_abort.1 h with h1 | ⟨w, s1, -, h2⟩
    · exact (readOperand_addressed hs sz o).2 _ _ h1
    · cases h2

/-! ### How an instruction ends -/

/-- An instruction whose body ends well completes. -/
theorem instruction_of_ok {body : State → Res Unit} {s t : State} (h : body s.useScratch = .ok () t) :
    instruction body s = .next (t.complete s.tBit) := by
  simp [instruction, instructionEnding, h]

/-- An instruction whose body is aborted takes the trap of the abort. -/
theorem instruction_of_abort {body : State → Res Unit} {s t : State} {c : Abort}
    (h : body s.useScratch = .abort c t) : instruction body s = .next (takeAbort c t) := by
  simp [instruction, instructionEnding, h]

/-- The flag that a bus error sets is cleared by the trap that follows it, when none was pending. -/
theorem takeAbort_busError {s : State} (hb : s.pending.busError = false) :
    takeAbort .busError s = trapSequence true 0o4 s := by
  obtain ⟨g, psw, ir, hid, pend, rs, mem, req, latch, halt, pass, pow, ag, npr, acts, fr, inst⟩ := s
  obtain ⟨be, pe, tr, so, pf⟩ := pend
  simp only at hb
  subst hb
  rfl

/-- The trap sequence uses B: what it held before does not matter. -/
theorem trapSequence_setB (checked : Bool) (v w : Word) (s : State) :
    trapSequence checked v (s.setHidden { s.hidden with b := w }) = trapSequence checked v s := rfl

/-- The trap that follows an abort, when no error was pending: its flag is cleared, and B is used by the sequence. -/
theorem takeAbort_eq {c : Abort} {s : State} (hb : s.pending.busError = false) (hp : s.pending.parityError = false) :
    takeAbort c s = trapSequence true (abortVector c) s := by
  cases c with
  | busError => exact takeAbort_busError hb
  | parityError w =>
    rw [← trapSequence_setB true _ w s]
    obtain ⟨g, psw, ir, hid, pend, rs, mem, req, latch, halt, pass, pow, ag, npr, acts, fr, inst⟩ := s
    obtain ⟨be, pe, tr, so, pf⟩ := pend
    simp only at hb hp
    subst hb hp
    rfl

end Sys2Proof.Machine
end

