-- ==== Sys2Proof/Laws/Instr.lean ====
section
/-! SUPPORT. What the shared instruction bodies leave, said once for each body and each way it ends, for a processor that
has the bus to itself. -/

namespace Sys2Proof.Machine

open Sys2Proof.Config Sys2Proof.Safety

/-- The stack limit check as R271 words it: below 400. -/
theorem stackLow_eq (x : Word) : stackLow x = decide (x.toNat < 0o400) := by
  have h : highByte x = 0 ↔ x.toNat < 0o400 := by
    rw [← BitVec.toNat_inj]
    have := x.isLt
    simp only [highByte, BitVec.extractLsb'_toNat, Nat.shiftRight_eq_div_pow]
    show x.toNat / 2 ^ 8 % 2 ^ 8 = 0 ↔ _
    omega
  simp only [stackLow, h]

/-! ### Before the operation of an instruction -/

/-- What an instruction can have changed before its operation: besides what evaluating operands changes, the
microprogram's temporaries. -/
def Prepared (s t : State) : Prop :=
  ∃ g o n a b c d e, t = { s with
    regs := g, pending := { s.pending with stackOverflow := o }, free := n
    hidden := { s.hidden with r10 := a, r11 := b, r12 := c, r17 := d, b := e } }

theorem Prepared.of_useScratch (s : State) : Prepared s s.useScratch := ⟨_, _, _, _, _, _, _, _, rfl⟩

theorem Prepared.trans {s t u : State} (h : Prepared s t) (h' : Prepared t u) : Prepared s u := by
  obtain ⟨g, o, n, a, b, c, d, e, rfl⟩ := h
  obtain ⟨g', o', n', a', b', c', d', e', rfl⟩ := h'
  exact ⟨g', o', n', a', b', c', d', e', rfl⟩

theorem Addressed.prepared {s t : State} (h : Addressed s t) : Prepared s t := by
  obtain ⟨g, o, n, rfl⟩ := h
  exact ⟨g, o, n, _, _, _, _, _, rfl⟩

theorem Prepared.of_setReg (s : State) (r : Reg) (v : Word) : Prepared s (s.setReg r v) :=
  (Addressed.of_setReg s r v).prepared

theorem Prepared.npr {s t : State} (h : Prepared s t) : t.npr = s.npr := by
  obtain ⟨g, o, n, a, b, c, d, e, rfl⟩ := h; rfl
theorem Prepared.psw {s t : State} (h : Prepared s t) : t.psw = s.psw := by
  obtain ⟨g, o, n, a, b, c, d, e, rfl⟩ := h; rfl
theorem Prepared.cc {s t : State} (h : Prepared s t) : t.cc = s.cc := by
  obtain ⟨g, o, n, a, b, c, d, e, rfl⟩ := h; rfl
theorem Prepared.tBit {s t : State} (h : Prepared s t) : t.tBit = s.tBit := by
  obtain ⟨g, o, n, a, b, c, d, e, rfl⟩ := h; rfl
theorem Prepared.mem {s t : State} (h : Prepared s t) : t.mem = s.mem := by
  obtain ⟨g, o, n, a, b, c, d, e, rfl⟩ := h; rfl
theorem Prepared.inst {s t : State} (h : Prepared s t) : t.inst = s.inst := by
  obtain ⟨g, o, n, a, b, c, d, e, rfl⟩ := h; rfl
theorem Prepared.sameControl {s t : State} (h : Prepared s t) : SameControl s t := by
  obtain ⟨g, o, n, a, b, c, d, e, rfl⟩ := h
  simp [SameControl]

/-- An effective address, from the start of an instruction. -/
theorem Prepared.of_eaOf {s s0 t : State} {m : MemMode} {r : Reg} {sz : Size} {e : Word × Word} (hp : Prepared s s0)
    (hs : s.npr = []) (h : eaOf m r sz s0 = .ok e t) : Prepared s t :=
  hp.trans ((eaOf_addressed (hp.npr.trans hs) m r sz).1 _ _ h).prepared

/-- A source operand, from the start of an instruction. -/
theorem Prepared.of_readSource {s s0 t : State} {o : Operand} {sz : Size} {v : BitVec sz.bits} (hp : Prepared s s0)
    (hs : s.npr = []) (h : readSource sz o s0 = .ok v t) : Prepared s t := by
  obtain ⟨u, hu, rfl⟩ := (readSource_addressed (hp.npr.trans hs) sz o).1 _ _ h
  exact (hp.trans hu.prepared).trans ⟨_, _, _, _, _, _, _, _, rfl⟩

/-- An operand that is only read, from the start of an instruction. -/
theorem Prepared.of_readOperand {s s0 t : State} {o : Operand} {sz : Size} {v : BitVec sz.bits} (hp : Prepared s s0)
    (hs : s.npr = []) (h : readOperand sz o s0 = .ok v t) : Prepared s t :=
  hp.trans ((readOperand_addressed (hp.npr.trans hs) sz o).1 _ _ h).prepared

/-! ### How an instruction completes -/

/-- What an instruction leaves that completes from `t`, having changed the PSW and memory since it was prepared. -/
theorem completed_of {s p t : State} (hp : Prepared s p) {g : Regs} {m : Memory} {w : Byte} {n : Nat} {o : Bool}
    (ht : t = { p with regs := g, mem := m, psw := w, free := n, pending := { p.pending with stackOverflow := o } }) :
    Completed s (t.complete s.tBit) := by
  obtain ⟨g', o', n', a, b, c, d, e, rfl⟩ := hp
  subst ht
  refine ⟨?_, rfl⟩
  unfold SameControl
  and_intros <;> rfl

/-- The store of a value, seen from the start of the instruction. -/
theorem Stored.of_prepared {sz : Size} {a : Word} {v : BitVec sz.bits} {s p t : State} (hp : Prepared s p)
    (h : Stored sz a v p t) (tb : Bool) : Stored sz a v s (t.complete tb) := by
  obtain ⟨g', o', n', a, b, c, d, e, rfl⟩ := hp
  exact h

theorem PswAfterStore.of_prepared {a : Word} {d : Byte} {f : Cc} {s p t : State} (hp : Prepared s p)
    (h : PswAfterStore a d f p t) (tb : Bool) : PswAfterStore a d f s (t.complete tb) := by
  obtain ⟨g', o', n', a, b, c, d, e, rfl⟩ := hp
  exact h

/-- The destination in memory of a modifying instruction: its result is stored. -/
theorem modifyOperand_mem {sz : Size} {m : MemMode} {r : Reg} {f : Cc → BitVec sz.bits → Alu sz.bits} {s s1 s2 : State}
    {ea inc : Word} {old : BitVec sz.bits} (hs : s.npr = []) (he : eaOf m r sz s = .ok (ea, inc) s1)
    (hr : readMem sz .datip ea s1 = .ok old s2) (ha : answersWrite sz s ea = true) :
    ∃ t, modifyOperand sz (.mem m r) f s = .ok () t ∧
      (∀ q, t.reg q = if q = r then s1.reg r + inc else s1.reg q) ∧
      Stored sz ea (f s.cc old).res s t ∧ PswAfterStore ea (lowOf sz (f s.cc old).res) (f s.cc old).cc s t ∧
      ∃ g m w n, t = { s1 with regs := g, mem := m, psw := w, free := n } := by
  have h1 := (eaOf_addressed hs m r sz).1 _ _ he
  have h2 := readMem_state (h1.npr.trans hs) hr
  have h12 := Addressed.of_read h2
  have hcc : s2.cc = s.cc := h12.cc.trans h1.cc
  have hreg : ∀ q, s2.reg q = s1.reg q := by intro q; rcases h2 with rfl | rfl <;> rfl
  have ho : sz = .word → isOdd ea = false := by
    rintro rfl
    exact (readWord_state (h1.npr.trans hs) hr).1
  have ha2 : answersWrite sz ((s2.bump r inc).setCc (f s.cc old).cc) ea = true := by
    simpa [answersWrite, h12.inst, h1.inst] using ha
  obtain ⟨t, ht, hst, hps, m', p', n', he'⟩ := putMem_stored sz (f s.cc old).res ho ha2
  refine ⟨t, ?_, ?_, ?_, ?_, ?_⟩
  · simp only [modifyOperand, he, Res.andThen_ok, hr, hcc, ht]
  · intro q
    rw [he']
    show (s2.bump r inc).reg q = _
    rw [State.reg_bump, hreg, hreg]
  · have hm : ∀ x, ((s2.bump r inc).setCc (f s.cc old).cc).memByte x = s.memByte x := by
      intro x; simp [State.memByte, h12.mem, h1.mem]
    have hi : ((s2.bump r inc).setCc (f s.cc old).cc).inst = s.inst := by simp [h12.inst, h1.inst]
    have hmm : ((s2.bump r inc).setCc (f s.cc old).cc).mem = s.mem := by simp [h12.mem, h1.mem]
    unfold Stored at hst ⊢
    simpa only [SameMemory, SameMemoryBut, hm, hi, hmm] using hst
  · have hi : ((s2.bump r inc).setCc (f s.cc old).cc).inst = s.inst := by simp [h12.inst, h1.inst]
    have hsp : SamePriority s ((s2.bump r inc).setCc (f s.cc old).cc) := by
      simp only [SamePriority, State.high_psw_setCc, State.psw_bump, h12.psw, h1.psw]
    unfold PswAfterStore at hps ⊢
    simp only [hi, State.cc_setCc, SamePriority] at hps hsp ⊢
    rw [hsp] at hps
    exact hps
  · refine ⟨(s2.bump r inc).regs, m', p', n', ?_⟩
    rcases h2 with h | h
    · rw [he', h]; rfl
    · rw [he', h]; rfl

theorem writeMem_alone {sz : Size} {a : Word} {v : BitVec sz.bits} {s : State} (hs : s.npr = []) :
    writeMem sz a v s = putMem sz a v s := by
  cases sz <;> simp [writeMem, putMem, writeByte, writeWord, hs]

/-- The destination in memory of MOV and CLR: the value is stored. -/
theorem storeOperand_mem {sz : Size} {m : MemMode} {r : Reg} {f : Cc → Alu sz.bits} {s s1 : State} {ea inc : Word}
    (hs : s.npr = []) (he : eaOf m r sz s = .ok (ea, inc) s1)
    (hr : s.inst.params.movClrReadBeforeWrite = true → ∃ old s2, readMem sz .datip ea s1 = .ok old s2)
    (ho : sz = .word → isOdd ea = false) (ha : answersWrite sz s ea = true) :
    ∃ t, storeOperand sz (.mem m r) f s = .ok () t ∧
      (∀ q, t.reg q = if q = r then s1.reg r + inc else s1.reg q) ∧
      Stored sz ea (f s.cc).res s t ∧ PswAfterStore ea (lowOf sz (f s.cc).res) (f s.cc).cc s t ∧
      ∃ g m w n, t = { s1 with regs := g, mem := m, psw := w, free := n } := by
  cases hp : s.inst.params.movClrReadBeforeWrite with
  | true =>
    obtain ⟨old, s2, h2⟩ := hr hp
    obtain ⟨t, h⟩ := modifyOperand_mem (f := fun c _ => f c) hs he h2 ha
    exact ⟨t, by simpa only [storeOperand, hp, if_true] using h.1, h.2⟩
  | false =>
    have h1 := (eaOf_addressed hs m r sz).1 _ _ he
    have ha1 : answersWrite sz (s1.setCc (f s.cc).cc) ea = true := by simpa [answersWrite, h1.inst] using ha
    obtain ⟨t, ht, hst, hps, m', p', n', he'⟩ := putMem_stored sz (f s.cc).res ho ha1
    refine ⟨t.bump r inc, ?_, ?_, ?_, ?_, ?_⟩
    · simp only [storeOperand, hp, he, Res.andThen_ok, h1.cc, Bool.false_eq_true, if_false]
      rw [writeMem_alone (by simp [h1.npr, hs]), ht]
      rfl
    · intro q
      rw [State.reg_bump, he']
      rfl
    · have hm : ∀ x, (s1.setCc (f s.cc).cc).memByte x = s.memByte x := by intro x; simp [State.memByte, h1.mem]
      have hi : (s1.setCc (f s.cc).cc).inst = s.inst := by simp [h1.inst]
      have hmm : (s1.setCc (f s.cc).cc).mem = s.mem := by simp [h1.mem]
      unfold Stored at hst ⊢
      simpa only [SameMemory, SameMemoryBut, hm, hi, hmm, State.memByte_bump, State.memWord_bump] using hst
    · have hi : (s1.setCc (f s.cc).cc).inst = s.inst := by simp [h1.inst]
      have hsp : SamePriority s (s1.setCc (f s.cc).cc) := by
        simp only [SamePriority, State.high_psw_setCc, h1.psw]
      unfold PswAfterStore at hps ⊢
      simp only [hi, State.cc_setCc, SamePriority] at hps hsp ⊢
      rw [hsp] at hps
      exact hps
    · refine ⟨(t.bump r inc).regs, m', p', n', ?_⟩
      rw [he']; rfl

end Sys2Proof.Machine
end

