-- ==== Sys2Proof/Laws/PerInstr.lean ====
section
/-! SUPPORT. The family DecodeEncode of LAWS.json: for each constructor of `Instr`, decoding the word of an instruction
gives the instruction back (R82 to R90). The fields of an encoded word come first. -/

namespace Sys2Proof

/-! ### Fields of encoded words -/

theorem toNat_field (w : Word) (lo len : Nat) : (field w lo len).toNat = w.toNat / 2 ^ lo % 2 ^ len := by
  simp [field, Nat.shiftRight_eq_div_pow]

theorem Operand.ofCode_code (o : Operand) : Operand.ofCode o.code = o := by
  cases o with
  | reg r => cases r <;> rfl
  | mem m r => cases m <;> cases r <;> rfl

theorem field_sop (op : BitVec 10) (o : Operand) (lo len : Nat) (h : 6 ≤ lo) :
    field (encodeSop op o) lo len = op.extractLsb' (lo - 6) len := by
  apply BitVec.eq_of_getLsbD_eq
  intro i hi
  simp only [field, encodeSop, BitVec.getLsbD_append, BitVec.getLsbD_extractLsb', hi, decide_true, Bool.true_and]
  rw [if_neg (by omega)]
  congr 1; omega

theorem dst_sop (op : BitVec 10) (o : Operand) : dstField (encodeSop op o) = o := by
  have h : field (encodeSop op o) 0 6 = o.code := by
    apply BitVec.eq_of_getLsbD_eq
    intro i hi
    simp only [field, encodeSop, BitVec.getLsbD_append, BitVec.getLsbD_extractLsb', Nat.zero_add, hi, decide_true,
      Bool.true_and, if_true]
  rw [dstField, h, Operand.ofCode_code]

theorem field_byteOp (op low : Byte) (lo len : Nat) (h : 8 ≤ lo) :
    field (encodeByteOp op low) lo len = op.extractLsb' (lo - 8) len := by
  apply BitVec.eq_of_getLsbD_eq
  intro i hi
  simp only [field, encodeByteOp, BitVec.getLsbD_append, BitVec.getLsbD_extractLsb', hi, decide_true, Bool.true_and]
  rw [if_neg (by omega)]
  congr 1; omega

theorem low_byteOp (op low : Byte) : field (encodeByteOp op low) 0 8 = low := by
  apply BitVec.eq_of_getLsbD_eq
  intro i hi
  simp only [field, encodeByteOp, BitVec.getLsbD_append, BitVec.getLsbD_extractLsb', Nat.zero_add, hi, decide_true,
    Bool.true_and, if_true]

theorem field_dop (op : BitVec 4) (src dst : Operand) : field (encodeDop op src dst) 12 4 = op := by
  apply BitVec.eq_of_getLsbD_eq
  intro i hi
  simp only [field, encodeDop, BitVec.getLsbD_append, BitVec.getLsbD_extractLsb', hi, decide_true, Bool.true_and]
  rw [if_neg (by omega), if_neg (by omega)]
  congr 1; omega

theorem src_dop (op : BitVec 4) (src dst : Operand) : srcField (encodeDop op src dst) = src := by
  have h : field (encodeDop op src dst) 6 6 = src.code := by
    apply BitVec.eq_of_getLsbD_eq
    intro i hi
    simp only [field, encodeDop, BitVec.getLsbD_append, BitVec.getLsbD_extractLsb', hi, decide_true, Bool.true_and]
    rw [if_neg (by omega), if_pos (by omega)]
    congr 1; omega
  rw [srcField, h, Operand.ofCode_code]

theorem dst_dop (op : BitVec 4) (src dst : Operand) : dstField (encodeDop op src dst) = dst := by
  have h : field (encodeDop op src dst) 0 6 = dst.code := by
    apply BitVec.eq_of_getLsbD_eq
    intro i hi
    simp only [field, encodeDop, BitVec.getLsbD_append, BitVec.getLsbD_extractLsb', Nat.zero_add, hi, decide_true,
      Bool.true_and, if_true]
  rw [dstField, h, Operand.ofCode_code]

theorem field_eis (low : BitVec 12) : field ((0o07 : BitVec 4) ++ low) 12 4 = 7 := by
  apply BitVec.eq_of_getLsbD_eq
  intro i hi
  simp only [field, BitVec.getLsbD_append, BitVec.getLsbD_extractLsb', hi, decide_true, Bool.true_and]
  rw [if_neg (by omega)]
  congr 1; omega

theorem low_eis (low : BitVec 12) : field ((0o07 : BitVec 4) ++ low) 0 12 = low := by
  apply BitVec.eq_of_getLsbD_eq
  intro i hi
  simp only [field, BitVec.getLsbD_append, BitVec.getLsbD_extractLsb', Nat.zero_add, hi, decide_true, Bool.true_and,
    if_true]

/-! ### Reserved words -/

theorem decodeWordGroup_reserved {w : Word} (h : 20 ≤ (field w 6 5).toNat) : decodeWordGroup w = .reserved w := by
  unfold decodeWordGroup
  split <;> first | rfl | omega

theorem decodeByteGroup_reserved {w : Word} (h : 20 ≤ (field w 6 5).toNat) : decodeByteGroup w = .reserved w := by
  unfold decodeByteGroup
  split <;> first | rfl | omega

theorem decodeOperate_reserved {w : Word}
    (h : (7 ≤ w.toNat ∧ w.toNat ≤ 63) ∨ (136 ≤ w.toNat ∧ w.toNat ≤ 159)) : decodeOperate w = .reserved w := by
  have h2 := toNat_field w 6 2
  have h6 := toNat_field w 0 6
  have h3 := toNat_field w 3 3
  rcases h with h | h
  · simp only [decodeOperate, show (field w 6 2).toNat = 0 by omega]
    split <;> first | rfl | omega
  · simp only [decodeOperate, show (field w 6 2).toNat = 2 by omega]
    split <;> first | rfl | omega

theorem decode_reserved (w : Word) (h : isReservedWord w = true) : decode w = .reserved w := by
  simp only [isReservedWord, Bool.or_eq_true, Bool.and_eq_true, decide_eq_true_eq] at h
  have h12 := toNat_field w 12 4
  have h11 := toNat_field w 11 1
  have h65 := toNat_field w 6 5
  have hw := w.isLt
  have hz : field w 11 1 = 0 ↔ (field w 11 1).toNat = 0 := by simp [← BitVec.toNat_inj]
  have hb : (field w 15 1 ++ field w 8 3).toNat = (field w 15 1).toNat * 8 + (field w 8 3).toNat := by
    rw [BitVec.toNat_append, Nat.shiftLeft_eq, Nat.mul_comm, ← Nat.two_pow_add_eq_or_of_lt (field w 8 3).isLt,
      Nat.mul_comm]
  have h15 := toNat_field w 15 1
  have h8 := toNat_field w 8 3
  unfold decode
  split
  · split
    · rename_i hd
      rw [hz] at hd
      simp only [decodeBranch, show (field w 15 1 ++ field w 8 3).toNat = 0 by omega]
      exact decodeOperate_reserved (by omega)
    · rename_i hd
      rw [hz] at hd
      exact decodeWordGroup_reserved (by omega)
  all_goals first | rfl | omega | skip
  split
  · rename_i hd
    rw [hz] at hd
    omega
  · rename_i hd
    rw [hz] at hd
    exact decodeByteGroup_reserved (by omega)

namespace Laws.DecodeEncode

/-- Decoding the word of the instruction, if it is well formed, gives the instruction back. -/
def Statement (i : Instr) : Prop := i.wf = true → decode (encode i) = i

theorem halt : Statement (.halt) := fun _ => rfl

theorem wait : Statement (.wait) := fun _ => rfl

theorem rti : Statement (.rti) := fun _ => rfl

theorem bpt : Statement (.bpt) := fun _ => rfl

theorem iot : Statement (.iot) := fun _ => rfl

theorem reset : Statement (.reset) := fun _ => rfl

theorem rtt : Statement (.rtt) := fun _ => rfl

theorem reserved (w : Word) : Statement (.reserved w) := fun h => decode_reserved w h

theorem illegalJmp (r : Reg) : Statement (.illegalJmp r) := fun _ => by cases r <;> rfl

theorem jmp (m : MemMode) (r : Reg) : Statement (.jmp m r) := fun _ => by cases m <;> cases r <;> rfl

theorem rts (r : Reg) : Statement (.rts r) := fun _ => by cases r <;> rfl

theorem clcc (mask : BitVec 4) : Statement (.clcc mask) := fun _ => by revert mask; decide

theorem secc (mask : BitVec 4) : Statement (.secc mask) := fun _ => by revert mask; decide

theorem swab (dst : Operand) : Statement (.swab dst) := fun _ => by
  simp only [encode, decode, decodeBranch, decodeOperate, field_sop, dst_sop, Nat.le_refl, Nat.reduceLeDiff]
  rfl

theorem br (offset : Byte) : Statement (.br offset) := fun _ => by
  simp only [encode, decode, decodeBranch, field_byteOp, low_byteOp, Nat.le_refl, Nat.reduceLeDiff]
  rfl

theorem bne (offset : Byte) : Statement (.bne offset) := fun _ => by
  simp only [encode, decode, decodeBranch, field_byteOp, low_byteOp, Nat.le_refl, Nat.reduceLeDiff]
  rfl

theorem beq (offset : Byte) : Statement (.beq offset) := fun _ => by
  simp only [encode, decode, decodeBranch, field_byteOp, low_byteOp, Nat.le_refl, Nat.reduceLeDiff]
  rfl

theorem bge (offset : Byte) : Statement (.bge offset) := fun _ => by
  simp only [encode, decode, decodeBranch, field_byteOp, low_byteOp, Nat.le_refl, Nat.reduceLeDiff]
  rfl

theorem blt (offset : Byte) : Statement (.blt offset) := fun _ => by
  simp only [encode, decode, decodeBranch, field_byteOp, low_byteOp, Nat.le_refl, Nat.reduceLeDiff]
  rfl

theorem bgt (offset : Byte) : Statement (.bgt offset) := fun _ => by
  simp only [encode, decode, decodeBranch, field_byteOp, low_byteOp, Nat.le_refl, Nat.reduceLeDiff]
  rfl

theorem ble (offset : Byte) : Statement (.ble offset) := fun _ => by
  simp only [encode, decode, decodeBranch, field_byteOp, low_byteOp, Nat.le_refl, Nat.reduceLeDiff]
  rfl

theorem bpl (offset : Byte) : Statement (.bpl offset) := fun _ => by
  simp only [encode, decode, decodeBranch, field_byteOp, low_byteOp, Nat.le_refl, Nat.reduceLeDiff]
  rfl

theorem bmi (offset : Byte) : Statement (.bmi offset) := fun _ => by
  simp only [encode, decode, decodeBranch, field_byteOp, low_byteOp, Nat.le_refl, Nat.reduceLeDiff]
  rfl

theorem bhi (offset : Byte) : Statement (.bhi offset) := fun _ => by
  simp only [encode, decode, decodeBranch, field_byteOp, low_byteOp, Nat.le_refl, Nat.reduceLeDiff]
  rfl

theorem blos (offset : Byte) : Statement (.blos offset) := fun _ => by
  simp only [encode, decode, decodeBranch, field_byteOp, low_byteOp, Nat.le_refl, Nat.reduceLeDiff]
  rfl

theorem bvc (offset : Byte) : Statement (.bvc offset) := fun _ => by
  simp only [encode, decode, decodeBranch, field_byteOp, low_byteOp, Nat.le_refl, Nat.reduceLeDiff]
  rfl

theorem bvs (offset : Byte) : Statement (.bvs offset) := fun _ => by
  simp only [encode, decode, decodeBranch, field_byteOp, low_byteOp, Nat.le_refl, Nat.reduceLeDiff]
  rfl

theorem bcc (offset : Byte) : Statement (.bcc offset) := fun _ => by
  simp only [encode, decode, decodeBranch, field_byteOp, low_byteOp, Nat.le_refl, Nat.reduceLeDiff]
  rfl

theorem bcs (offset : Byte) : Statement (.bcs offset) := fun _ => by
  simp only [encode, decode, decodeBranch, field_byteOp, low_byteOp, Nat.le_refl, Nat.reduceLeDiff]
  rfl

theorem illegalJsr (link : Reg) (r : Reg) :
    Statement (.illegalJsr link r) := fun _ => by cases link <;> cases r <;> rfl

theorem jsr (link : Reg) (m : MemMode) (r : Reg) :
    Statement (.jsr link m r) := fun _ => by cases link <;> cases m <;> cases r <;> rfl

theorem clr (dst : Operand) : Statement (.clr dst) := fun _ => by
  simp only [encode, decode, decodeWordGroup, field_sop, dst_sop, Nat.le_refl, Nat.reduceLeDiff]
  rfl

theorem com (dst : Operand) : Statement (.com dst) := fun _ => by
  simp only [encode, decode, decodeWordGroup, field_sop, dst_sop, Nat.le_refl, Nat.reduceLeDiff]
  rfl

theorem inc (dst : Operand) : Statement (.inc dst) := fun _ => by
  simp only [encode, decode, decodeWordGroup, field_sop, dst_sop, Nat.le_refl, Nat.reduceLeDiff]
  rfl

theorem dec (dst : Operand) : Statement (.dec dst) := fun _ => by
  simp only [encode, decode, decodeWordGroup, field_sop, dst_sop, Nat.le_refl, Nat.reduceLeDiff]
  rfl

theorem neg (dst : Operand) : Statement (.neg dst) := fun _ => by
  simp only [encode, decode, decodeWordGroup, field_sop, dst_sop, Nat.le_refl, Nat.reduceLeDiff]
  rfl

theorem adc (dst : Operand) : Statement (.adc dst) := fun _ => by
  simp only [encode, decode, decodeWordGroup, field_sop, dst_sop, Nat.le_refl, Nat.reduceLeDiff]
  rfl

theorem sbc (dst : Operand) : Statement (.sbc dst) := fun _ => by
  simp only [encode, decode, decodeWordGroup, field_sop, dst_sop, Nat.le_refl, Nat.reduceLeDiff]
  rfl

theorem tst (dst : Operand) : Statement (.tst dst) := fun _ => by
  simp only [encode, decode, decodeWordGroup, field_sop, dst_sop, Nat.le_refl, Nat.reduceLeDiff]
  rfl

theorem ror (dst : Operand) : Statement (.ror dst) := fun _ => by
  simp only [encode, decode, decodeWordGroup, field_sop, dst_sop, Nat.le_refl, Nat.reduceLeDiff]
  rfl

theorem rol (dst : Operand) : Statement (.rol dst) := fun _ => by
  simp only [encode, decode, decodeWordGroup, field_sop, dst_sop, Nat.le_refl, Nat.reduceLeDiff]
  rfl

theorem asr (dst : Operand) : Statement (.asr dst) := fun _ => by
  simp only [encode, decode, decodeWordGroup, field_sop, dst_sop, Nat.le_refl, Nat.reduceLeDiff]
  rfl

theorem asl (dst : Operand) : Statement (.asl dst) := fun _ => by
  simp only [encode, decode, decodeWordGroup, field_sop, dst_sop, Nat.le_refl, Nat.reduceLeDiff]
  rfl

theorem clrb (dst : Operand) : Statement (.clrb dst) := fun _ => by
  simp only [encode, decode, decodeByteGroup, field_sop, dst_sop, Nat.le_refl, Nat.reduceLeDiff]
  rfl

theorem comb (dst : Operand) : Statement (.comb dst) := fun _ => by
  simp only [encode, decode, decodeByteGroup, field_sop, dst_sop, Nat.le_refl, Nat.reduceLeDiff]
  rfl

theorem incb (dst : Operand) : Statement (.incb dst) := fun _ => by
  simp only [encode, decode, decodeByteGroup, field_sop, dst_sop, Nat.le_refl, Nat.reduceLeDiff]
  rfl

theorem decb (dst : Operand) : Statement (.decb dst) := fun _ => by
  simp only [encode, decode, decodeByteGroup, field_sop, dst_sop, Nat.le_refl, Nat.reduceLeDiff]
  rfl

theorem negb (dst : Operand) : Statement (.negb dst) := fun _ => by
  simp only [encode, decode, decodeByteGroup, field_sop, dst_sop, Nat.le_refl, Nat.reduceLeDiff]
  rfl

theorem adcb (dst : Operand) : Statement (.adcb dst) := fun _ => by
  simp only [encode, decode, decodeByteGroup, field_sop, dst_sop, Nat.le_refl, Nat.reduceLeDiff]
  rfl

theorem sbcb (dst : Operand) : Statement (.sbcb dst) := fun _ => by
  simp only [encode, decode, decodeByteGroup, field_sop, dst_sop, Nat.le_refl, Nat.reduceLeDiff]
  rfl

theorem tstb (dst : Operand) : Statement (.tstb dst) := fun _ => by
  simp only [encode, decode, decodeByteGroup, field_sop, dst_sop, Nat.le_refl, Nat.reduceLeDiff]
  rfl

theorem rorb (dst : Operand) : Statement (.rorb dst) := fun _ => by
  simp only [encode, decode, decodeByteGroup, field_sop, dst_sop, Nat.le_refl, Nat.reduceLeDiff]
  rfl

theorem rolb (dst : Operand) : Statement (.rolb dst) := fun _ => by
  simp only [encode, decode, decodeByteGroup, field_sop, dst_sop, Nat.le_refl, Nat.reduceLeDiff]
  rfl

theorem asrb (dst : Operand) : Statement (.asrb dst) := fun _ => by
  simp only [encode, decode, decodeByteGroup, field_sop, dst_sop, Nat.le_refl, Nat.reduceLeDiff]
  rfl

theorem aslb (dst : Operand) : Statement (.aslb dst) := fun _ => by
  simp only [encode, decode, decodeByteGroup, field_sop, dst_sop, Nat.le_refl, Nat.reduceLeDiff]
  rfl

theorem mov (src dst : Operand) : Statement (.mov src dst) := fun _ => by
  simp only [encode, decode, field_dop, src_dop, dst_dop]
  rfl

theorem cmp (src dst : Operand) : Statement (.cmp src dst) := fun _ => by
  simp only [encode, decode, field_dop, src_dop, dst_dop]
  rfl

theorem bit (src dst : Operand) : Statement (.bit src dst) := fun _ => by
  simp only [encode, decode, field_dop, src_dop, dst_dop]
  rfl

theorem bic (src dst : Operand) : Statement (.bic src dst) := fun _ => by
  simp only [encode, decode, field_dop, src_dop, dst_dop]
  rfl

theorem bis (src dst : Operand) : Statement (.bis src dst) := fun _ => by
  simp only [encode, decode, field_dop, src_dop, dst_dop]
  rfl

theorem add (src dst : Operand) : Statement (.add src dst) := fun _ => by
  simp only [encode, decode, field_dop, src_dop, dst_dop]
  rfl

theorem reservedEis (low : BitVec 12) : Statement (.reservedEis low) := fun _ => by
  simp only [encode, decode, field_eis, low_eis]
  rfl

theorem emt (code : Byte) : Statement (.emt code) := fun _ => by revert code; decide

theorem trap (code : Byte) : Statement (.trap code) := fun _ => by revert code; decide

theorem movb (src dst : Operand) : Statement (.movb src dst) := fun _ => by
  simp only [encode, decode, field_dop, src_dop, dst_dop]
  rfl

theorem cmpb (src dst : Operand) : Statement (.cmpb src dst) := fun _ => by
  simp only [encode, decode, field_dop, src_dop, dst_dop]
  rfl

theorem bitb (src dst : Operand) : Statement (.bitb src dst) := fun _ => by
  simp only [encode, decode, field_dop, src_dop, dst_dop]
  rfl

theorem bicb (src dst : Operand) : Statement (.bicb src dst) := fun _ => by
  simp only [encode, decode, field_dop, src_dop, dst_dop]
  rfl

theorem bisb (src dst : Operand) : Statement (.bisb src dst) := fun _ => by
  simp only [encode, decode, field_dop, src_dop, dst_dop]
  rfl

theorem sub (src dst : Operand) : Statement (.sub src dst) := fun _ => by
  simp only [encode, decode, field_dop, src_dop, dst_dop]
  rfl

end Laws.DecodeEncode

end Sys2Proof
end

