-- ==== Sys2Proof/Laws/Trap.lean ====
section
/-! SUPPORT. What taking a trap can do, said once for each of its parts. -/

namespace Sys2Proof.Machine

open Sys2Proof.Config Sys2Proof.Safety

/-- A plain word stays one whatever changes but the installation. -/
theorem plainWord_congr {s t : State} (h : t.inst = s.inst) (a : Word) : plainWord t a = plainWord s a := by
  simp [plainWord, plainMemory, h]

/-- A read of the trap routine, from plain memory. -/
theorem readIntoB_plain {a : Word} {s : State} (hn : s.npr = []) (h : plainWord s a = true) :
    readIntoB a s = .ok (s.memWord a) (s.setHidden { s.hidden with b := s.memWord a }) := by
  simp [readIntoB, readWord_plain hn h]

/-- A read of the trap routine that raises: after a bus error B holds a free value, after bad parity it is as it was. -/
theorem readIntoB_abort {a : Word} {s t : State} {c : Abort} (h : readWord .dati a s = .abort c t) :
    readIntoB a s = .abort c
      (if c = .busError then (t.setHidden { t.hidden with b := freeWord t.free }).useFree 1 else t) := by
  cases c <;> simp [readIntoB, h]

/-- The push of the PSW, while no master has the bus. -/
theorem pushPsw_of_alone {s : State} (hn : s.npr = []) :
    pushPsw s = writeWord (s.reg .sp) (zext s.psw) s := by
  simp [pushPsw, writeWord, State.busWindow_of_alone hn]

/-- Loading PC and PSW from a vector in plain memory. -/
theorem loadVector_plain {v : Word} {s : State} (hn : s.npr = []) (h1 : plainWord s v = true)
    (h2 : plainWord s (v + 2) = true) :
    loadVector v s = .ok () { s with
      regs := s.regs.set .pc (s.memWord v), psw := lowByte (s.memWord (v + 2))
      hidden := { s.hidden with r13 := v + 2, b := s.memWord (v + 2) } } := by
  unfold loadVector
  rw [readIntoB_plain hn h1]
  simp only [Res.andThen_ok]
  rw [readIntoB_plain]
  · rfl
  · exact hn
  · rw [← h2]
    exact plainWord_congr rfl _

/-- The state in which the trap sequence makes its first push. -/
def trapStart (checked : Bool) (v : Word) (s : State) : State :=
  ((s.setRunState .run).setHidden { s.hidden with r13 := v, b := v }).pushDown checked

/-- The trap sequence by its first push. -/
theorem trapSequence_eq (checked : Bool) (v : Word) (s : State) :
    trapSequence checked v s =
      match pushPsw (trapStart checked v s) with
      | .abort _ t => doubleBusError t
      | .ok _ t => (pushPcAndVector checked v t).settle := rfl

theorem trapStart_eq (checked : Bool) (v : Word) (s : State) :
    trapStart checked v s = { s with
      regs := s.regs.set .sp (s.reg .sp - 2), runState := .run
      hidden := { s.hidden with r13 := v, b := v }
      pending := { s.pending with
        stackOverflow := s.pending.stackOverflow || (checked && stackLow (s.reg .sp - 2)) } } := by
  rw [trapStart, State.pushDown_eq]
  rfl

/-- The trap sequence by its first push, while no master has the bus. -/
theorem trapSequence_of_alone (checked : Bool) (v : Word) {s : State} (hn : s.npr = []) :
    trapSequence checked v s =
      match writeWord (s.reg .sp - 2) (zext s.psw) (trapStart checked v s) with
      | .abort _ t => doubleBusError t
      | .ok _ t => (pushPcAndVector checked v t).settle := by
  have h1 : (trapStart checked v s).reg .sp = s.reg .sp - 2 := by rw [trapStart_eq]; rfl
  have h2 : (trapStart checked v s).psw = s.psw := by rw [trapStart_eq]
  rw [trapSequence_eq, pushPsw_of_alone (by rw [trapStart_eq]; exact hn), h1, h2]

/-- The push of PC, where it is answered by plain memory. -/
theorem pushPcAndVector_plain {checked : Bool} {v : Word} {s : State} (hn : s.npr = [])
    (h : plainWord s (s.reg .sp - 2) = true) :
    pushPcAndVector checked v s =
      loadVector v (((s.setMemWord (s.reg .sp - 2) (s.reg .pc)).pushDown checked).setHidden
        { s.hidden with b := s.reg .pc }) := by
  have push (x : State) (hx : x = (s.pushDown checked).setHidden { s.hidden with b := s.reg .pc }) :
      writeWord (x.reg .sp) (x.reg .pc) x = .ok () (x.setMemWord (s.reg .sp - 2) (s.reg .pc)) := by
    rw [State.pushDown_eq] at hx
    subst hx
    exact writeWord_plain _ hn ((plainWord_congr rfl _).trans h)
  have start : { (s.pushDown checked).hidden with b := (s.pushDown checked).reg .pc } =
      { s.hidden with b := s.reg .pc } := by rw [State.pushDown_eq]; rfl
  unfold pushPcAndVector
  simp only
  rw [push _ (by rw [start]), start]
  simp only [Res.andThen_ok, State.pushDown_eq]
  rfl

/-- The state that a trap leaves whose pushes and vector are in plain memory. -/
theorem trapSequence_ready {checked : Bool} {v : Word} {s : State} (h : TrapReady v s) :
    let m := (s.setMemWord (s.reg .sp - 2) (zext s.psw)).setMemWord (s.reg .sp - 4) (s.reg .pc)
    trapSequence checked v s = { s with
      regs := (s.regs.set .sp (s.reg .sp - 4)).set .pc (m.memWord v)
      psw := lowByte (m.memWord (v + 2)), mem := m.mem, runState := .run
      hidden := { s.hidden with r13 := v + 2, b := m.memWord (v + 2) }
      pending := { s.pending with stackOverflow := s.pending.stackOverflow ||
        (checked && (stackLow (s.reg .sp - 2) || stackLow (s.reg .sp - 4))) } } := by
  obtain ⟨hn, -, h2, h4, hv, hv2⟩ := h
  intro m
  have e4 : s.reg .sp - 2 - 2 = s.reg .sp - 4 := by
    rw [BitVec.sub_sub]
    rfl
  rw [trapSequence_of_alone _ _ hn, writeWord_plain _ (by rw [trapStart_eq]; exact hn)
    (by rw [← h2]; exact plainWord_congr (by rw [trapStart_eq]) _)]
  simp only
  have hsp : (State.setMemWord (trapStart checked v s) (s.reg .sp - 2) (zext s.psw)).reg .sp = s.reg .sp - 2 := by
    rw [trapStart_eq]; rfl
  rw [pushPcAndVector_plain (by rw [trapStart_eq]; exact hn)
    (by rw [hsp, e4, ← h4]; exact plainWord_congr (by rw [trapStart_eq]; rfl) _)]
  have hsp' : ∀ a x, (((trapStart checked v s).setMemWord (s.reg .sp - 2) (zext s.psw)).setMemWord a x).reg .sp =
      s.reg .sp - 2 := fun _ _ => hsp
  rw [hsp, e4, State.pushDown_eq, hsp', e4, trapStart_eq]
  rw [loadVector_plain]
  · simp only [Res.settle]
    cases checked <;> cases s.pending.stackOverflow <;> cases stackLow (s.reg .sp - 2) <;> rfl
  · exact hn
  · rw [← hv]
    exact plainWord_congr rfl _
  · rw [← hv2]
    exact plainWord_congr rfl _

end Sys2Proof.Machine
end

