-- ==== Sys2Proof/Tests/Slice0.lean ====
section
/-! SUPPORT. Tests: which terms are ill formed; decoding, word by word from the encoding tables; one step of each
instruction against the vectors of spec 95; and, for each statement with hypotheses, states that meet them. -/

namespace Sys2Proof.Tests

open Sys2Proof Sys2Proof.Config Sys2Proof.Machine Sys2Proof.Safety

/-! ### Well-formedness -/

/-- A term that calls a word reserved which is not (R90) is refused: CLR R0, the last JMP word, the first EIS word. -/
theorem test_wf_refuses :
    (Instr.reserved 0o005000).wf = false ∧ (Instr.reserved 0o000177).wf = false ∧
    (Instr.reserved 0o070000).wf = false ∧ (Instr.reserved 0o000006).wf = false := by
  decide

/-- The first and last word of each reserved range (R90) is accepted. -/
theorem test_wf_accepts :
    ([0o000007, 0o000077, 0o000210, 0o000237, 0o006400, 0o007777, 0o106400, 0o107777, 0o170000, 0o177777].all
      fun w => (Instr.reserved w).wf) = true := by
  decide

/-! ### Decoding: every constructor, from the tables of R85 to R90 -/

theorem test_decode_operate :
    decode 0o000000 = .halt ∧ decode 0o000001 = .wait ∧ decode 0o000002 = .rti ∧ decode 0o000003 = .bpt ∧
    decode 0o000004 = .iot ∧ decode 0o000005 = .reset ∧ decode 0o000006 = .rtt ∧
    decode 0o000007 = .reserved 0o000007 ∧ decode 0o000107 = .illegalJmp .pc ∧ decode 0o000121 = .jmp .autoInc .r1 ∧
    decode 0o000167 = .jmp .index .pc ∧ decode 0o000205 = .rts .r5 ∧ decode 0o000210 = .reserved 0o000210 ∧
    decode 0o000243 = .clcc 0b0011 ∧ decode 0o000270 = .secc 0b1000 ∧ decode 0o000377 = .swab (.mem .indexDef .pc) := by
  decide

theorem test_decode_branches :
    decode 0o000777 = .br 0o377 ∧ decode 0o001001 = .bne 1 ∧ decode 0o001402 = .beq 2 ∧ decode 0o002003 = .bge 3 ∧
    decode 0o002404 = .blt 4 ∧ decode 0o003005 = .bgt 5 ∧ decode 0o003777 = .ble 0o377 ∧ decode 0o100000 = .bpl 0 ∧
    decode 0o100407 = .bmi 7 ∧ decode 0o101010 = .bhi 0o10 ∧ decode 0o101411 = .blos 0o11 ∧
    decode 0o102012 = .bvc 0o12 ∧ decode 0o102413 = .bvs 0o13 ∧ decode 0o103014 = .bcc 0o14 ∧
    decode 0o103777 = .bcs 0o377 := by
  decide

theorem test_decode_single :
    decode 0o005077 = .clr (.mem .indexDef .pc) ∧ decode 0o005100 = .com (.reg .r0) ∧
    decode 0o005211 = .inc (.mem .deferred .r1) ∧ decode 0o005322 = .dec (.mem .autoInc .r2) ∧
    decode 0o005433 = .neg (.mem .autoIncDef .r3) ∧ decode 0o005544 = .adc (.mem .autoDec .r4) ∧
    decode 0o005655 = .sbc (.mem .autoDecDef .r5) ∧ decode 0o005766 = .tst (.mem .index .sp) ∧
    decode 0o006007 = .ror (.reg .pc) ∧ decode 0o006110 = .rol (.mem .deferred .r0) ∧
    decode 0o006227 = .asr (.mem .autoInc .pc) ∧ decode 0o006377 = .asl (.mem .indexDef .pc) := by
  decide

theorem test_decode_single_byte :
    decode 0o105000 = .clrb (.reg .r0) ∧ decode 0o105111 = .comb (.mem .deferred .r1) ∧
    decode 0o105222 = .incb (.mem .autoInc .r2) ∧ decode 0o105333 = .decb (.mem .autoIncDef .r3) ∧
    decode 0o105444 = .negb (.mem .autoDec .r4) ∧ decode 0o105555 = .adcb (.mem .autoDecDef .r5) ∧
    decode 0o105666 = .sbcb (.mem .index .sp) ∧ decode 0o105777 = .tstb (.mem .indexDef .pc) ∧
    decode 0o106001 = .rorb (.reg .r1) ∧ decode 0o106112 = .rolb (.mem .deferred .r2) ∧
    decode 0o106237 = .asrb (.mem .autoIncDef .pc) ∧ decode 0o106377 = .aslb (.mem .indexDef .pc) := by
  decide

theorem test_decode_double :
    decode 0o010040 = .mov (.reg .r0) (.mem .autoDec .r0) ∧
    decode 0o022767 = .cmp (.mem .autoInc .pc) (.mem .index .pc) ∧
    decode 0o031122 = .bit (.mem .deferred .r1) (.mem .autoInc .r2) ∧
    decode 0o043344 = .bic (.mem .autoIncDef .r3) (.mem .autoDec .r4) ∧
    decode 0o055566 = .bis (.mem .autoDecDef .r5) (.mem .index .sp) ∧
    decode 0o067701 = .add (.mem .indexDef .pc) (.reg .r1) ∧ decode 0o075321 = .reservedEis 0o5321 ∧
    decode 0o110203 = .movb (.reg .r2) (.reg .r3) ∧ decode 0o122122 = .cmpb (.mem .autoInc .r1) (.mem .autoInc .r2) ∧
    decode 0o130516 = .bitb (.reg .r5) (.mem .deferred .sp) ∧
    decode 0o146700 = .bicb (.mem .index .pc) (.reg .r0) ∧ decode 0o150037 = .bisb (.reg .r0) (.mem .autoIncDef .pc) ∧
    decode 0o160102 = .sub (.reg .r1) (.reg .r2) ∧ decode 0o177777 = .reserved 0o177777 := by
  decide

theorem test_decode_control :
    decode 0o004767 = .jsr .pc .index .pc ∧ decode 0o004136 = .jsr .r1 .autoIncDef .sp ∧
    decode 0o004007 = .illegalJsr .r0 .pc ∧ decode 0o004703 = .illegalJsr .pc .r3 ∧ decode 0o104377 = .emt 0o377 ∧
    decode 0o104405 = .trap 5 ∧ decode 0o006400 = .reserved 0o006400 ∧ decode 0o107777 = .reserved 0o107777 := by
  decide

/-- The bits of an opcode-table row, the low byte at the lower address (R51); and two bytes at least (R80). -/
theorem test_decode_table_word :
    decodeTableWord 16 0o010040 = some (.mov (.reg .r0) (.mem .autoDec .r0)) ∧
    decodeTableWord 16 0o104405 = some (.trap 5) ∧ decodeBytes [0o40] = .error .tooShort := by
  decide

/-! ### One step of each instruction -/

/-- Memory holding the words listed, the PSW and the registers as given, PC at 1000, everything else as after reset. -/
def start (words : List (Word × Word)) (psw : Byte) (g : Regs → Regs) : State :=
  words.foldl (fun s w => s.setMemWord w.1 w.2)
    { State.reset with psw := psw, regs := g { State.reset.regs with pc := 0o1000 } }

/-- What is seen of the next state. -/
def after {α : Type} (s : State) (f : State → α) : Option α :=
  match step s with
  | .next t => some (f t)
  | _ => none

/-- Spec 95, vector S1. -/
theorem test_clr_S1 : after (start [(0o1000, 0o5000)] 0o17 fun g => { g with r0 := 0o123456 }) (fun t =>
    (t.reg .r0, t.reg .pc, t.psw)) = some (0, 0o1002, 4) := by
  decide

/-- Spec 95, vector S3. -/
theorem test_clr_S3 : after (start [(0o1000, 0o5011), (0o2000, 0o177777)] 0 fun g => { g with r1 := 0o2000 }) 
    (fun t =>
    (t.memWord 0o2000, t.reg .pc, t.psw)) = some (0, 0o1002, 4) := by
  decide

/-- Spec 95, vector S2. -/
theorem test_clrb_S2 : after (start [(0o1000, 0o105000)] 1 fun g => { g with r0 := 0o123456 }) (fun t =>
    (t.reg .r0, t.reg .pc, t.psw)) = some (0o123400, 0o1002, 4) := by
  decide

/-- Spec 95, vector S4. -/
theorem test_clrb_S4 : after (start [(0o1000, 0o105011), (0o2000, 0o177777)] 0
    fun g => { g with r1 := 0o2001 }) (fun t =>
    (t.memWord 0o2000, t.reg .pc, t.psw)) = some (0o377, 0o1002, 4) := by
  decide

/-- Spec 95, vector S5. -/
theorem test_com_S5 : after (start [(0o1000, 0o5100)] 0 fun g => { g with r0 := 0o13333 }) (fun t =>
    (t.reg .r0, t.reg .pc, t.psw)) = some (0o164444, 0o1002, 0o11) := by
  decide

/-- Spec 95, vector S6. -/
theorem test_com_S6 : after (start [(0o1000, 0o5100)] 0 fun g => { g with r0 := 0o177777 }) (fun t =>
    (t.reg .r0, t.reg .pc, t.psw)) = some (0, 0o1002, 5) := by
  decide

/-- Spec 95, vector S7. -/
theorem test_comb_S7 : after (start [(0o1000, 0o105100)] 0 fun g => { g with r0 := 0o125377 }) (fun t =>
    (t.reg .r0, t.reg .pc, t.psw)) = some (0o125000, 0o1002, 5) := by
  decide

/-- Spec 95, vector S8. -/
theorem test_inc_S8 : after (start [(0o1000, 0o5201)] 1 fun g => { g with r1 := 0o77777 }) (fun t =>
    (t.reg .r1, t.reg .pc, t.psw)) = some (0o100000, 0o1002, 0o13) := by
  decide

/-- Spec 95, vector S12. -/
theorem test_inc_S12 : after (start [(0o1000, 0o5237), (0o1002, 0o2000), (0o2000, 7)] 0 id) (fun t =>
    (t.memWord 0o2000, t.reg .pc, t.psw)) = some (0o10, 0o1004, 0) := by
  decide

/-- Spec 95, vector S10. -/
theorem test_incb_S10 : after (start [(0o1000, 0o105201)] 0 fun g => { g with r1 := 0o177 }) (fun t =>
    (t.reg .r1, t.reg .pc, t.psw)) = some (0o200, 0o1002, 0o12) := by
  decide

/-- Spec 95, vector S11. -/
theorem test_incb_S11 : after (start [(0o1000, 0o105201)] 0 fun g => { g with r1 := 0o377 }) (fun t =>
    (t.reg .r1, t.reg .pc, t.psw)) = some (0, 0o1002, 4) := by
  decide

/-- Spec 95, vector S13. -/
theorem test_dec_S13 : after (start [(0o1000, 0o5302)] 0 fun g => { g with r2 := 0o100000 }) (fun t =>
    (t.reg .r2, t.reg .pc, t.psw)) = some (0o77777, 0o1002, 2) := by
  decide

/-- Spec 95, vector S14. -/
theorem test_dec_S14 : after (start [(0o1000, 0o5302)] 1 id) (fun t =>
    (t.reg .r2, t.reg .pc, t.psw)) = some (0o177777, 0o1002, 0o11) := by
  decide

/-- Spec 95, vector S16. -/
theorem test_decb_S16 : after (start [(0o1000, 0o105302)] 0 fun g => { g with r2 := 0o1200 }) (fun t =>
    (t.reg .r2, t.reg .pc, t.psw)) = some (0o1177, 0o1002, 2) := by
  decide

/-- Spec 95, vector S17. -/
theorem test_neg_S17 : after (start [(0o1000, 0o5400)] 0 fun g => { g with r0 := 0o10 }) (fun t =>
    (t.reg .r0, t.reg .pc, t.psw)) = some (0o177770, 0o1002, 0o11) := by
  decide

/-- Spec 95, vector S18. -/
theorem test_neg_S18 : after (start [(0o1000, 0o5400)] 1 id) (fun t =>
    (t.reg .pc, t.psw)) = some (0o1002, 4) := by
  decide

/-- Spec 95, vector S20. -/
theorem test_negb_S20 : after (start [(0o1000, 0o105400)] 0 fun g => { g with r0 := 0o200 }) (fun t =>
    (t.reg .pc, t.psw)) = some (0o1002, 0o13) := by
  decide

/-- Spec 95, vector S21. -/
theorem test_adc_S21 : after (start [(0o1000, 0o5503)] 1 fun g => { g with r3 := 0o177777 }) (fun t =>
    (t.reg .r3, t.reg .pc, t.psw)) = some (0, 0o1002, 5) := by
  decide

/-- Spec 95, vector S22. -/
theorem test_adc_S22 : after (start [(0o1000, 0o5503)] 1 fun g => { g with r3 := 0o77777 }) (fun t =>
    (t.reg .r3, t.reg .pc, t.psw)) = some (0o100000, 0o1002, 0o12) := by
  decide

/-- Spec 95, vector S24. -/
theorem test_adcb_S24 : after (start [(0o1000, 0o105503)] 1 fun g => { g with r3 := 0o377 }) (fun t =>
    (t.reg .r3, t.reg .pc, t.psw)) = some (0, 0o1002, 5) := by
  decide

/-- Spec 95, vector S25. -/
theorem test_sbc_S25 : after (start [(0o1000, 0o5604)] 1 id) (fun t =>
    (t.reg .r4, t.reg .pc, t.psw)) = some (0o177777, 0o1002, 0o11) := by
  decide

/-- Spec 95, vector S26. -/
theorem test_sbc_S26 : after (start [(0o1000, 0o5604)] 1 fun g => { g with r4 := 1 }) (fun t =>
    (t.reg .r4, t.reg .pc, t.psw)) = some (0, 0o1002, 4) := by
  decide

/-- Spec 95, vector S30. -/
theorem test_sbcb_S30 : after (start [(0o1000, 0o105604)] 1 fun g => { g with r4 := 0o400 }) (fun t =>
    (t.reg .r4, t.reg .pc, t.psw)) = some (0o777, 0o1002, 0o11) := by
  decide

/-- Spec 95, vector S31. -/
theorem test_tst_S31 : after (start [(0o1000, 0o5705)] 3 fun g => { g with r5 := 0o100001 }) (fun t =>
    (t.reg .pc, t.psw)) = some (0o1002, 0o10) := by
  decide

/-- Spec 95, vector S33. -/
theorem test_tst_S33 : after (start [(0o1000, 0o5726)] 0 fun g => { g with sp := 0o1374 }) (fun t =>
    (t.reg .sp, t.reg .pc, t.psw)) = some (0o1376, 0o1002, 4) := by
  decide

/-- Spec 95, vector S32. -/
theorem test_tstb_S32 : after (start [(0o1000, 0o105705)] 3 fun g => { g with r5 := 0o177400 }) (fun t =>
    (t.reg .pc, t.psw)) = some (0o1002, 4) := by
  decide

/-- Spec 95, vector S34. -/
theorem test_ror_S34 : after (start [(0o1000, 0o6000)] 0 fun g => { g with r0 := 1 }) (fun t =>
    (t.reg .r0, t.reg .pc, t.psw)) = some (0, 0o1002, 7) := by
  decide

/-- Spec 95, vector S35. -/
theorem test_ror_S35 : after (start [(0o1000, 0o6000)] 1 fun g => { g with r0 := 2 }) (fun t =>
    (t.reg .r0, t.reg .pc, t.psw)) = some (0o100001, 0o1002, 0o12) := by
  decide

/-- Spec 95, vector S36. -/
theorem test_rorb_S36 : after (start [(0o1000, 0o106000)] 1 fun g => { g with r0 := 0o402 }) (fun t =>
    (t.reg .r0, t.reg .pc, t.psw)) = some (0o601, 0o1002, 0o12) := by
  decide

/-- Spec 95, vector S37. -/
theorem test_rol_S37 : after (start [(0o1000, 0o6101)] 0 fun g => { g with r1 := 0o100000 }) (fun t =>
    (t.reg .r1, t.reg .pc, t.psw)) = some (0, 0o1002, 7) := by
  decide

/-- Spec 95, vector S38. -/
theorem test_rol_S38 : after (start [(0o1000, 0o6101)] 1 fun g => { g with r1 := 0o40000 }) (fun t =>
    (t.reg .r1, t.reg .pc, t.psw)) = some (0o100001, 0o1002, 0o12) := by
  decide

/-- Spec 95, vector S39. -/
theorem test_rolb_S39 : after (start [(0o1000, 0o106101)] 1 fun g => { g with r1 := 0o100 }) (fun t =>
    (t.reg .r1, t.reg .pc, t.psw)) = some (0o201, 0o1002, 0o12) := by
  decide

/-- Spec 95, vector S40. -/
theorem test_rolb_S40 : after (start [(0o1000, 0o106101)] 0 fun g => { g with r1 := 0o177600 }) (fun t =>
    (t.reg .r1, t.reg .pc, t.psw)) = some (0o177400, 0o1002, 7) := by
  decide

/-- Spec 95, vector S41. -/
theorem test_asr_S41 : after (start [(0o1000, 0o6202)] 0 fun g => { g with r2 := 0o100001 }) (fun t =>
    (t.reg .r2, t.reg .pc, t.psw)) = some (0o140000, 0o1002, 0o11) := by
  decide

/-- Spec 95, vector S42. -/
theorem test_asr_S42 : after (start [(0o1000, 0o6202)] 0 fun g => { g with r2 := 1 }) (fun t =>
    (t.reg .r2, t.reg .pc, t.psw)) = some (0, 0o1002, 7) := by
  decide

/-- Spec 95, vector S44. -/
theorem test_asrb_S44 : after (start [(0o1000, 0o106202)] 0 fun g => { g with r2 := 0o203 }) (fun t =>
    (t.reg .r2, t.reg .pc, t.psw)) = some (0o301, 0o1002, 0o11) := by
  decide

/-- Spec 95, vector S45. -/
theorem test_asrb_S45 : after (start [(0o1000, 0o106237), (0o1002, 0o2001), (0o2000, 0o101401)] 0 id) (fun t =>
    (t.memWord 0o2000, t.reg .pc, t.psw)) = some (0o140401, 0o1004, 0o11) := by
  decide

/-- Spec 95, vector S46. -/
theorem test_asl_S46 : after (start [(0o1000, 0o6303)] 0 fun g => { g with r3 := 0o40000 }) (fun t =>
    (t.reg .r3, t.reg .pc, t.psw)) = some (0o100000, 0o1002, 0o12) := by
  decide

/-- Spec 95, vector S47. -/
theorem test_asl_S47 : after (start [(0o1000, 0o6303)] 0 fun g => { g with r3 := 0o100000 }) (fun t =>
    (t.reg .r3, t.reg .pc, t.psw)) = some (0, 0o1002, 7) := by
  decide

/-- Spec 95, vector S49. -/
theorem test_aslb_S49 : after (start [(0o1000, 0o106303)] 0 fun g => { g with r3 := 0o300 }) (fun t =>
    (t.reg .r3, t.reg .pc, t.psw)) = some (0o200, 0o1002, 0o11) := by
  decide

/-- Spec 95, vector S50. -/
theorem test_swab_S50 : after (start [(0o1000, 0o300)] 0o17 fun g => { g with r0 := 0o77400 }) (fun t =>
    (t.reg .r0, t.reg .pc, t.psw)) = some (0o177, 0o1002, 0) := by
  decide

/-- Spec 95, vector S53. -/
theorem test_swab_S53 : after (start [(4, 0o5000), (6, 0o340), (0o1000, 0o311), (0o2000, 0o1234)] 0
    fun g => { g with r1 := 0o2001, sp := 0o1400 }) (fun t =>
    (t.reg .sp, t.memWord 0o1374, t.reg .pc, t.psw)) = some (0o1374, 0o1002, 0o5000, 0o340) := by
  decide

/-- Spec 95, vector S54. -/
theorem test_jmp_S54 : after (start [(0o1000, 0o111)] 0 fun g => { g with r1 := 0o4000 }) (fun t =>
    (t.reg .pc, t.psw)) = some (0o4000, 0) := by
  decide

/-- Spec 95, vector S55. -/
theorem test_jmp_S55 : after (start [(0o1000, 0o121)] 0 fun g => { g with r1 := 0o3000 }) (fun t =>
    (t.reg .r1, t.reg .pc, t.psw)) = some (0o3002, 0o3000, 0) := by
  decide

/-- Spec 95, vector S60. -/
theorem test_illegalJmp_S60 : after (start [(0o10, 0o5000), (0o12, 0o340), (0o1000, 0o101)] 1
    fun g => { g with r1 := 0o2000, sp := 0o1400 }) (fun t =>
    (t.reg .sp, t.memWord 0o1374, t.memWord 0o1376, t.reg .pc, t.psw)) = some (0o1374, 0o1002, 1, 0o5000, 0o340) := by
  decide

/-- Spec 95, vector W1. -/
theorem test_mov_W1 : after (start [(0o1000, 0o10001)] 3 fun g => { g with r0 := 0o100000 }) (fun t =>
    (t.reg .r1, t.reg .pc, t.psw)) = some (0o100000, 0o1002, 0o11) := by
  decide

/-- Spec 95, vector W2. -/
theorem test_mov_W2 : after (start [(0o1000, 0o12712), (0o2000, 0o777)] 0o10 fun g => { g with r2 := 0o2000 }) 
    (fun t =>
    (t.memWord 0o2000, t.reg .pc, t.psw)) = some (0, 0o1004, 4) := by
  decide

/-- Spec 95, vector W9. -/
theorem test_movb_W9 : after (start [(0o1000, 0o110001)] 0 fun g => { g with r0 := 0o200, r1 := 0o52525 }) (fun t =>
    (t.reg .r1, t.reg .pc, t.psw)) = some (0o177600, 0o1002, 0o10) := by
  decide

/-- Spec 95, vector W11. -/
theorem test_movb_W11 : after (start [(0o1000, 0o110011), (0o2000, 0o123456)] 0
    fun g => { g with r0 := 0o377, r1 := 0o2001 }) (fun t =>
    (t.memWord 0o2000, t.reg .pc, t.psw)) = some (0o177456, 0o1002, 0o10) := by
  decide

/-- Spec 95, vector W15. -/
theorem test_cmp_W15 : after (start [(0o1000, 0o22767), (0o1002, 0o15), (0o1004, 0o100)] 0 id) (fun t =>
    (t.reg .pc, t.psw)) = some (0o1006, 0) := by
  decide

/-- Spec 95, vector W16. -/
theorem test_cmp_W16 : after (start [(0o1000, 0o22767), (0o1002, 0o15), (0o1004, 0o100), (0o1106, 0o15)] 0 id) 
    (fun t =>
    (t.reg .pc, t.psw)) = some (0o1006, 4) := by
  decide

/-- Spec 95, vector W21. -/
theorem test_cmpb_W21 : after (start [(0o1000, 0o120001)] 0 fun g => { g with r0 := 0o200, r1 := 1 }) (fun t =>
    (t.reg .pc, t.psw)) = some (0o1002, 2) := by
  decide

/-- Spec 95, vector W22. -/
theorem test_cmpb_W22 : after (start [(0o1000, 0o120001)] 0 fun g => { g with r0 := 0o123400, r1 := 0o54400 }) 
    (fun t =>
    (t.reg .pc, t.psw)) = some (0o1002, 4) := by
  decide

/-- Spec 95, vector W23. -/
theorem test_bit_W23 : after (start [(0o1000, 0o32700), (0o1002, 0o100000)] 3
    fun g => { g with r0 := 0o100001 }) (fun t =>
    (t.reg .pc, t.psw)) = some (0o1004, 0o11) := by
  decide

/-- Spec 95, vector W24. -/
theorem test_bit_W24 : after (start [(0o1000, 0o30001)] 0o12 fun g => { g with r0 := 0o360, r1 := 0o17 }) (fun t =>
    (t.reg .pc, t.psw)) = some (0o1002, 4) := by
  decide

/-- Spec 95, vector W25. -/
theorem test_bitb_W25 : after (start [(0o1000, 0o132700), (0o1002, 1)] 0 fun g => { g with r0 := 0o177776 }) (fun t =>
    (t.reg .pc, t.psw)) = some (0o1004, 4) := by
  decide

/-- Spec 95, vector W26. -/
theorem test_bic_W26 : after (start [(0o1000, 0o42700), (0o1002, 0o177400)] 3
    fun g => { g with r0 := 0o123456 }) (fun t =>
    (t.reg .r0, t.reg .pc, t.psw)) = some (0o56, 0o1004, 1) := by
  decide

/-- Spec 95, vector W27. -/
theorem test_bic_W27 : after (start [(0o1000, 0o40000)] 0 fun g => { g with r0 := 0o123456 }) (fun t =>
    (t.reg .r0, t.reg .pc, t.psw)) = some (0, 0o1002, 4) := by
  decide

/-- Spec 95, vector W28. -/
theorem test_bicb_W28 : after (start [(0o1000, 0o142700), (0o1002, 0o17)] 0 fun g => { g with r0 := 0o377 }) (fun t =>
    (t.reg .r0, t.reg .pc, t.psw)) = some (0o360, 0o1004, 0o10) := by
  decide

/-- Spec 95, vector W29. -/
theorem test_bis_W29 : after (start [(0o1000, 0o52700), (0o1002, 1)] 3 fun g => { g with r0 := 0o100000 }) (fun t =>
    (t.reg .r0, t.reg .pc, t.psw)) = some (0o100001, 0o1004, 0o11) := by
  decide

/-- Spec 95, vector W30. -/
theorem test_bisb_W30 : after (start [(0o1000, 0o152700), (0o1002, 0o200)] 0 id) (fun t =>
    (t.reg .r0, t.reg .pc, t.psw)) = some (0o200, 0o1004, 0o10) := by
  decide

/-- Spec 95, vector W31. -/
theorem test_bisb_W31 : after (start [(0o1000, 0o150037), (0o1002, 0o2001), (0o2000, 0o777)] 0
    fun g => { g with r0 := 0o201 }) (fun t =>
    (t.memWord 0o2000, t.reg .pc, t.psw)) = some (0o100777, 0o1004, 0o10) := by
  decide

/-- Spec 95, vector W32. -/
theorem test_add_W32 : after (start [(0o1000, 0o60001)] 0 fun g => { g with r0 := 1, r1 := 0o77777 }) (fun t =>
    (t.reg .r1, t.reg .pc, t.psw)) = some (0o100000, 0o1002, 0o12) := by
  decide

/-- Spec 95, vector W33. -/
theorem test_add_W33 : after (start [(0o1000, 0o60001)] 0 fun g => { g with r0 := 1, r1 := 0o177777 }) (fun t =>
    (t.reg .r1, t.reg .pc, t.psw)) = some (0, 0o1002, 5) := by
  decide

/-- Spec 95, vector W37. -/
theorem test_sub_W37 : after (start [(0o1000, 0o160001)] 0 fun g => { g with r0 := 1 }) (fun t =>
    (t.reg .r1, t.reg .pc, t.psw)) = some (0o177777, 0o1002, 0o11) := by
  decide

/-- Spec 95, vector W38. -/
theorem test_sub_W38 : after (start [(0o1000, 0o160001)] 0 fun g => { g with r0 := 1, r1 := 0o100000 }) (fun t =>
    (t.reg .r1, t.reg .pc, t.psw)) = some (0o77777, 0o1002, 2) := by
  decide

/-- Spec 95, vector J1. -/
theorem test_jsr_J1 : after (start [(0o1000, 0o4767), (0o1002, 0o774)] 0 fun g => { g with sp := 0o1400 }) (fun t =>
    (t.reg .sp, t.memWord 0o1376, t.reg .pc, t.psw)) = some (0o1376, 0o1004, 0o2000, 0) := by
  decide

/-- Spec 95, vector J2. -/
theorem test_jsr_J2 : after (start [(0o1000, 0o4511)] 0
    fun g => { g with r1 := 0o3000, r5 := 5, sp := 0o1400 }) (fun t =>
    (t.reg .r5, t.reg .sp, t.memWord 0o1376, t.reg .pc, t.psw)) = some (0o1002, 0o1376, 5, 0o3000, 0) := by
  decide

/-- Spec 95, vector J6. -/
theorem test_illegalJsr_J6 : after (start [(0o10, 0o5000), (0o12, 0o340), (0o1000, 0o4701)] 0
    fun g => { g with r1 := 0o3000, sp := 0o1400 }) (fun t =>
    (t.reg .sp, t.memWord 0o1374, t.reg .pc, t.psw)) = some (0o1374, 0o1002, 0o5000, 0o340) := by
  decide

/-- Spec 95, vector J9. -/
theorem test_rts_J9 : after (start [(0o1000, 0o205), (0o1376, 5)] 0
    fun g => { g with r5 := 0o2002, sp := 0o1376 }) (fun t =>
    (t.reg .r5, t.reg .sp, t.reg .pc, t.psw)) = some (5, 0o1400, 0o2002, 0) := by
  decide

/-- Spec 95, vector J11. -/
theorem test_rts_J11 : after (start [(4, 0o5000), (6, 0o340), (0o1000, 0o205)] 0
    fun g => { g with r5 := 0o2002, sp := 0o160000 }) (fun t =>
    (t.reg .sp, t.memWord 0o157774, t.reg .pc, t.psw)) = some (0o157774, 0o2002, 0o5000, 0o340) := by
  decide

/-- Spec 95, vector T1. -/
theorem test_bpt_T1 : after (start [(0o14, 0o5020), (0o16, 0o342), (0o1000, 3)] 5
    fun g => { g with sp := 0o1400 }) (fun t =>
    (t.reg .sp, t.memWord 0o1374, t.memWord 0o1376, t.reg .pc, t.psw)) = some (0o1374, 0o1002, 5, 0o5020, 0o342) := by
  decide

/-- Spec 95, vector T17. -/
theorem test_bpt_T17 : after (start [(0o14, 0o5020), (0o16, 0o342), (0o1000, 3)] 0o20
    fun g => { g with sp := 0o1400 }) (fun t =>
    (t.reg .sp, t.memWord 0o1374, t.memWord 0o1376, t.reg .pc, t.psw)) =
    some (0o1374, 0o1002, 0o20, 0o5020, 0o342) := by
  decide

/-- Spec 95, vector T2. -/
theorem test_iot_T2 : after (start [(0o20, 0o5030), (0o22, 0o343), (0o1000, 4)] 0o12
    fun g => { g with sp := 0o1400 }) (fun t =>
    (t.reg .sp, t.memWord 0o1374, t.memWord 0o1376, t.reg .pc, t.psw)) =
    some (0o1374, 0o1002, 0o12, 0o5030, 0o343) := by
  decide

/-- Spec 95, vector T3. -/
theorem test_emt_T3 : after (start [(0o30, 0o5040), (0o32, 0o344), (0o1000, 0o104001)] 0
    fun g => { g with sp := 0o1400 }) (fun t =>
    (t.reg .sp, t.memWord 0o1374, t.reg .pc, t.psw)) = some (0o1374, 0o1002, 0o5040, 0o344) := by
  decide

/-- Spec 95, vector T4. -/
theorem test_emt_T4 : after (start [(0o30, 0o5040), (0o32, 0o344), (0o1000, 0o104377)] 0o17
    fun g => { g with sp := 0o1400 }) (fun t =>
    (t.reg .sp, t.memWord 0o1374, t.memWord 0o1376, t.reg .pc, t.psw)) =
    some (0o1374, 0o1002, 0o17, 0o5040, 0o344) := by
  decide

/-- Spec 95, vector T5. -/
theorem test_trap_T5 : after (start [(0o34, 0o5050), (0o36, 0o357), (0o1000, 0o104405)] 5
    fun g => { g with sp := 0o1400 }) (fun t =>
    (t.reg .sp, t.memWord 0o1374, t.memWord 0o1376, t.reg .pc, t.psw)) = some (0o1374, 0o1002, 5, 0o5050, 0o357) := by
  decide

/-- Spec 95, vector T6. -/
theorem test_trap_T6 : after (start [(0o34, 0o5050), (0o36, 0o357), (0o1000, 0o104777)] 0o340
    fun g => { g with sp := 0o1400 }) (fun t =>
    (t.reg .sp, t.memWord 0o1374, t.memWord 0o1376, t.reg .pc, t.psw)) =
    some (0o1374, 0o1002, 0o340, 0o5050, 0o357) := by
  decide

/-- Spec 95, vector T7. -/
theorem test_reserved_T7 : after (start [(0o10, 0o5010), (0o12, 0o341), (0o1000, 7)] 1
    fun g => { g with sp := 0o1400 }) (fun t =>
    (t.reg .sp, t.memWord 0o1374, t.memWord 0o1376, t.reg .pc, t.psw)) = some (0o1374, 0o1002, 1, 0o5010, 0o341) := by
  decide

/-- Spec 95, vector T8. -/
theorem test_reserved_T8 : after (start [(0o10, 0o5010), (0o12, 0o341), (0o1000, 0o210)] 0
    fun g => { g with sp := 0o1400 }) (fun t =>
    (t.reg .sp, t.memWord 0o1374, t.reg .pc, t.psw)) = some (0o1374, 0o1002, 0o5010, 0o341) := by
  decide

/-- Spec 95, vector T10. -/
theorem test_reservedEis_T10 : after (start [(0o10, 0o5010), (0o12, 0o341), (0o1000, 0o75000),
    (0o1002, 0o123456)] 0 fun g => { g with sp := 0o1400 }) (fun t =>
    (t.reg .sp, t.memWord 0o1374, t.reg .pc, t.psw)) = some (0o1374, 0o1002, 0o5010, 0o341) := by
  decide

/-- Spec 95, vector T13. -/
theorem test_rti_T13 : after (start [(0o1000, 2), (0o1374, 0o2000), (0o1376, 0o17)] 0
    fun g => { g with sp := 0o1374 }) (fun t =>
    (t.reg .sp, t.reg .pc, t.psw)) = some (0o1400, 0o2000, 0o17) := by
  decide

/-- Spec 95, vector T16. -/
theorem test_rti_T16 : after (start [(0o1000, 2), (0o1374, 0o2000), (0o1376, 0o177757)] 0
    fun g => { g with sp := 0o1374 }) (fun t =>
    (t.reg .sp, t.reg .pc, t.psw)) = some (0o1400, 0o2000, 0o357) := by
  decide

/-- Spec 95, vector K1. -/
theorem test_clcc_K1 : after (start [(0o1000, 0o240)] 0o17 id) (fun t =>
    (t.reg .pc, t.psw)) = some (0o1002, 0o17) := by
  decide

/-- Spec 95, vector K2. -/
theorem test_clcc_K2 : after (start [(0o1000, 0o257)] 0o357 id) (fun t =>
    (t.reg .pc, t.psw)) = some (0o1002, 0o340) := by
  decide

/-- Spec 95, vector K8. -/
theorem test_secc_K8 : after (start [(0o1000, 0o260)] 0 id) (fun t =>
    (t.reg .pc, t.psw)) = some (0o1002, 0) := by
  decide

/-- Spec 95, vector K9. -/
theorem test_secc_K9 : after (start [(0o1000, 0o261)] 0 id) (fun t =>
    (t.reg .pc, t.psw)) = some (0o1002, 1) := by
  decide

/-- Spec 95, vectors B1 and B3: forwards, and backwards by the most negative offset. -/
theorem test_br : (after (start [(0o1000, 0o000401)] 0 id) fun t => t.reg .pc) = some 0o1004 ∧
    (after (start [(0o1000, 0o000600)] 0 id) fun t => t.reg .pc) = some 0o402 := by
  decide

/-- Spec 95, V-BR, row BNE: taken, and not taken. -/
theorem test_bne : (after (start [(0o1000, 0o001001)] 0 id) fun t => (t.reg .pc, t.psw)) = some (0o1004, 0) ∧
    (after (start [(0o1000, 0o001001)] 4 id) fun t => (t.reg .pc, t.psw)) = some (0o1002, 4) := by
  decide

/-- Spec 95, V-BR, row BEQ: taken, and not taken. -/
theorem test_beq : (after (start [(0o1000, 0o001401)] 4 id) fun t => (t.reg .pc, t.psw)) = some (0o1004, 4) ∧
    (after (start [(0o1000, 0o001401)] 0 id) fun t => (t.reg .pc, t.psw)) = some (0o1002, 0) := by
  decide

/-- Spec 95, V-BR, row BGE: taken, and not taken. -/
theorem test_bge : (after (start [(0o1000, 0o002001)] 0o12 id) fun t => (t.reg .pc, t.psw)) = some (0o1004, 0o12) ∧
    (after (start [(0o1000, 0o002001)] 0o10 id) fun t => (t.reg .pc, t.psw)) = some (0o1002, 0o10) := by
  decide

/-- Spec 95, V-BR, row BLT: taken, and not taken. -/
theorem test_blt : (after (start [(0o1000, 0o002401)] 2 id) fun t => (t.reg .pc, t.psw)) = some (0o1004, 2) ∧
    (after (start [(0o1000, 0o002401)] 0o12 id) fun t => (t.reg .pc, t.psw)) = some (0o1002, 0o12) := by
  decide

/-- Spec 95, V-BR, row BGT: taken, and not taken. -/
theorem test_bgt : (after (start [(0o1000, 0o003001)] 0o12 id) fun t => (t.reg .pc, t.psw)) = some (0o1004, 0o12) ∧
    (after (start [(0o1000, 0o003001)] 4 id) fun t => (t.reg .pc, t.psw)) = some (0o1002, 4) := by
  decide

/-- Spec 95, V-BR, row BLE: taken, and not taken. -/
theorem test_ble : (after (start [(0o1000, 0o003401)] 4 id) fun t => (t.reg .pc, t.psw)) = some (0o1004, 4) ∧
    (after (start [(0o1000, 0o003401)] 0o12 id) fun t => (t.reg .pc, t.psw)) = some (0o1002, 0o12) := by
  decide

/-- Spec 95, V-BR, row BPL: taken, and not taken. -/
theorem test_bpl : (after (start [(0o1000, 0o100001)] 7 id) fun t => (t.reg .pc, t.psw)) = some (0o1004, 7) ∧
    (after (start [(0o1000, 0o100001)] 0o10 id) fun t => (t.reg .pc, t.psw)) = some (0o1002, 0o10) := by
  decide

/-- Spec 95, V-BR, row BMI: taken, and not taken. -/
theorem test_bmi : (after (start [(0o1000, 0o100401)] 0o10 id) fun t => (t.reg .pc, t.psw)) = some (0o1004, 0o10) ∧
    (after (start [(0o1000, 0o100401)] 7 id) fun t => (t.reg .pc, t.psw)) = some (0o1002, 7) := by
  decide

/-- Spec 95, V-BR, row BHI: taken, and not taken. -/
theorem test_bhi : (after (start [(0o1000, 0o101001)] 0o12 id) fun t => (t.reg .pc, t.psw)) = some (0o1004, 0o12) ∧
    (after (start [(0o1000, 0o101001)] 1 id) fun t => (t.reg .pc, t.psw)) = some (0o1002, 1) := by
  decide

/-- Spec 95, V-BR, row BLOS: taken, and not taken. -/
theorem test_blos : (after (start [(0o1000, 0o101401)] 4 id) fun t => (t.reg .pc, t.psw)) = some (0o1004, 4) ∧
    (after (start [(0o1000, 0o101401)] 0o12 id) fun t => (t.reg .pc, t.psw)) = some (0o1002, 0o12) := by
  decide

/-- Spec 95, V-BR, row BVC: taken, and not taken. -/
theorem test_bvc : (after (start [(0o1000, 0o102001)] 0o15 id) fun t => (t.reg .pc, t.psw)) = some (0o1004, 0o15) ∧
    (after (start [(0o1000, 0o102001)] 2 id) fun t => (t.reg .pc, t.psw)) = some (0o1002, 2) := by
  decide

/-- Spec 95, V-BR, row BVS: taken, and not taken. -/
theorem test_bvs : (after (start [(0o1000, 0o102401)] 2 id) fun t => (t.reg .pc, t.psw)) = some (0o1004, 2) ∧
    (after (start [(0o1000, 0o102401)] 0o15 id) fun t => (t.reg .pc, t.psw)) = some (0o1002, 0o15) := by
  decide

/-- Spec 95, V-BR, row BCC: taken, and not taken. -/
theorem test_bcc : (after (start [(0o1000, 0o103001)] 0o16 id) fun t => (t.reg .pc, t.psw)) = some (0o1004, 0o16) ∧
    (after (start [(0o1000, 0o103001)] 1 id) fun t => (t.reg .pc, t.psw)) = some (0o1002, 1) := by
  decide

/-- Spec 95, V-BR, row BCS: taken, and not taken. -/
theorem test_bcs : (after (start [(0o1000, 0o103401)] 1 id) fun t => (t.reg .pc, t.psw)) = some (0o1004, 1) ∧
    (after (start [(0o1000, 0o103401)] 0o16 id) fun t => (t.reg .pc, t.psw)) = some (0o1002, 0o16) := by
  decide

/-- Spec 95, vector O1 (R240), and with T set, O3. -/
theorem test_halt :
    (after (start [] 0 id) fun t => (t.runState, t.reg .pc, t.pending.trace)) = some (.halted, 0o1002, false) ∧
    (after (start [] 0o20 id) fun t => (t.runState, t.reg .pc, t.pending.trace)) = some (.halted, 0o1002, true) := by
  decide

/-- Spec 95, vector O4 (R241). -/
theorem test_wait : (after (start [(0o1000, 1)] 0 id) fun t => (t.runState, t.reg .pc)) = some (.wait, 0o1002) := by
  decide

/-- Spec 95, vector O11 (R242): the request is gone. -/
theorem test_reset :
    (after { start [(0o1000, 5)] 0o340 id with requests := [⟨.br7, 0o60⟩] } fun t =>
      (t.requests, t.reg .pc, t.psw)) = some ([], 0o1002, 0o340) := by
  decide

/-- R229: RTT pops PC and PSW like RTI but sets no trace flag; RTI sets it (spec 95, vectors T14 and T15). -/
theorem test_rtt :
    (after (start [(0o1000, 6), (0o1374, 0o2000), (0o1376, 0o20)] 0 fun g => { g with sp := 0o1374 }) fun t =>
      (t.reg .pc, t.psw, t.reg .sp, t.pending.trace)) = some (0o2000, 0o20, 0o1400, false) ∧
    (after (start [(0o1000, 2), (0o1374, 0o2000), (0o1376, 0o20)] 0 fun g => { g with sp := 0o1374 }) fun t =>
      (t.reg .pc, t.psw, t.reg .sp, t.pending.trace)) = some (0o2000, 0o20, 0o1400, true) := by
  decide

/-- From reset, the interface's own placing: INC R1 is the first instruction. -/
theorem test_withFetchWord :
    (after (State.reset.withFetchWord 16 0o005201) fun t => (t.reg .r1, t.reg .pc)) = some (1, 2) := by
  decide

/-- R267: a double bus error halts, R6 decremented once, IR clear. -/
theorem test_double_bus_error :
    (after (start [(0o1000, 0o104401)] 0 fun g => { g with sp := 0o1001 }) fun t =>
      (t.runState, t.ir, t.reg .sp, t.reg .pc)) = some (.halted, 0, 0o777, 0o1002) := by
  decide

/-- R73: a master cannot write between the two halves of INC (R1). -/
theorem test_modify_with_npr :
    (after { start [(0o1000, 0o005211), (0o2000, 1)] 0 fun g => { g with r1 := 0o2000 } with
        agenda := [.processor [[], [.word 0o2000 5], [.word 0o2000 9]] []] } fun t =>
      (t.memWord 0o2000, t.npr)) = some (6, [[.word 0o2000 9]]) := by
  decide

/-- R40: a console's write to R17 swaps the bytes; R363: the other registers take the word as it is. -/
theorem test_console_r17 :
    (let s := (start [] 0 id).setRunState .halted
     ((masterWrite (.word 0o177717 0o000401) s).hidden.r17, (masterWrite (.word 0o177717 0o000377) s).hidden.r17,
       (masterWrite (.word 0o177716 0o000377) s).hidden.r16)) = (0o000401, 0o177400, 0o000377) := by
  decide

/-- R268: a fetch of a word with bad parity leaves the word in IR, R7 unincremented on the stack, and takes trap 114. -/
theorem test_fetch_parity :
    (let s := start [(0o1000, 0o005201), (0o114, 0o5000), (0o116, 0o340)] 0 fun g => { g with sp := 0o1400 }
     after { s with inst := { s.inst with parityEnabled := true, parityBad := [0o1000] } } fun t =>
      (t.ir, t.reg .pc, t.psw, t.memWord 0o1374, t.reg .r1)) = some (0o005201, 0o5000, 0o340, 0o1000, 0) := by
  decide

/-- R321: bad parity at 24 ends the restart with R5 as the old PC, PC and PSW as they were, and the trap through 4 next. -/
theorem test_restart_parity :
    (let s := start [(0o4, 0o5000), (0o24, 0o4000), (0o26, 0o340)] 0o12 fun g => { g with sp := 0o1400 }
     let t := restart { s with inst := { s.inst with parityEnabled := true, parityBad := [0o24] }, runState := .init }
     ((t.reg .r5, t.reg .pc, t.psw, t.hidden.r13, t.hidden.b), after t fun u => (u.reg .pc, u.memWord 0o1374))) =
      ((0o1000, 0o1000, 0o12, 0o24, 0o4000), some (0o5000, 0o1000)) := by
  decide

/-- R267, R282, spec 95 E2: B and R13 hold the vector when the first push of a trap gets a bus error. -/
theorem test_vector_in_b :
    (let t := trapSequence true 0o60 (start [] 0 fun g => { g with sp := 0o1001 })
     (t.hidden.b, t.hidden.r13, t.runState, t.ir)) = (0o60, 0o60, .halted, 0) := by
  decide

/-- R270, R283, R285: a request raised while the processor is halted waits for the service point after the one that the
continue resumes: one instruction runs first. R240, note O2: one raised while the HALT executes does not wait. -/
theorem test_request_while_halted :
    (let s : State := start [(0o1000, 0), (0o1002, 0o005201), (0o60, 0o5000)] 0 (fun g => { g with sp := 0o1400 })
     let run (s : State) (e : Turn) := match step { s with agenda := [e] } with | .next t => t | _ => s
     let go (s : State) := run (run s (.other .consoleContinue)) (.processor [] [])
     let raise : DeviceAct := .raise ⟨.br4, 0o60⟩ 0
     let late := go (run (run s (.processor [] [])) (.other (.device raise)))
     let meanwhile := run s (.processor [] [raise])
     ((late.reg .r1, late.reg .pc), (run late (.processor [] [])).reg .pc, meanwhile.runState, (go meanwhile).reg .pc)) =
      ((1, 0o1004), 0o5000, .halted, 0o5000) := by
  decide

/-- D10: with the halt request held through a continue, one instruction runs, and then the processor halts again. -/
theorem test_single_step :
    (let s : State := { start [(0o1000, 0o005201), (0o1002, 0o005201)] 0 id with
       runState := .haltGranted false, haltRequest := true, agenda := [.other .consoleContinue] }
     match step s with
     | .next t => (after t fun u => (u.reg .r1, u.runState, (after u fun x => (x.reg .r1, x.runState))))
     | _ => none) = some (1, .run, some (1, .haltGranted false)) := by
  decide

/-! ### Witnesses: for each statement with hypotheses, a state and operands that meet them -/

/-- Memory to 157776 and at 164000, a read-only memory at 165000, a device at 177560, bad parity at 3000 and 177564, and traps 4,
10, 14 and 114 with their vectors. -/
def rig (words : List (Word × Word)) (psw : Byte) (g : Regs → Regs) : State :=
  { start ([(0o4, 0o5000), (0o6, 0o340), (0o10, 0o5010), (0o12, 0o341), (0o114, 0o5114)] ++ words) psw
      (fun r => g { r with sp := 0o1400 }) with
    inst := { Installation.default with
      regions := [{ base := 0, size := 0o160000, kind := .memory, answers := [.dati, .datip, .dato, .datob] },
                  { base := 0o164000, size := 0o1000, kind := .memory, answers := [.dati, .datip, .dato, .datob] },
                  { base := 0o165000, size := 0o1000, kind := .memory, answers := [.dati, .datip] },
                  { base := 0o177560, size := 0o10, kind := .device, answers := [.dati, .datip, .dato, .datob] }]
      parityEnabled := true
      parityBad := [0o3000, 0o177564] } }

/-- The state with other open parameters. -/
def choose (p : Params) (s : State) : State := { s with inst := { s.inst with params := p } }

/-- The rig with nothing in it but its vectors. -/
def plainRig : State := rig [] 0 id

theorem witness_DecodeOfEncode : (Instr.reserved 0o000007).wf = true ∧ (Instr.mov (.reg .r0) (.mem .index .pc)).wf = true :=
  ⟨rfl, rfl⟩

theorem witness_EncodeOfDecode : (Instr.mov (.reg .r0) (.mem .index .pc)).wf = true ∧
    encode (.mov (.reg .r0) (.mem .index .pc)) = 0o010067 :=
  ⟨rfl, rfl⟩

theorem witness_StepRunsDecodedInstruction :
    let s := rig [(0o1000, 0o005201)] 0o340 id
    TurnOf s s ∧ TurnOf { s with agenda := [.processor [] []] } s ∧ s.npr = [] ∧ s.runState = .run ∧ Quiet s ∧ plainWord s (s.reg .pc) = true ∧
    (Instr.inc (.reg .r1)).wf = true ∧
    decodeBytes [s.memByte (s.reg .pc), s.memByte (s.reg .pc + 1)] = .ok (.inc (.reg .r1), []) :=
  ⟨.inl ⟨rfl, rfl⟩, .inr ⟨_, _, _, rfl, rfl⟩, rfl, rfl, ⟨rfl, .inl ⟨rfl, by decide⟩⟩, by decide, rfl, rfl⟩

/-- The three ways in which a fetch fails: an odd PC, no answer at the first address above memory, bad parity. -/
theorem witness_FailedFetchTraps :
    (let s := rig [] 0 fun g => { g with pc := 0o1001 }
     TurnOf s s ∧ s.runState = .run ∧ Quiet s ∧ isOdd (s.reg .pc) = true ∧ TrapReady 0o4 s) ∧
    (let s := rig [] 0 fun g => { g with pc := 0o160000 }
     TurnOf s s ∧ s.runState = .run ∧ Quiet s ∧ internalAddress (s.reg .pc).toNat = false ∧
     answer s.inst .dati (evenAddr (s.reg .pc)) = none ∧ TrapReady 0o4 s) ∧
    (let s := rig [] 0 fun g => { g with pc := 0o3000 }
     TurnOf s s ∧ s.runState = .run ∧ Quiet s ∧ isOdd (s.reg .pc) = false ∧
     internalAddress (s.reg .pc).toNat = false ∧ answer s.inst .dati (s.reg .pc) = some .memory ∧
     badParity s.inst (s.reg .pc) = true ∧ TrapReady 0o114 s) := by
  have q (s : State) (h1 : NothingPending s) (h2 : s.haltRequest = false) (h3 : s.enterService.requests = []) :
      Quiet s :=
    ⟨h1, .inl ⟨h2, by rw [h3]; simp⟩⟩
  refine ⟨⟨.inl ⟨rfl, rfl⟩, rfl, q _ rfl rfl rfl, rfl, ?_⟩, ⟨.inl ⟨rfl, rfl⟩, rfl, q _ rfl rfl rfl, rfl, rfl, ?_⟩,
    .inl ⟨rfl, rfl⟩, rfl, q _ rfl rfl rfl, rfl, rfl, rfl, rfl, ?_⟩ <;>
  exact ⟨rfl, rfl, rfl, rfl, rfl, rfl⟩

/-- Bad parity in memory and at a device; the highest words of memory and of a device. -/
theorem witness_WordReads :
    plainRig.npr = [] ∧ isOdd 0o177777 = true ∧ isRegisterAddress 0o177700 = true ∧ isRegisterAddress 0o177716 = true ∧
    (isOdd 0o160000 = false ∧ internalAddress 0o160000 = false ∧ answer plainRig.inst .dati 0o160000 = none) ∧
    (answer plainRig.inst .datip 0o3000 = some .memory ∧ badParity plainRig.inst 0o3000 = true) ∧
    (answer plainRig.inst .dati 0o177564 = some .device ∧ badParity plainRig.inst 0o177564 = true) ∧
    (answer plainRig.inst .dati 0o157776 = some .memory ∧ badParity plainRig.inst 0o157776 = false) ∧
    (answer plainRig.inst .dati 0o177566 = some .device ∧ badParity plainRig.inst 0o177566 = false ∧
      internalAddress 0o177560 = false) := by
  decide

theorem witness_ByteReads :
    plainRig.npr = [] ∧ isRegisterAddress 0o177717 = true ∧
    (internalAddress 0o160001 = false ∧ answer plainRig.inst .dati (evenAddr 0o160001) = none) ∧
    (internalAddress 0o3001 = false ∧ answer plainRig.inst .dati (evenAddr 0o3001) = some .memory ∧
      badParity plainRig.inst (evenAddr 0o3001) = true) ∧
    (internalAddress 0o177565 = false ∧ answer plainRig.inst .dati (evenAddr 0o177565) = some .device ∧
      badParity plainRig.inst (evenAddr 0o177565) = true) ∧
    (internalAddress 0o157777 = false ∧ answer plainRig.inst .datip (evenAddr 0o157777) = some .memory ∧
      badParity plainRig.inst (evenAddr 0o157777) = false) ∧
    (internalAddress 0o177567 = false ∧ answer plainRig.inst .dati (evenAddr 0o177567) = some .device ∧
      badParity plainRig.inst (evenAddr 0o177567) = false) := by
  decide

theorem witness_WordWrites :
    plainRig.npr = [] ∧ isOdd 1 = true ∧ answersWrite .word plainRig 0o160000 = false ∧
    answersWrite .word plainRig 0o165000 = false ∧
    ([0, 0o157776, 0o177560, 0o177700, 0o177776].all fun a => !isOdd a && answersWrite .word plainRig a) = true := by
  decide

theorem witness_ByteWrites :
    plainRig.npr = [] ∧ answersWrite .byte plainRig 0o160001 = false ∧
    ([0, 0o157777, 0o177561, 0o177717, 0o177776, 0o177777].all (answersWrite .byte plainRig)) = true := by
  decide

/-- Other masters write the operand in each window; word and byte, one operand and two. -/
theorem witness_ModifyIsIndivisible :
    let s : State := { rig [] 0 fun g => { g with r1 := 0o2000, r2 := 3 } with
      npr := [[.word 0o2000 5], [.word 0o2000 9]] }
    let u := s.useScratch
    let w := u.setHidden { u.hidden with r11 := 3 }
    let b := u.setHidden { u.hidden with r11 := sourceWord .byte 3 u }
    s.inst.params.movClrReadBeforeWrite = true ∧
    (u.npr = [.word 0o2000 5] :: [[.word 0o2000 9]] ∧ u.mem.wf = true ∧
      eaOf .autoInc .r1 .word u = .ok (0o2000, 2) u ∧ plainWord u 0o2000 = true ∧
      eaOf .autoInc .r1 .byte u = .ok (0o2000, 1) u ∧ plainMemory u 0o2000 = true) ∧
    (w.npr = [.word 0o2000 5] :: [[.word 0o2000 9]] ∧ w.mem.wf = true ∧ readSource .word (.reg .r2) u = .ok 3 w ∧
      eaOf .autoInc .r1 .word w = .ok (0o2000, 2) w ∧ plainWord w 0o2000 = true) ∧
    (b.npr = [.word 0o2000 5] :: [[.word 0o2000 9]] ∧ b.mem.wf = true ∧ readSource .byte (.reg .r2) u = .ok 3 b ∧
      eaOf .autoInc .r1 .byte b = .ok (0o2000, 1) b ∧ plainMemory b 0o2000 = true) :=
  ⟨rfl, ⟨rfl, rfl, rfl, rfl, rfl, rfl⟩, ⟨rfl, rfl, rfl, rfl, rfl⟩, rfl, rfl, rfl, rfl, rfl⟩

/-- Pointers and index words at the lowest and the highest word of memory. -/
theorem witness_EffectiveAddresses :
    let s := rig [(0o1000, 0o157776)] 0 fun g => { g with r1 := 0o157776, r2 := 2 }
    s.npr = [] ∧ plainWord s (s.reg .r1) = true ∧ plainWord s (s.reg .r2 - 2) = true ∧ plainWord s (s.reg .pc) = true ∧
    plainWord s (s.memWord (s.reg .pc) + s.reg .r0) = true :=
  ⟨rfl, rfl, rfl, rfl, rfl⟩

theorem witness_AbortedAddressing :
    (let s := rig [] 0 fun g => { g with r1 := 0o160000 }
     s.npr = [] ∧ readMem .byte .dati (s.reg .r1) s = .abort .busError s ∧
     readWord .dati (s.reg .r1) s = .abort .busError s ∧ s.inst.params.mode3AbortIncremented = none) ∧
    (let s := rig [] 0 fun g => { g with r1 := 0o3000 }
     s.npr = [] ∧ readMem .word .dati (s.reg .r1) s = .abort (.parityError 0) s) ∧
    (let s := choose { Params.default with mode3AbortIncremented := some true } (rig [] 0 fun g => { g with r1 := 1 })
     readWord .dati (s.reg .r1) s = .abort .busError s ∧ s.inst.params.mode3AbortIncremented = some true) ∧
    (let s := choose { Params.default with mode3AbortIncremented := some false } (rig [] 0 fun g => { g with r1 := 1 })
     readWord .dati (s.reg .r1) s = .abort .busError s ∧ s.inst.params.mode3AbortIncremented = some false) ∧
    (let s := rig [] 0 fun g => { g with pc := 0o160000 }
     readWord .dati (s.reg .pc) s = .abort .busError s) ∧
    (let s := rig [] 0 fun g => { g with r1 := 0o160002 }
     readWord .dati (s.reg .r1 - 2) (s.decrement .r1 2) = .abort .busError (s.decrement .r1 2)) ∧
    (let s := rig [(0o1000, 0o157776)] 0 fun g => { g with r1 := 2 }
     readWord .dati (s.reg .pc) s = .ok 0o157776 s ∧
     readWord .dati (0o157776 + (s.setReg .pc (s.reg .pc + 2)).reg .r1) (s.setReg .pc (s.reg .pc + 2)) =
       .abort .busError (s.setReg .pc (s.reg .pc + 2))) ∧
    (let s := rig [(0o2000, 0o160000)] 0 fun g => { g with r1 := 0o160002, r2 := 0o2000 }
     eaOf .autoDec .r1 .word s = .ok (0o160000, 0) (s.decrement .r1 2) ∧
     readMem .word .dati 0o160000 (s.decrement .r1 2) = .abort .busError (s.decrement .r1 2) ∧
     eaOf .autoIncDef .r2 .byte s = .ok (0o160000, 0) (s.setReg .r2 (s.reg .r2 + 2)) ∧
     readMem .byte .dati 0o160000 (s.setReg .r2 (s.reg .r2 + 2)) = .abort .busError (s.setReg .r2 (s.reg .r2 + 2)) ∧
     readOperand .word (.mem .autoDec .r1) s = .abort .busError (s.decrement .r1 2)) :=
  ⟨⟨rfl, rfl, rfl, rfl⟩, ⟨rfl, rfl⟩,
   ⟨rfl, rfl⟩, ⟨rfl, rfl⟩, rfl, rfl, ⟨rfl, rfl⟩, rfl, rfl, rfl, rfl, rfl⟩

theorem witness_OperandValues :
    let s := rig [(0o2000, 0o12345)] 0 fun g => { g with r1 := 0o2000 }
    eaOf .autoInc .r1 .word s = .ok (0o2000, 2) s ∧ readMem .word .dati 0o2000 s = .ok 0o12345 s ∧
    readOperand .word (.mem .deferred .r1) s = .ok 0o12345 (s.bump .r1 0) ∧
    readOperand .byte (.mem .autoInc .r1) s = .ok 0o345 (s.bump .r1 1) :=
  ⟨rfl, rfl, rfl, rfl⟩

/-- Destinations that modify in memory: the highest word, the PSW's address, a register address, a device. -/
theorem witness_WordModifyMemory :
    let s := rig [(0o157776, 7)] 0 fun g => { g with r1 := 0o157776, r2 := 0o177776, r3 := 0o177700, r4 := 0o177560 }
    let u := s.useScratch
    s.npr = [] ∧
    (eaOf .autoInc .r1 .word u = .ok (0o157776, 2) u ∧ readWord .datip 0o157776 u = .ok 7 u ∧
      answersWrite .word s 0o157776 = true) ∧
    (eaOf .deferred .r2 .word u = .ok (0o177776, 0) u ∧ readWord .datip 0o177776 u = .ok 0 u ∧
      answersWrite .word s 0o177776 = true) ∧
    (eaOf .deferred .r3 .word u = .ok (0o177700, 0) u ∧ readWord .datip 0o177700 u = .ok 0 u ∧
      answersWrite .word s 0o177700 = true) ∧
    (eaOf .deferred .r4 .word u = .ok (0o177560, 0) u ∧ readWord .datip 0o177560 u = .ok (freeWord u.free) (u.useFree 1) ∧
      answersWrite .word s 0o177560 = true) :=
  ⟨rfl, ⟨rfl, rfl, rfl⟩, ⟨rfl, rfl, rfl⟩, ⟨rfl, rfl, rfl⟩, rfl, rfl, rfl⟩

theorem witness_ByteModifyMemory :
    let s := rig [(0o157776, 0o3400)] 0 fun g => { g with r1 := 0o157777 }
    let u := s.useScratch
    s.npr = [] ∧ eaOf .autoInc .r1 .byte u = .ok (0o157777, 1) u ∧ readByte .datip 0o157777 u = .ok 7 u ∧
    answersWrite .byte s 0o157777 = true :=
  ⟨rfl, rfl, rfl, rfl⟩

/-- With and without the read before the write. -/
theorem witness_ClearOperand :
    let s := rig [] 0 fun g => { g with r1 := 0o2000 }
    let n := choose { Params.default with movClrReadBeforeWrite := false } s
    s.npr = [] ∧ n.npr = [] ∧ s.inst.params.movClrReadBeforeWrite = true ∧ n.inst.params.movClrReadBeforeWrite = false ∧
    (eaOf .deferred .r1 .word s.useScratch = .ok (0o2000, 0) s.useScratch ∧
      readWord .datip 0o2000 s.useScratch = .ok 0 s.useScratch ∧ isOdd 0o2000 = false ∧
      answersWrite .word s 0o2000 = true) ∧
    (eaOf .deferred .r1 .byte s.useScratch = .ok (0o2000, 0) s.useScratch ∧
      readByte .datip 0o2000 s.useScratch = .ok 0 s.useScratch ∧ answersWrite .byte s 0o2000 = true) ∧
    (eaOf .deferred .r1 .word n.useScratch = .ok (0o2000, 0) n.useScratch ∧ answersWrite .word n 0o2000 = true) ∧
    eaOf .deferred .r1 .byte n.useScratch = .ok (0o2000, 0) n.useScratch ∧ answersWrite .byte n 0o2000 = true :=
  ⟨rfl, rfl, rfl, rfl, ⟨rfl, rfl, rfl, rfl⟩, ⟨rfl, rfl, rfl⟩, ⟨rfl, rfl⟩, rfl, rfl⟩

theorem witness_TestOperand :
    let s := rig [(0o2000, 0o100000)] 0 fun g => { g with r1 := 0o2000, r2 := 0o2001 }
    s.npr = [] ∧ readOperand .word (.mem .autoInc .r1) s.useScratch = .ok 0o100000 (s.useScratch.bump .r1 2) ∧
    readOperand .byte (.mem .autoInc .r2) s.useScratch = .ok 0o200 (s.useScratch.bump .r2 1) :=
  ⟨rfl, rfl, rfl⟩

/-- A state after a source word in a register. -/
def afterSource (v : Word) (s : State) : State := s.useScratch.setHidden { s.useScratch.hidden with r11 := v }

theorem witness_CompareOperands :
    let s := rig [(0o2000, 5)] 0 fun g => { g with r1 := 0o2000, r2 := 3 }
    let b := s.useScratch.setHidden { s.useScratch.hidden with r11 := sourceWord .byte 3 s.useScratch }
    s.npr = [] ∧ readSource .word (.reg .r2) s.useScratch = .ok 3 (afterSource 3 s) ∧
    readOperand .word (.mem .autoInc .r1) (afterSource 3 s) = .ok 5 ((afterSource 3 s).bump .r1 2) ∧
    readSource .byte (.reg .r2) s.useScratch = .ok 3 b ∧
    readOperand .byte (.mem .autoInc .r1) b = .ok 5 (b.bump .r1 1) :=
  ⟨rfl, rfl, rfl, rfl, rfl⟩

theorem witness_CombineRegister :
    let s := rig [] 0 fun g => { g with r2 := 3 }
    s.npr = [] ∧ readSource .word (.reg .r2) s.useScratch = .ok 3 (afterSource 3 s) ∧
    readSource .byte (.reg .r2) s.useScratch =
      .ok 3 (s.useScratch.setHidden { s.useScratch.hidden with r11 := sourceWord .byte 3 s.useScratch }) :=
  ⟨rfl, rfl, rfl⟩

theorem witness_CombineMemory :
    let s := rig [(0o2000, 5)] 0 fun g => { g with r1 := 0o2000, r2 := 3 }
    let b := s.useScratch.setHidden { s.useScratch.hidden with r11 := sourceWord .byte 3 s.useScratch }
    s.npr = [] ∧
    (readSource .word (.reg .r2) s.useScratch = .ok 3 (afterSource 3 s) ∧
      eaOf .autoInc .r1 .word (afterSource 3 s) = .ok (0o2000, 2) (afterSource 3 s) ∧
      readWord .datip 0o2000 (afterSource 3 s) = .ok 5 (afterSource 3 s) ∧ answersWrite .word s 0o2000 = true) ∧
    readSource .byte (.reg .r2) s.useScratch = .ok 3 b ∧ eaOf .autoInc .r1 .byte b = .ok (0o2000, 1) b ∧
    readByte .datip 0o2000 b = .ok 5 b ∧ answersWrite .byte s 0o2000 = true :=
  ⟨rfl, ⟨rfl, rfl, rfl, rfl⟩, rfl, rfl, rfl, rfl⟩

theorem witness_MoveRegister :
    let s := rig [] 0 fun g => { g with r2 := 0o200 }
    s.npr = [] ∧ readSource .word (.reg .r2) s.useScratch = .ok 0o200 (afterSource 0o200 s) ∧
    readSource .byte (.reg .r2) s.useScratch =
      .ok 0o200 (s.useScratch.setHidden { s.useScratch.hidden with r11 := sourceWord .byte 0o200 s.useScratch }) :=
  ⟨rfl, rfl, rfl⟩

/-- With and without the read before the write. -/
theorem witness_MoveMemory :
    let s := rig [] 0 fun g => { g with r1 := 0o2000, r2 := 3 }
    let n := choose { Params.default with movClrReadBeforeWrite := false } s
    let b (s : State) := s.useScratch.setHidden { s.useScratch.hidden with r11 := sourceWord .byte 3 s.useScratch }
    (s.npr = [] ∧ readSource .word (.reg .r2) s.useScratch = .ok 3 (afterSource 3 s) ∧
      eaOf .deferred .r1 .word (afterSource 3 s) = .ok (0o2000, 0) (afterSource 3 s) ∧
      readWord .datip 0o2000 (afterSource 3 s) = .ok 0 (afterSource 3 s) ∧ isOdd 0o2000 = false ∧
      answersWrite .word s 0o2000 = true) ∧
    (readSource .byte (.reg .r2) s.useScratch = .ok 3 (b s) ∧ eaOf .deferred .r1 .word (b s) = .ok (0o2000, 0) (b s) ∧
      readByte .datip 0o2000 (b s) = .ok 0 (b s) ∧ answersWrite .byte s 0o2000 = true) ∧
    (n.npr = [] ∧ n.inst.params.movClrReadBeforeWrite = false ∧
      readSource .word (.reg .r2) n.useScratch = .ok 3 (afterSource 3 n) ∧
      eaOf .deferred .r1 .word (afterSource 3 n) = .ok (0o2000, 0) (afterSource 3 n) ∧
      answersWrite .word n 0o2000 = true) :=
  ⟨⟨rfl, rfl, rfl, rfl, rfl, rfl⟩, ⟨rfl, rfl, rfl, rfl⟩, rfl, rfl, rfl, rfl, rfl⟩

/-- Each of the ways, at 160000, where nothing answers, and at 3000, whose parity is bad; the source of two operands is
R2. -/
theorem witness_AbortedReadTraps :
    let s := rig [] 0 fun g => { g with r1 := 0o160000, r3 := 0o3000, r4 := 0o160002, pc := 0o160000 }
    let u := s.useScratch
    let a := afterSource 0 s
    (s.npr = [] ∧ s.pending.busError = false ∧ s.pending.parityError = false ∧ TrapReady (abortVector .busError) u ∧
      TrapReady (abortVector .busError) a ∧ TrapReady (abortVector (.parityError 0)) u) ∧
    s.inst.params.movClrReadBeforeWrite = true ∧
    (readOperand .byte (.mem .deferred .r1) u = .abort .busError u ∧
      readOperand .word (.mem .deferred .r3) u = .abort (.parityError 0) u) ∧
    (Instr.clr ∈ clear .word :: singleModify .word ∧ Instr.incb ∈ singleModify .byte ∧
      eaOf .index .r2 .word u = .abort .busError u) ∧
    (eaOf .deferred .r1 .word u = .ok (0o160000, 0) u ∧ readMem .word .datip 0o160000 u = .abort .busError u) ∧
    (Instr.mov ∈ move .word :: doubleModify .word ++ doubleCompare .word ∧
      readSource .word (.mem .deferred .r1) u = .abort .busError u) ∧
    (readSource .word (.reg .r2) u = .ok 0 a ∧
      (Instr.cmp ∈ doubleCompare .word ∧ readOperand .word (.mem .deferred .r1) a = .abort .busError a) ∧
      (Instr.add ∈ doubleModify .word ∧ eaOf .indexDef .r2 .word a = .abort .busError a) ∧
      (eaOf .deferred .r1 .word a = .ok (0o160000, 0) a ∧ readMem .word .datip 0o160000 a = .abort .busError a)) := by
  have t (x : State) (h1 : x.npr = []) (h2 : x.mem.wf = true) (h3 : plainWord x (x.reg .sp - 2) = true)
      (h4 : plainWord x (x.reg .sp - 4) = true) (v : Word) (h5 : plainWord x v = true)
      (h6 : plainWord x (v + 2) = true) : TrapReady v x := ⟨h1, h2, h3, h4, h5, h6⟩
  refine ⟨⟨rfl, rfl, rfl, t _ rfl rfl rfl rfl _ rfl rfl, t _ rfl rfl rfl rfl _ rfl rfl, t _ rfl rfl rfl rfl _ rfl rfl⟩, rfl,
    ⟨rfl, rfl⟩, ⟨.head _, .tail _ (.head _), rfl⟩, ⟨rfl, rfl⟩, ⟨.head _, rfl⟩, rfl, ⟨.head _, rfl⟩, ⟨?_, rfl⟩, rfl, rfl⟩
  exact .tail _ (.tail _ (.head _))

/-- The read-only memory at 165000 gives the old value and does not answer the write, with and without the read before
it; word and byte, one operand and two. -/
theorem witness_AbortedWriteHalfTraps :
    let s := rig [] 0 fun g => { g with r1 := 0o165000, r2 := 3 }
    let u := s.useScratch
    let w := u.setHidden { u.hidden with r11 := 3 }
    let b := u.setHidden { u.hidden with r11 := sourceWord .byte 3 u }
    let n := choose { Params.default with movClrReadBeforeWrite := false } s
    (s.npr = [] ∧ s.pending.busError = false ∧ s.inst.params.movClrReadBeforeWrite = true ∧
      answersWrite .word s 0o165000 = false ∧ answersWrite .byte s 0o165000 = false) ∧
    (eaOf .autoInc .r1 .word u = .ok (0o165000, 2) u ∧ readWord .datip 0o165000 u = .ok 0 u ∧
      TrapReady 0o4 ((u.setReg .r1 (u.reg .r1 + 2)).setCc (aluInc s.cc (0 : Word)).cc)) ∧
    (eaOf .autoInc .r1 .byte u = .ok (0o165000, 1) u ∧ readByte .datip 0o165000 u = .ok 0 u ∧
      TrapReady 0o4 ((u.setReg .r1 (u.reg .r1 + 1)).setCc (aluInc s.cc (0 : Byte)).cc)) ∧
    (readSource .word (.reg .r2) u = .ok 3 w ∧ eaOf .autoInc .r1 .word w = .ok (0o165000, 2) w ∧
      readWord .datip 0o165000 w = .ok 0 w) ∧
    (readSource .byte (.reg .r2) u = .ok 3 b ∧ eaOf .autoInc .r1 .byte b = .ok (0o165000, 1) b ∧
      readByte .datip 0o165000 b = .ok 0 b) ∧
    (n.npr = [] ∧ n.inst.params.movClrReadBeforeWrite = false ∧ answersWrite .word n 0o165000 = false ∧
      eaOf .deferred .r1 .word n.useScratch = .ok (0o165000, 0) n.useScratch ∧
      TrapReady 0o4 (n.useScratch.setCc (aluClr n.cc : Alu 16).cc)) := by
  have t (x : State) (h1 : x.npr = []) (h2 : x.mem.wf = true) (h3 : plainWord x (x.reg .sp - 2) = true)
      (h4 : plainWord x (x.reg .sp - 4) = true) (h5 : plainWord x 0o4 = true) (h6 : plainWord x (0o4 + 2) = true) :
      TrapReady 0o4 x := ⟨h1, h2, h3, h4, h5, h6⟩
  exact ⟨⟨rfl, rfl, rfl, rfl, rfl⟩, ⟨rfl, rfl, t _ rfl rfl rfl rfl rfl rfl⟩, ⟨rfl, rfl, t _ rfl rfl rfl rfl rfl rfl⟩,
    ⟨rfl, rfl, rfl⟩, ⟨rfl, rfl, rfl⟩, rfl, rfl, rfl, rfl, t _ rfl rfl rfl rfl rfl rfl⟩

/-- JSR's push at an odd address, where the trap's push fails too; and at 165000, which reads but takes no write, while
the trap's pushes below it are answered. -/
theorem witness_AbortedWriteHalfTraps_push :
    (let s := rig [] 0 fun g => { g with r1 := 0o3000, sp := 0o1001 }
     let s2 := s.useScratch.setReg .r1 (s.useScratch.reg .r1 + 0)
     eaOf .deferred .r1 .word s.useScratch = .ok (0o3000, 0) s.useScratch ∧ isOdd (s2.reg .sp - 2) = true ∧
     isOdd (s2.reg .sp - 4) = true) ∧
    (let s := rig [] 0 fun g => { g with r1 := 0o3000, sp := 0o165002 }
     let s2 := s.useScratch.setReg .r1 (s.useScratch.reg .r1 + 0)
     answersWrite .word s (s2.reg .sp - 2) = false ∧ TrapReady 0o4 (s2.pushDown true)) := by
  refine ⟨⟨rfl, rfl, rfl⟩, rfl, ?_⟩
  exact ⟨rfl, rfl, rfl, rfl, rfl, rfl⟩

theorem witness_WordModifyRegister :
    ((Instr.inc, fun _ => aluInc) : (Operand → Instr) × (Params → Cc → Word → Alu 16)) ∈ wordModify :=
  .tail _ (.head _)

theorem witness_ByteModifyRegister :
    ((Instr.incb, fun _ => aluInc) : (Operand → Instr) × (Params → Cc → Byte → Alu 8)) ∈ byteModify :=
  .tail _ (.head _)

/-- A branch whose condition holds, and one whose condition does not. -/
theorem witness_Branches :
    (Instr.bne, fun f : Cc => f.z = false) ∈ branches ∧ (rig [] 0 id).cc.z = false ∧ (rig [] 4 id).cc.z = true :=
  ⟨.tail _ (.head _), rfl, rfl⟩

theorem witness_Jump :
    let s := rig [(0o1000, 0o3000)] 0 id
    s.npr = [] ∧ eaOf .autoInc .pc .word s.useScratch = .ok (0o1000, 2) s.useScratch :=
  ⟨rfl, rfl⟩

/-- JSR through R5, and through SP itself. -/
theorem witness_JumpToSubroutine :
    let s := rig [] 0 fun g => { g with r1 := 0o3000 }
    let s2 := s.useScratch.setReg .r1 (s.useScratch.reg .r1 + 0)
    s.npr = [] ∧ eaOf .deferred .r1 .word s.useScratch = .ok (0o3000, 0) s.useScratch ∧
    isOdd (s2.reg .sp - 2) = false ∧ answersWrite .word s (s2.reg .sp - 2) = true :=
  ⟨rfl, rfl, rfl, rfl⟩

theorem witness_ReturnFromSubroutine :
    let s := rig [(0o1400, 0o2004)] 0 id
    s.npr = [] ∧ readWord .dati (s.reg .sp) s.useScratch = .ok 0o2004 s.useScratch :=
  ⟨rfl, rfl⟩

theorem witness_TrapSequence : TrapReady 0o4 plainRig ∧ TrapReady 0o157774 plainRig ∧
    TrapReady 0 (rig [] 0 fun g => { g with sp := 4 }) := by
  unfold TrapReady
  exact ⟨⟨rfl, rfl, rfl, rfl, rfl, rfl⟩, ⟨rfl, rfl, rfl, rfl, rfl, rfl⟩, rfl, rfl, rfl, rfl, rfl, rfl⟩

theorem witness_DoubleBusErrorHalts :
    plainRig.npr = [] ∧ (let s := rig [] 0 fun g => { g with sp := 0o1001 }; isOdd (s.reg .sp - 2) = true) ∧
    (let s := rig [] 0 fun g => { g with sp := 0o160002 }; answersWrite .word s (s.reg .sp - 2) = false) :=
  ⟨rfl, rfl, rfl⟩

/-- The second push not answered; each vector word odd, not answered, and with bad parity. -/
theorem witness_LaterTrapErrorsStayPending :
    (let s := rig [] 0 fun g => { g with sp := 0o164002 }
     s.npr = [] ∧ s.mem.wf = true ∧ plainWord s (s.reg .sp - 2) = true ∧
     answersWrite .word s (s.reg .sp - 4) = false) ∧
    (plainWord plainRig (plainRig.reg .sp - 2) = true ∧ plainWord plainRig (plainRig.reg .sp - 4) = true ∧
      isOdd 5 = true ∧ internalAddress 0o160000 = false ∧ answer plainRig.inst .dati 0o160000 = none) ∧
    (isOdd 0o3000 = false ∧ internalAddress 0o3000 = false ∧ answer plainRig.inst .dati 0o3000 = some .memory ∧
      badParity plainRig.inst 0o3000 = true) ∧
    (plainWord plainRig 0o157776 = true ∧ internalAddress (0o157776 + 2 : Word).toNat = false ∧
      answer plainRig.inst .dati (0o157776 + 2) = none) ∧
    (plainWord plainRig 0o2776 = true ∧ badParity plainRig.inst (0o2776 + 2) = true ∧
      answer plainRig.inst .dati (0o2776 + 2) = some .memory) :=
  ⟨⟨rfl, rfl, rfl, rfl⟩, ⟨rfl, rfl, rfl, rfl, rfl⟩, ⟨rfl, rfl, rfl, rfl⟩, ⟨rfl, rfl, rfl⟩, rfl, rfl, rfl⟩

/-- The first word and the last of either range. -/
theorem witness_IllegalCombinationsTrap :
    TrapReady 0o10 plainRig ∧ (0o000100 ≤ (0o000100 : Word).toNat ∧ (0o000107 : Word).toNat ≤ 0o000107) ∧
    0o004000 ≤ (0o004000 : Word).toNat ∧ (0o004707 : Word).toNat ≤ 0o004777 ∧ (0o004707 : Word).toNat % 0o100 < 0o10 :=
  ⟨⟨rfl, rfl, rfl, rfl, rfl, rfl⟩, by decide, by decide, by decide, by decide⟩

theorem witness_TrapInstructions :
    trapsThrough .bpt 0o14 ∧ trapsThrough .iot 0o20 ∧ trapsThrough (.emt 0o377) 0o30 ∧ trapsThrough (.trap 5) 0o34 ∧
    trapsThrough (.reserved 7) 0o10 ∧ trapsThrough (.reservedEis 0) 0o10 ∧ trapsThrough (.illegalJmp .r1) 0o10 ∧
    trapsThrough (.illegalJsr .pc .r1) 0o10 ∧ TrapReady 0o10 plainRig ∧ TrapReady 0o14 plainRig := by
  unfold trapsThrough TrapReady
  refine ⟨?_, ?_, ?_, ?_, ?_, ?_, ?_, ?_, ⟨rfl, rfl, rfl, rfl, rfl, rfl⟩, rfl, rfl, rfl, rfl, rfl, rfl⟩ <;> simp

theorem witness_ReturnFromTrap :
    let s := rig [(0o1400, 0o2000), (0o1402, 0o20)] 0 id
    let s1 := s.useScratch
    s.npr = [] ∧ readWord .dati (s.reg .sp) s1 = .ok 0o2000 s1 ∧
    readWord .dati (s.reg .sp + 2) ((s1.setReg .sp (s.reg .sp + 2)).setReg .pc 0o2000) =
      .ok 0o20 ((s1.setReg .sp (s.reg .sp + 2)).setReg .pc 0o2000) :=
  ⟨rfl, rfl, rfl⟩

/-- The stack where the first pop raises, by no answer and by bad parity, and where the second does. -/
theorem witness_AbortedPops :
    (let s := rig [] 0 fun g => { g with sp := 0o160000 }
     s.npr = [] ∧ s.pending.busError = false ∧ s.pending.parityError = false ∧
     readWord .dati (s.reg .sp) s.useScratch = .abort .busError s.useScratch ∧ TrapReady (abortVector .busError) s) ∧
    (let s := rig [] 0 fun g => { g with sp := 0o3000 }
     readWord .dati (s.reg .sp) s.useScratch = .abort (.parityError 0) s.useScratch ∧
     TrapReady (abortVector (.parityError 0)) s) ∧
    (let s := rig [(0o2776, 0o2000)] 0 fun g => { g with sp := 0o2776 }
     let x := (s.useScratch.setReg .sp (s.reg .sp + 2)).setReg .pc 0o2000
     readWord .dati (s.reg .sp) s.useScratch = .ok 0o2000 s.useScratch ∧
     readWord .dati (s.reg .sp + 2) x = .abort (.parityError 0) x ∧
     TrapReady (abortVector (.parityError 0)) (s.setReg .sp (s.reg .sp + 2))) := by
  unfold TrapReady
  exact ⟨⟨rfl, rfl, rfl, rfl, rfl, rfl, rfl, rfl, rfl, rfl⟩, ⟨rfl, rfl, rfl, rfl, rfl, rfl, rfl⟩, rfl,
    rfl, rfl, rfl, rfl, rfl, rfl, rfl⟩

/-- A state with flags pending. -/
def pend (be pe tr so pf halt : Bool) : State :=
  { plainRig with
    pending := { busError := be, parityError := pe, trace := tr, stackOverflow := so, powerFail := pf }
    haltRequest := halt }

theorem witness_ServiceOrder :
    (let s := pend false false false false false true; NothingPending s ∧ s.haltRequest = true ∧ s.haltPassed = false) ∧
    TurnOf plainRig plainRig ∧ plainRig.runState = .run ∧ (pend true true true true true true).pending.busError = true ∧
    (let p := (pend false true true true true true).pending; p.busError = false ∧ p.parityError = true) ∧
    (let p := (pend false false true true true true).pending
     p.busError = false ∧ p.parityError = false ∧ p.trace = true) ∧
    (let p := (pend false false false true true true).pending
     p.busError = false ∧ p.parityError = false ∧ p.trace = false ∧ p.stackOverflow = true) ∧
    (let p := (pend false false false false true true).pending
     p.busError = false ∧ p.parityError = false ∧ p.trace = false ∧ p.stackOverflow = false ∧ p.powerFail = true) ∧
    (plainRig.setRunState .wait).runState = .wait := by
  refine ⟨⟨rfl, rfl, rfl⟩, .inl ⟨rfl, rfl⟩, ?_⟩
  decide

/-- At PRI 4 a request on BR5 is granted and one on BR4 is not, nor any while the halt request is asserted; PRI 7 and PRI
3; a flag pending; a service point resumed that has latched BR4 and not BR5. -/
theorem witness_GrantedRequestIsHighest :
    (let s : State := { rig [] 0 id with
       haltPassed := true, requests := [⟨.br4, 0o60⟩, ⟨.br5, 0o64⟩], brLatch := { plainRig.brLatch with br4 := true } }
     s.haltPassed = true ∧ requestToGrant s.enterService = some ⟨.br4, 0o60⟩) ∧
    (let s := State.latchRequests { rig [] 0o200 id with requests := [⟨.br4, 0o60⟩, ⟨.br5, 0o64⟩, ⟨.br5, 0o70⟩] }
     requestToGrant s = some ⟨.br5, 0o64⟩ ∧ requestToGrant { s with haltRequest := true } = none) ∧
    requestToGrant (State.latchRequests { rig [] 0o200 id with requests := [⟨.br4, 0o60⟩] }) = none ∧
    (rig [] 0o340 id).pri = 7 ∧ (rig [] 0o140 id).pri < 4 ∧
    (pend false false false false true false).pending ≠ plainRig.pending ∧
    (pend false false false false false true).haltRequest = true ∧
    (pend false false false false false true).haltPassed = false := by
  decide

/-- Two devices on BR5 and one on BR4; the nearer of the two is granted. -/
theorem witness_InterruptTaken :
    (let s : State := { plainRig with
       runState := .wait, requests := [⟨.br4, 0o60⟩, ⟨.br5, 0o64⟩, ⟨.br5, 0o70⟩] }
     TurnOf s s ∧ s.runState = .wait ∧ NothingPending s ∧ s.haltRequest = false ∧
     grantedRequest s.enterService = some ⟨.br5, 0o64⟩ ∧ TrapReady 0o64 s) ∧
    (let up : Turn := .other (.device (.raise ⟨.br4, 0o60⟩ 1))
     let down : Turn := .other (.device (.withdraw ⟨.br4, 0o60⟩))
     ({ plainRig with agenda := [up, down] } : State).agenda = up :: [down]) := by
  unfold TrapReady
  exact ⟨⟨.inl ⟨rfl, rfl⟩, rfl, rfl, rfl, rfl, rfl, rfl, rfl, rfl, rfl, rfl⟩, rfl⟩

theorem witness_WaitingAndHaltedStay :
    (let s := plainRig.setRunState .wait; TurnOf s s ∧ s.runState = .wait ∧ Quiet s) ∧
    (let s := plainRig.setRunState .halted; TurnOf s s ∧ s.runState = .halted) ∧
    (let s := plainRig.setRunState (.haltGranted true); TurnOf s s ∧ s.runState = .haltGranted true) :=
  ⟨⟨.inl ⟨rfl, rfl⟩, rfl, rfl, .inl ⟨rfl, by decide⟩⟩, ⟨.inl ⟨rfl, rfl⟩, rfl⟩, .inl ⟨rfl, rfl⟩, rfl⟩

/-- Each halted state at its continue; the halt switch; and a halt request held through the continue, with an instruction
that leaves nothing pending. -/
theorem witness_ConsoleContinues :
    (let s (r : RunState) : State := { plainRig with runState := r, agenda := [.other .consoleContinue] }
     ((s .halted).agenda = .other .consoleContinue :: [] ∧ (s .halted).runState = .halted) ∧
     (s (.haltGranted true)).runState = .haltGranted true ∧ (s (.haltGranted false)).runState = .haltGranted false) ∧
    ({ plainRig with agenda := [.other (.haltSwitch true)] } : State).agenda = .other (.haltSwitch true) :: [] ∧
    (let s : State := { rig [(0o1000, 0o005201)] 0 id with haltRequest := true, haltPassed := true }
     TurnOf s s ∧ s.runState = .run ∧ NothingPending s ∧ s.haltRequest = true ∧ s.haltPassed = true ∧
     (after s fun t => (t.reg .r1, t.runState, t.pending, t.agenda)) = some (1, .run, s.pending, [])) :=
  ⟨⟨⟨rfl, rfl⟩, rfl, rfl⟩, rfl, .inl ⟨rfl, rfl⟩, rfl, rfl, rfl, rfl, rfl⟩

/-- Both kinds of halt; the first and the last register; the last word and byte of memory. -/
theorem witness_ConsoleRegisterAccess :
    (plainRig.setRunState .halted).isHalted = true ∧ (plainRig.setRunState (.haltGranted false)).isHalted = true ∧
    plainRig.isHalted = false ∧ isRegisterAddress 0o177700 = true ∧ isRegisterAddress 0o177717 = true ∧
    internalAddress 0o157777 = false ∧ plainRig.mem.wf = true ∧
    answer plainRig.inst .dato (evenAddr 0o157776) = some .memory ∧
    answer plainRig.inst .datob (evenAddr 0o157777) = some .memory ∧
    ({ plainRig with agenda := [.other (.masterWrite (.word 0o2000 5))] } : State).agenda =
      .other (.masterWrite (.word 0o2000 5)) :: [] ∧
    (internalAddress 0o160000 = false ∧ answer plainRig.inst .dati (evenAddr 0o160000) = none ∧
      answer plainRig.inst .dato (evenAddr 0o160000) ≠ some .memory ∧
      answer plainRig.inst .datob (evenAddr 0o177567) ≠ some .memory) := by
  decide

/-- The vector good; AC LO asserted; 24 not answered, and with bad parity; 26 not answered, and with bad parity. -/
theorem witness_Restart :
    (let s : State := { rig [(0o24, 0o4000), (0o26, 0o340)] 0 id with runState := .init }
     TurnOf s s ∧ s.npr = [] ∧ s.runState = .init ∧ s.power.acLo = false ∧ plainWord s 0o24 = true ∧
     plainWord s 0o26 = true) ∧
    (let s : State := { plainRig with runState := .init, power := { plainRig.power with acLo := true } }
     TurnOf s s ∧ s.npr = [] ∧ s.runState = .init ∧ s.power.acLo = true) ∧
    (let s (size : Nat) (bad : List Nat) : State := { rig [(0o24, 0o4000)] 0 id with
       runState := .init, inst := { Installation.default with
         regions := [{ base := 0, size := size, kind := .memory, answers := [.dati, .datip, .dato, .datob] }],
         parityEnabled := true, parityBad := bad } }
     (TurnOf (s 0o24 []) (s 0o24 []) ∧ (s 0o24 []).npr = [] ∧ (s 0o24 []).runState = .init ∧ (s 0o24 []).power.acLo = false ∧
       answer (s 0o24 []).inst .dati 0o24 = none) ∧
     (answer (s 0o400 [0o24]).inst .dati 0o24 = some .memory ∧ badParity (s 0o400 [0o24]).inst 0o24 = true) ∧
     (plainWord (s 0o26 []) 0o24 = true ∧ answer (s 0o26 []).inst .dati 0o26 = none) ∧
     (plainWord (s 0o400 [0o26]) 0o24 = true ∧ answer (s 0o400 [0o26]).inst .dati 0o26 = some .memory ∧
       badParity (s 0o400 [0o26]).inst 0o26 = true)) :=
  ⟨⟨.inl ⟨rfl, rfl⟩, rfl, rfl, rfl, rfl, rfl⟩, ⟨.inl ⟨rfl, rfl⟩, rfl, rfl, rfl⟩, ⟨.inl ⟨rfl, rfl⟩, rfl, rfl, rfl, rfl⟩, ⟨rfl, rfl⟩, ⟨rfl, rfl⟩, rfl, rfl,
    rfl⟩

theorem witness_PowerFail :
    (let s : State := { plainRig with agenda := [.other (.acLo true)] }
     s.agenda = .other (.acLo true) :: [] ∧ s.runState ≠ .powerOff ∧ s.runState ≠ .init ∧ s.power.acLo = false) ∧
    (let s : State := { plainRig with agenda := [.other .pdwnEnds], power := { plainRig.power with pdwn := true } }
     s.agenda = .other .pdwnEnds :: [] ∧ s.runState ≠ .powerOff ∧ s.power.pdwn = true) ∧
    (let s : State := plainRig.setRunState .powerOff; TurnOf s s ∧ s.runState = .powerOff) ∧
    (let s : State := { plainRig with
       runState := .powerOff, power := { plainRig.power with dcLo := true }, agenda := [.other (.dcLo false)] }
     s.agenda = .other (.dcLo false) :: [] ∧ s.power.dcLo = true) ∧
    ({ plainRig with agenda := [.other (.acLo false), .other .pupEnds, .other (.dcLo true)] } : State).agenda =
      .other (.acLo false) :: [.other .pupEnds, .other (.dcLo true)] ∧
    (let s (r : RunState) (p : Power) (t : Turn) : State := { plainRig with runState := r, power := p, agenda := [t] }
     let p := plainRig.power
     ((s .init p (.other (.acLo true))).agenda = .other (.acLo true) :: [] ∧
       (s .init p (.other (.acLo true))).runState = .init) ∧
     (s .powerOff p (.other (.acLo true))).runState = .powerOff ∧
     (s .run { p with acLo := true } (.other (.acLo true))).power.acLo = true ∧
     ((s .run p (.other .pdwnEnds)).agenda = .other .pdwnEnds :: [] ∧
       (s .run p (.other .pdwnEnds)).power.pdwn = false) ∧
     (s .powerOff { p with pdwn := true } (.other .pdwnEnds)).runState = .powerOff ∧
     ((s .run p (.other (.dcLo false))).agenda = .other (.dcLo false) :: [] ∧
       (s .run p (.other (.dcLo false))).power.dcLo = false)) :=
  ⟨⟨rfl, by decide, by decide, rfl⟩, ⟨rfl, by decide, rfl⟩, ⟨.inl ⟨rfl, rfl⟩, rfl⟩, ⟨rfl, rfl⟩, rfl, ⟨rfl, rfl⟩, rfl, rfl,
    ⟨rfl, rfl⟩, rfl, rfl, rfl⟩

/-- Another device drives BUS INIT. -/
theorem witness_Reset :
    ({ plainRig with agenda := [.other .busInit] } : State).agenda = .other .busInit :: [] := rfl

/-- A step that writes memory. -/
theorem witness_StepKeepsMemoryGood :
    let s := rig [(0o1000, 0o010146)] 0 fun g => { g with r1 := 0o12345 }
    MemoryGood s ∧ (after s fun t => t.memWord 0o1376) = some 0o12345 := by
  refine ⟨⟨rfl, by decide⟩, by decide⟩

/-- A step from a state whose installation is not the one at reset. -/
theorem witness_StepKeepsInstallation :
    plainRig.inst.regions.length = 4 ∧ (after plainRig fun t => t.runState) = some .halted := by
  decide

/-- A step that halts by HALT, one that halts by a double bus error, and one from HALTED. -/
theorem witness_HaltsOnlyWithZeroIr :
    (let s := rig [] 0 id
     HaltedIrZero s ∧ (after s fun t => (t.runState, t.ir)) = some (.halted, 0)) ∧
    (let s := rig [(0o1000, 0o104401)] 0 fun g => { g with sp := 1 }
     HaltedIrZero s ∧ (after s fun t => (t.runState, t.ir)) = some (.halted, 0)) ∧
    (let s := (rig [] 0 id).setIr 0 |>.setRunState .halted
     HaltedIrZero s ∧ (after s fun t => t.runState) = some .halted) := by
  refine ⟨⟨?_, by decide⟩, ⟨?_, by decide⟩, ?_, by decide⟩ <;> intro h <;> first | rfl | cases h

theorem witness_ProcessorLeavesTheLines :
    let s := { rig [(0o1000, 5)] 0 id with agenda := [.processor [] [.raise ⟨.br4, 0o60⟩ 0]] }
    TurnOf s { s with agenda := [], deviceActs := [.raise ⟨.br4, 0o60⟩ 0] } ∧ s.runState ≠ .init ∧
    (after s fun t => t.haltRequest) = some false :=
  ⟨.inr ⟨_, _, _, rfl, rfl⟩, by decide, by decide⟩

theorem witness_StepNeverRefuses : plainRig.runState ≠ .powerOff := by decide

end Sys2Proof.Tests
end

section
/-! The installation, the bus map, the parity jumpers and words and the parameters (R8), as an instance of the induction
over the machine in Laws/Closed.lean. -/

namespace Sys2Proof.Machine

open Sys2Proof.Config

/-- The installation of the machine is `i`. -/
def HasInstallation (i : Installation) (s : State) : Prop := s.inst = i

/-- No single update of the machine touches the installation: each replaces another field. -/
theorem closed_hasInstallation (i : Installation) : Closed (HasInstallation i) where
  regs _ _ h := h
  psw _ _ h := h
  hidden _ _ h := h
  pending _ _ h := h
  npr _ _ h := h
  free _ _ h := h
  memByte _ _ _ h _ _ _ := h
  memWord _ _ _ h _ _ _ _ := h
  ir _ _ h := h
  runState _ _ h := h
  brLatch _ _ h := h
  requests _ _ h := h
  haltRequest _ _ h := h
  haltPassed _ _ h := h
  power _ _ h := h
  agenda _ _ h := h
  deviceActs _ _ h := h
  lost _ h := h

/-- Settles O57: having the installation of the first state is closed under every update, so the step keeps it. -/
theorem stepKeepsInstallation : Obligations.StepKeepsInstallation := by
  intro s t hstep
  have hstart : HasInstallation s.inst s := rfl
  exact (closed_hasInstallation s.inst).step s hstart t hstep

end Sys2Proof.Machine
end

section
/-! What every instruction comes to: HALT, WAIT and RESET, which change a few fields; a trap; or a body over registers,
PSW, memory and flags with its ending. The invariants of the whole machine and the safety of the step go through this
one case split over the instructions. -/

namespace Sys2Proof.Machine

/-- A body of an instruction that makes only such updates as a transfer or an operand access makes (R264). -/
def DataOnly (body : State → Res Unit) : Prop :=
  ∀ P : State → Prop, ClosedData P → ∀ s, P s → (body s).Keeps P

/-- The ways in which an instruction is executed, with the outcome of each. -/
inductive Executes (s : State) : Instr → Host.Outcome State Fault Refusal → Prop
  | halt : Executes s .halt (execHalt s)
  | wait : Executes s .wait (execWait s)
  | reset : Executes s .reset (execReset s)
  | trap {i : Instr} (v : Word) : Executes s i (instructionTrap v s)
  | ending {i : Instr} {done : State → State} {body : State → Res Unit} (hd : ∀ u, ∃ p, done u = u.setPending p)
      (hb : DataOnly body) : Executes s i (instructionEnding done body s)

/-- An instruction with a body that completes in the ordinary way (R272). -/
theorem Executes.body {s : State} {i : Instr} {body : State → Res Unit} (hb : DataOnly body) :
    Executes s i (instruction body s) :=
  .ending (fun _ => ⟨_, rfl⟩) hb

/-- The case split over the instructions, once. -/
theorem executes_exec (i : Instr) (s : State) : Executes s i (exec i s) := by
  cases i with
  | halt => exact .halt
  | wait => exact .wait
  | reset => exact .reset
  | bpt | iot | reserved _ | illegalJmp _ | illegalJsr _ _ | reservedEis _ | emt _ | trap _ => exact .trap _
  | rti => exact .ending (fun _ => ⟨_, rfl⟩) fun _ hP => hP.returnFromInterrupt
  | rtt => exact .ending (fun u => ⟨u.pending, rfl⟩) fun _ hP => hP.returnFromInterrupt
  | jmp m r => exact .body fun _ hP => hP.jumpBody m r
  | rts r => exact .body fun _ hP => hP.returnBody r
  | jsr link m r => exact .body fun _ hP => hP.callBody link m r
  | clcc mask => exact .body fun _ hP s => hP.conditionCodesBody (fun cc => cc &&& ~~~ mask) s
  | secc mask => exact .body fun _ hP s => hP.conditionCodesBody (fun cc => cc ||| mask) s
  | br o | bne o | beq o | bge o | blt o | bgt o | ble o | bpl o | bmi o | bhi o | blos o | bvc o | bvs o | bcc o
  | bcs o => exact .body (body := branchBody _ o) fun _ hP => hP.branchBody _ o
  | clr dst => exact .body fun _ hP => hP.storeOperand .word dst aluClr
  | clrb dst => exact .body fun _ hP => hP.storeOperand .byte dst aluClr
  | com dst | inc dst | dec dst | neg dst | adc dst | ror dst | rol dst | asr dst | asl dst | swab dst =>
    exact .body fun _ hP => hP.modifyOperand .word dst _
  | comb dst | incb dst | decb dst | negb dst | adcb dst | rorb dst | rolb dst | asrb dst | aslb dst =>
    exact .body fun _ hP => hP.modifyOperand .byte dst _
  | sbc dst => exact .body fun _ hP => hP.subtractCarryBody .word dst
  | sbcb dst => exact .body fun _ hP => hP.subtractCarryBody .byte dst
  | tst dst => exact .body fun _ hP => hP.testBody .word dst
  | tstb dst => exact .body fun _ hP => hP.testBody .byte dst
  | mov src dst => exact .body fun _ hP => hP.moveBody src dst
  | movb src dst => exact .body fun _ hP => hP.moveByteBody src dst
  | cmp src dst | bit src dst => exact .body fun _ hP => hP.compareBody .word src dst _
  | cmpb src dst | bitb src dst => exact .body fun _ hP => hP.compareBody .byte src dst _
  | bic src dst | bis src dst | add src dst | sub src dst => exact .body fun _ hP => hP.combineBody .word src dst _
  | bicb src dst | bisb src dst => exact .body fun _ hP => hP.combineBody .byte src dst _

theorem instructionEnding_next (done : State → State) (body : State → Res Unit) (s : State) :
    ∃ t, instructionEnding done body s = .next t := by
  unfold instructionEnding
  split
  · exact ⟨_, rfl⟩
  · exact ⟨_, rfl⟩

theorem Executes.next {s : State} {i : Instr} {o : Host.Outcome State Fault Refusal} (h : Executes s i o) :
    ∃ t, o = .next t := by
  cases h with
  | halt | wait | reset | trap _ => exact ⟨_, rfl⟩
  | ending _ _ => exact instructionEnding_next _ _ s

/-- Every instruction has a next state: it completes, or takes a trap. -/
theorem exec_next (i : Instr) (s : State) : ∃ t, exec i s = .next t := (executes_exec i s).next

theorem runInstruction_next (s : State) : ∃ t, runInstruction s = .next t := by
  unfold runInstruction
  split
  · exact exec_next _ _
  · exact ⟨_, rfl⟩

/-- The processor's turn has a next state, or power is off (R326). -/
theorem processorTurn_next_or_powerOff (s : State) :
    (∃ t, processorTurn s = .next t) ∨ (s.runState = .powerOff ∧ processorTurn s = .fault .powerOff) := by
  unfold processorTurn
  split
  case h_5 h => exact .inr ⟨h, rfl⟩
  case h_1 =>
    split
    · exact .inl ⟨_, rfl⟩
    · exact .inl (runInstruction_next _)
  all_goals refine .inl ?_
  case h_2 => split <;> exact ⟨_, rfl⟩
  case h_6 => split <;> exact ⟨_, rfl⟩
  all_goals exact ⟨_, rfl⟩

/-- So has the step. -/
theorem step_next_or_powerOff (s : State) :
    (∃ t, step s = .next t) ∨ (s.runState = .powerOff ∧ step s = .fault .powerOff) := by
  unfold step
  split
  · exact processorTurn_next_or_powerOff s
  · exact processorTurn_next_or_powerOff _
  · exact .inl ⟨_, rfl⟩

/-- Settles O60: every instruction has a next state, so a step has one too, but for the processor's turn without
power. -/
theorem stepNeverRefuses : Obligations.StepNeverRefuses := by
  intro s
  rcases step_next_or_powerOff s with ⟨t, ht⟩ | ⟨hoff, hf⟩
  · simp [ht]
  · simp [hf, hoff]

end Sys2Proof.Machine
end

section
/-! HALTED with IR = 000000 as an invariant (R43, R240, R267). -/

namespace Sys2Proof

theorem decodeOperate_eq_halt {w : Word} (h : decodeOperate w = .halt) : w.toNat % 2 ^ 8 = 0 := by
  unfold decodeOperate at h
  simp only [toNat_field] at h
  split at h
  · split at h
    case h_1 => omega
    all_goals cases h
  · split at h <;> cases h
  · split at h <;> cases h
  · cases h

theorem decodeBranch_eq_halt {w : Word} (h : decodeBranch w = .halt) : w.toNat % 2 ^ 11 = 0 ∧ w.toNat < 2 ^ 15 := by
  unfold decodeBranch at h
  dsimp only at h
  split at h
  case h_1 hz =>
    have h8 := decodeOperate_eq_halt h
    have h16 := w.isLt
    rw [BitVec.toNat_append, toNat_field, toNat_field, Nat.shiftLeft_eq, ← Nat.mul_comm (2 ^ 3),
      ← Nat.two_pow_add_eq_or_of_lt (by omega)] at hz
    omega
  all_goals cases h

theorem decodeWordGroup_ne_halt (w : Word) : decodeWordGroup w ≠ .halt := by
  intro h
  unfold decodeWordGroup at h
  split at h
  case h_1 | h_2 | h_3 | h_4 | h_5 | h_6 | h_7 | h_8 => split at h <;> cases h
  all_goals cases h

theorem decodeByteGroup_ne_halt (w : Word) : decodeByteGroup w ≠ .halt := by
  intro h
  unfold decodeByteGroup at h
  split at h <;> cases h

/-- HALT is the word 000000 alone (R88, R91). -/
theorem eq_zero_of_decode_halt {w : Word} (h : decode w = .halt) : w = 0 := by
  have hw : w.toNat = 0 := by
    unfold decode at h
    simp only [← BitVec.toNat_inj, toNat_field] at h
    have h16 := w.isLt
    split at h
    case h_1 =>
      split at h
      · rename_i hbit
        rw [show (0 : BitVec 1).toNat = 0 from rfl] at hbit
        have := decodeBranch_eq_halt h
        omega
      · exact absurd h (decodeWordGroup_ne_halt w)
    case h_9 =>
      split at h
      · have := decodeBranch_eq_halt h
        omega
      · exact absurd h (decodeByteGroup_ne_halt w)
    all_goals cases h
  exact BitVec.eq_of_toNat_eq hw

end Sys2Proof

namespace Sys2Proof.Machine

open Sys2Proof.Config Sys2Proof.Safety

/-- The processor is not in HALTED. -/
def NotHalted (s : State) : Prop := s.runState ≠ .halted

theorem NotHalted.irZero {s : State} (h : NotHalted s) : HaltedIrZero s := fun hr => absurd hr h

/-- No transfer or operand access enters HALTED. -/
theorem closedData_notHalted : ClosedData NotHalted where
  regs _ _ h := h
  psw _ _ h := h
  hidden _ _ h := h
  pending _ _ h := h
  npr _ _ h := h
  free _ _ h := h
  memByte _ _ _ h _ _ _ := h
  memWord _ _ _ h _ _ _ _ := h

/-- Nor does one touch the run state or IR. -/
theorem closedData_haltedIrZero : ClosedData HaltedIrZero where
  regs _ _ h := h
  psw _ _ h := h
  hidden _ _ h := h
  pending _ _ h := h
  npr _ _ h := h
  free _ _ h := h
  memByte _ _ _ h _ _ _ := h
  memWord _ _ _ h _ _ _ _ := h

/-- A trap ends in RUN, or in HALTED by the double bus error, which clears IR (R267). -/
theorem trapSequence_haltedIrZero (checked : Bool) (v : Word) (s : State) : HaltedIrZero (trapSequence checked v s) := by
  have hstart : NotHalted (trapStart checked v s) := by
    rw [trapStart_eq]
    exact fun h => by cases h
  have hpush := closedData_notHalted.pushPsw _ hstart
  rw [trapSequence_eq]
  split <;> rename_i hr <;> rw [hr] at hpush
  · exact fun _ => rfl
  · exact (closedData_notHalted.settle _ (closedData_notHalted.pushPcAndVector checked v _ hpush)).irZero

theorem serviceAbort_haltedIrZero (s : State) : HaltedIrZero (serviceAbort s) := by
  unfold serviceAbort
  split
  · exact trapSequence_haltedIrZero _ _ _
  · exact trapSequence_haltedIrZero _ _ _

/-- What a service point does ends in a trap, or in HALT_GRANTED. -/
theorem service_haltedIrZero {s t : State} (h : service s = some t) : HaltedIrZero t := by
  obtain ⟨u, hu, rfl⟩ := Option.map_eq_some_iff.1 h
  show HaltedIrZero u
  unfold arbitrate at hu
  split at hu
  · cases hu; exact serviceAbort_haltedIrZero _
  split at hu
  · cases hu; exact trapSequence_haltedIrZero _ _ _
  split at hu
  · cases hu; exact trapSequence_haltedIrZero _ _ _
  split at hu
  · cases hu; exact trapSequence_haltedIrZero _ _ _
  split at hu
  · cases hu
    exact fun h => by cases h
  · obtain ⟨r, -, rfl⟩ := Option.map_eq_some_iff.1 hu
    exact trapSequence_haltedIrZero _ _ _

theorem takeAbort_haltedIrZero (c : Abort) (s : State) : HaltedIrZero (takeAbort c s) := serviceAbort_haltedIrZero _

/-- An instruction that is HALT only when IR is 000000 keeps the invariant (R240). -/
theorem Executes.haltedIrZero {s : State} {i : Instr} {o : Host.Outcome State Fault Refusal} (h : Executes s i o)
    (hs : NotHalted s) (hi : i = .halt → s.ir = 0) : NextKeeps HaltedIrZero o := by
  intro t ht
  cases h with
  | halt => cases ht; exact fun _ => hi rfl
  | wait => cases ht; exact fun h => by cases h
  | reset => cases ht; exact NotHalted.irZero hs
  | trap v => cases ht; exact trapSequence_haltedIrZero _ _ _
  | ending hd hb =>
    have hbody := hb _ closedData_notHalted _ (closedData_notHalted.useScratch s hs)
    unfold instructionEnding at ht
    split at ht <;> rename_i u hr <;> cases ht
    · rw [hr] at hbody
      obtain ⟨p, hp⟩ := hd u
      rw [hp]
      exact (closedData_notHalted.setPending u p hbody).irZero
    · exact takeAbort_haltedIrZero _ _

/-- A fetch that ends well leaves in IR the word that is decoded (R26). -/
theorem fetch_ok_ir {s t : State} {w : Word} (h : fetch s = .ok w t) : t.ir = w := by
  unfold fetch at h
  split at h <;> cases h
  rfl

theorem fetch_notHalted {s : State} (hs : NotHalted s) : (fetch s).Keeps NotHalted := by
  have hread := closedData_notHalted.readWord .dati (s.reg .pc) s hs
  unfold fetch
  split <;> rename_i hr <;> rw [hr] at hread <;> exact hread

theorem runInstruction_haltedIrZero {s : State} (hs : NotHalted s) : NextKeeps HaltedIrZero (runInstruction s) := by
  have hfetch := fetch_notHalted hs
  unfold runInstruction
  split <;> rename_i hr
  · rw [hr] at hfetch
    refine (executes_exec _ _).haltedIrZero hfetch fun hdec => ?_
    rw [fetch_ok_ir hr, eq_zero_of_decode_halt hdec]
  · intro t ht
    cases ht
    exact takeAbort_haltedIrZero _ _

theorem processorTurn_haltedIrZero {s : State} (hs : HaltedIrZero s) : NextKeeps HaltedIrZero (processorTurn s) := by
  unfold processorTurn
  intro t ht
  split at ht
  case h_1 hrun =>
    split at ht
    · cases ht; exact service_haltedIrZero ‹_›
    · have hleft : NotHalted s.enterService.leaveService := by simp [NotHalted, hrun]
      exact runInstruction_haltedIrZero hleft t ht
  case h_2 hwait =>
    split at ht <;> cases ht
    · exact service_haltedIrZero ‹_›
    · exact hs
  case h_3 | h_4 => cases ht; exact hs
  case h_5 => cases ht
  case h_6 =>
    split at ht <;> cases ht
    · exact hs
    · exact fun h => by cases h

/-- No other agent brings the processor into HALTED, and where it is halted none changes IR. -/
theorem applyEvent_haltedIrZero (e : Event) {s : State} (hs : HaltedIrZero s) : HaltedIrZero (applyEvent e s) := by
  have hinit : ∀ u, HaltedIrZero (enterInit u) := fun u h => by cases h
  cases e with
  | device _ | haltSwitch _ | busInit | pupEnds => exact hs
  | masterWrite w => exact closedData_haltedIrZero.masterWrite w s hs
  | consoleContinue =>
    show HaltedIrZero (consoleContinue s)
    unfold consoleContinue
    split
    case h_4 => exact hs
    all_goals exact fun h => by cases h
  | acLo on =>
    cases on with
    | false => exact hs
    | true =>
      show HaltedIrZero (assertAcLo s)
      unfold assertAcLo
      dsimp only
      split <;> exact hs
  | dcLo on =>
    cases on with
    | true => exact fun h => by cases h
    | false =>
      show HaltedIrZero (if _ then _ else _)
      split
      · exact hinit _
      · exact hs
  | pdwnEnds =>
    show HaltedIrZero (endPowerDown s)
    unfold endPowerDown
    split
    · exact hinit _
    · exact hs

/-- Settles O58: HALT is entered with the 000000 just fetched in IR, the double bus error clears IR, and whatever else a
step does leaves another run state or the halted processor as it is. -/
theorem haltsOnlyWithZeroIr : Obligations.HaltsOnlyWithZeroIr := by
  intro s t hs ht
  unfold step at ht
  split at ht
  · exact processorTurn_haltedIrZero hs t ht
  · exact processorTurn_haltedIrZero (by exact hs) t ht
  · cases ht
    exact applyEvent_haltedIrZero _ hs

end Sys2Proof.Machine
end

section
/-! What a transfer gives at each kind of address (R33, R64, R66, R76), as equations, and the bytes and words that a
program reads and writes there. -/

namespace Sys2Proof.Machine

open Sys2Proof.Config Sys2Proof.Safety

/-! ### Bytes of words -/

@[simp] theorem lowByte_append (h l : Byte) : lowByte (h ++ l) = l := BitVec.extractLsb'_append_eq_right
@[simp] theorem highByte_append (h l : Byte) : highByte (h ++ l) = h := BitVec.extractLsb'_append_eq_left

@[simp] theorem lowByte_zext (b : Byte) : lowByte (zext b) = b := lowByte_append 0 b
@[simp] theorem highByte_zext (b : Byte) : highByte (zext b) = 0 := highByte_append 0 b

/-- The odd address of a word follows its even address (R51). -/
theorem evenAddr_succ_of_odd {a : Word} (h : isOdd a = true) : evenAddr a + 1 = a := by
  apply BitVec.eq_of_toNat_eq
  simp only [isOdd_eq, decide_eq_true_eq] at h
  rw [BitVec.toNat_add, toNat_evenAddr, show ((1 : Word)).toNat = 1 from rfl]
  have := a.isLt
  omega

/-- The byte that a byte read takes from the word around its address (R57). -/
def byteAt (a w : Word) : Byte := if isOdd a then highByte w else lowByte w

/-- It is the byte of memory at the address. -/
theorem byteAt_memWord (a : Word) (s : State) : byteAt a (s.memWord (evenAddr a)) = s.memByte a := by
  unfold byteAt
  cases h : isOdd a with
  | true => rw [if_pos rfl, State.memWord, evenAddr_succ_of_odd h, highByte_append]
  | false => rw [if_neg Bool.false_ne_true, State.memWord, evenAddr_of_even h, lowByte_append]

/-! ### Read transfers -/

section
variable {k : Transfer} {a : Word} {s : State}

theorem transferIn_psw (h : evenAddr a = pswAddress) : transferIn k a s = .ok (zext s.psw) s := by
  simp [transferIn, h]

theorem transferIn_register (h : isRegisterAddress a = true) : transferIn k a s = .ok 0 s := by
  have hne : evenAddr a ≠ pswAddress := by
    intro he
    rw [← isRegisterAddress_evenAddr, he] at h
    exact absurd h (by decide)
  simp [transferIn, hne, h]

theorem transferIn_unanswered (hi : internalAddress a.toNat = false) (h : answer s.inst k (evenAddr a) = none) :
    transferIn k a s = .abort .busError s := by
  simp [transferIn, not_psw_of_not_internal hi, not_register_of_not_internal hi, h]

/-- A slave answers with good parity or bad (R76). -/
theorem transferIn_answered {kind : RegionKind} (hi : internalAddress a.toNat = false)
    (h : answer s.inst k (evenAddr a) = some kind) : transferIn k a s =
      if badParity s.inst (evenAddr a) then .abort (.parityError (slaveWord kind a s).1) (slaveWord kind a s).2
      else .ok (slaveWord kind a s).1 (slaveWord kind a s).2 := by
  simp [transferIn, not_psw_of_not_internal hi, not_register_of_not_internal hi, h]

/-! ### Reads of words and bytes -/

theorem readWord_odd (hs : s.npr = []) (h : isOdd a = true) : readWord k a s = .abort .busError s := by
  simp [readWord, h, hs]

theorem readWord_even (hs : s.npr = []) (h : isOdd a = false) : readWord k a s = transferIn k a s := by
  simp [readWord, h, hs]

theorem readByte_of_ok {w : Word} {t : State} (hs : s.npr = []) (h : transferIn k a s = .ok w t) :
    readByte k a s = .ok (byteAt a w) t := by
  simp [readByte, hs, h, byteAt]

theorem readByte_of_abort {c : Abort} {t : State} (hs : s.npr = []) (h : transferIn k a s = .abort c t) :
    readByte k a s = .abort c t := by
  simp [readByte, hs, h]

theorem readByte_psw (hs : s.npr = []) (h : evenAddr a = pswAddress) :
    readByte k a s = .ok (byteAt a (zext s.psw)) s := readByte_of_ok hs (transferIn_psw h)

theorem readByte_register (hs : s.npr = []) (h : isRegisterAddress a = true) : readByte k a s = .ok 0 s := by
  have h0 : byteAt a 0 = 0 := by cases ho : isOdd a <;> simp only [byteAt, ho] <;> rfl
  rw [readByte_of_ok hs (transferIn_register h), h0]

end

/-- Settles O8: an odd address is refused before the transfer; otherwise the processor answers for its own addresses and
the slave for the others. -/
theorem wordReads : Obligations.WordReads := by
  intro s k a hs
  refine ⟨readWord_odd hs, ?_, ?_, fun ho hi => ?_⟩
  · rintro rfl
    rw [readWord_even hs rfl, transferIn_psw rfl]
  · intro ho hr
    rw [readWord_even hs ho, transferIn_register hr]
  · rw [readWord_even hs ho]
    have heven := evenAddr_of_even ho
    refine ⟨fun h => ?none, fun h hb => ?memoryBad, fun h hb => ?deviceBad, fun h hb => ?memoryGood,
      fun h hb => ?deviceGood⟩
    all_goals rw [← heven] at h
    case none => exact transferIn_unanswered hi h
    all_goals
      have hslave := transferIn_answered hi h
      simp only [heven, hb, if_true, Bool.false_eq_true, if_false, slaveWord] at hslave
    case memoryBad | memoryGood => exact hslave
    case deviceBad | deviceGood => exact ⟨_, hslave⟩

/-- Settles O9: the transfer is that of the whole word, odd address or even, and the byte is taken from it. -/
theorem byteReads : Obligations.ByteReads := by
  intro s k a hs
  refine ⟨?_, ?_, readByte_register hs, fun hi => ?_⟩
  · rintro rfl
    rw [readByte_psw hs rfl, byteAt, if_neg (by decide), lowByte_zext]
  · rintro rfl
    rw [readByte_psw hs rfl, byteAt, if_pos (by decide), highByte_zext]
  · refine ⟨fun h => ?none, fun h hb => ?memoryBad, fun h hb => ?deviceBad, fun h hb => ?memoryGood,
      fun h hb => ?deviceGood⟩
    case none => exact readByte_of_abort hs (transferIn_unanswered hi h)
    all_goals
      have hslave := transferIn_answered hi h
      simp only [hb, if_true, Bool.false_eq_true, if_false, slaveWord] at hslave
    case memoryBad => exact readByte_of_abort hs hslave
    case deviceBad => exact ⟨_, readByte_of_abort hs hslave⟩
    case memoryGood => rw [readByte_of_ok hs hslave, byteAt_memWord]
    case deviceGood => exact ⟨_, readByte_of_ok hs hslave⟩

/-! ### Writes of bytes -/

theorem writeByte_alone {a : Word} {v : Byte} {s : State} (hs : s.npr = []) : writeByte a v s = putByte a v s :=
  writeMem_alone (sz := .byte) hs

/-- A byte write that nothing answers changes nothing (R64). -/
theorem putByte_unanswered {a : Word} {s : State} (v : Byte) (h : answersWrite .byte s a = false) :
    putByte a v s = .abort .busError s := by
  simp only [answersWrite, writeTransfer, Bool.or_eq_false_iff, Option.isSome_eq_false_iff, Option.isNone_iff_eq_none] at h
  obtain ⟨hi, hn⟩ := h
  have hp := not_psw_of_not_internal hi
  have hp' : a ≠ pswAddress := fun he => hp (by rw [he]; rfl)
  simp [putByte, hp, hp', not_register_of_not_internal hi, hn]

/-- Settles O11: a write that is answered stores the byte, the PSW or nothing, and changes only memory, the PSW and the
count of free values. -/
theorem byteWrites : Obligations.ByteWrites := by
  intro s a v hs
  rw [writeByte_alone hs]
  refine ⟨putByte_unanswered v, fun h => ?_⟩
  obtain ⟨t, ht, hstored, hpsw, m, p, n, rfl⟩ := putMem_stored .byte (s := s) (a := a) v (fun h => by cases h) h
  exact ⟨_, ht, hstored, hpsw, fun _ => rfl, rfl, by simp [SameControl]⟩

end Sys2Proof.Machine
end

section
/-! Instructions whose destination is a register: they load it, set the condition codes and change nothing else. -/

namespace Sys2Proof.Machine

open Sys2Proof.Config Sys2Proof.Safety

/-- What an instruction leaves that, once its operands are read, loads a register and the condition codes. -/
theorem loadsRegister_of_prepared {s p : State} (hp : Prepared s p) (r : Reg) (v : Word) (f : Cc) :
    LoadsRegister r v f s p (((p.setCc f).setReg r v).complete s.tBit) := by
  refine ⟨fun q => State.reg_setReg (p.setCc f) r q v, ?cc, ?priority, ?memory, rfl, completed_of hp rfl⟩
  case cc => simp
  case priority =>
    show (p.setCc f).psw.extractLsb' 4 4 = s.psw.extractLsb' 4 4
    rw [State.high_psw_setCc, hp.psw]
  case memory =>
    intro a
    show p.mem.read a.toNat = s.mem.read a.toNat
    rw [hp.mem]

/-- The byte instructions that rewrite their operand are one body with the operation of each (R60, R140). -/
theorem exec_byteModify {p : (Operand → Instr) × (Params → Cc → Byte → Alu 8)} (hp : p ∈ byteModify) (dst : Operand)
    (s : State) : exec (p.1 dst) s = instruction (modifyOperand .byte dst (p.2 s.inst.params)) s := by
  simp only [byteModify, List.mem_cons, List.not_mem_nil, or_false] at hp
  rcases hp with rfl | rfl | rfl | rfl | rfl | rfl | rfl | rfl | rfl | rfl <;> rfl

/-- Settles O21: only the low byte of the register is written, as R24 says of every byte result. -/
theorem byteModifyRegister : Obligations.ByteModifyRegister := by
  intro p hp r s out
  have hbody : modifyOperand .byte (.reg r) (p.2 s.inst.params) s.useScratch =
      .ok () ((s.useScratch.setCc out.cc).setReg r (highByte (s.reg r) ++ out.res)) := rfl
  exact ⟨_, (exec_byteModify hp _ s).trans (instruction_of_ok hbody),
    loadsRegister_of_prepared (Prepared.of_useScratch s) r _ out.cc⟩

/-- The condition codes of MOV: N is the sign of the source value (R181). -/
theorem aluMov_cc {w : Nat} (a : BitVec w) (f : Cc) :
    (aluMov a f).cc = { n := decide (a.toInt < 0), z := decide (a = 0), v := false, c := f.c } := by
  simp [aluMov, aluResult, BitVec.msb_eq_toInt]

/-- Settles O29: the destination is touched only after the source is read, and MOVB loads the sign-extended byte. -/
theorem moveRegister : Obligations.MoveRegister := by
  intro src r s s1 hs
  refine ⟨fun a h => ?mov, fun a h => ?movb⟩
  all_goals
    have hp := (Prepared.of_useScratch s).of_readSource hs h
    rw [← hp.cc, ← aluMov_cc]
  case mov =>
    have hbody : moveBody src (.reg r) s.useScratch = .ok () ((s1.setCc (aluMov a s1.cc).cc).setReg r a) := by
      rw [moveBody, h]
      rfl
    exact ⟨_, instruction_of_ok hbody, loadsRegister_of_prepared hp r a _⟩
  case movb =>
    have hbody : moveByteBody src (.reg r) s.useScratch =
        .ok () ((s1.setCc (aluMov a s1.cc).cc).setReg r (BitVec.ofInt 16 a.toInt)) := by
      rw [moveByteBody, h]
      rfl
    exact ⟨_, instruction_of_ok hbody, loadsRegister_of_prepared hp r _ _⟩

end Sys2Proof.Machine
end

section
/-! The processor's turn with nothing to service (R80, R241, R260, R270), RESET and BUS INIT, and the reset state. -/

namespace Sys2Proof.Machine

open Sys2Proof.Config Sys2Proof.Safety

/-- When it is the processor's turn, the step is that turn (R260). -/
theorem step_of_turn {s₀ s : State} (h : TurnOf s₀ s) : step s₀ = processorTurn s := by
  obtain ⟨ha, rfl⟩ | ⟨l, acts, rest, ha, rfl⟩ := h <;> simp only [step, ha]

/-! ### The service point -/

/-- A request is granted only on a level that is latched and above PRI, and only if a device still requests on it
(R282, R285). -/
theorem grantedRequest_spec {s : State} {r : Request} (h : grantedRequest s = some r) :
    r ∈ s.requests ∧ s.brLatch.holds r.level = true ∧ s.pri < r.level.num := by
  obtain ⟨l, -, hl⟩ := List.exists_of_findSome?_eq_some h
  split at hl
  · rename_i hc
    have hr : r.level = l := by simpa using List.find?_some hl
    simp only [Bool.and_eq_true, decide_eq_true_eq] at hc
    subst hr
    exact ⟨List.mem_of_find?_eq_some hl, hc⟩
  · cases hl

/-- No flag pending, the service point has the halt request and the bus requests left to look at (R270). -/
theorem arbitrate_of_nothingPending {s : State} (h : NothingPending s) : arbitrate s =
    if s.haltRequest && !s.haltPassed then some (grantHalt s) else (requestToGrant s).map fun r => interrupt r s := by
  simp [arbitrate, show s.pending = _ from h]

/-- With nothing to service the service point does nothing. -/
theorem service_of_quiet {s : State} (h : Quiet s) : service s = none := by
  obtain ⟨hpending, hrequests⟩ := h
  have hflags : NothingPending s.enterService := hpending
  rw [service, arbitrate_of_nothingPending hflags]
  obtain ⟨hhalt, hlevels⟩ | ⟨hhalt, hpassed⟩ := hrequests
  · have hnone : grantedRequest s.enterService = none := by
      refine Option.eq_none_iff_forall_ne_some.2 fun r hr => ?_
      obtain ⟨hmem, hlatched, hpri⟩ := grantedRequest_spec hr
      exact absurd hpri (Nat.not_lt.2 (hlevels r hmem hlatched))
    simp [hhalt, requestToGrant, hnone]
  · simp [hhalt, hpassed, requestToGrant]

/-- A fetch from plain memory (R26). -/
theorem fetch_plain {s : State} (hs : s.npr = []) (h : plainWord s (s.reg .pc) = true) :
    fetch s = .ok (s.memWord (s.reg .pc)) (((s.setHidden { s.hidden with b := s.memWord (s.reg .pc) }).setIr
      (s.memWord (s.reg .pc))).bump .pc 2) := by
  simp only [fetch, readWord_plain hs h]

/-- Settles O6: the service point finds nothing, the fetch succeeds, and what it reads is the word of the instruction. -/
theorem stepRunsDecodedInstruction : Obligations.StepRunsDecodedInstruction := by
  refine ⟨fun _ _ => step_of_turn, fun s₀ s i hturn hs hrun hquiet hpc _ hdec => ?_⟩
  have hi : decode (s.memWord (s.reg .pc)) = i := by
    injection hdec with hdec
    exact congrArg Prod.fst hdec
  have hfetch := fetch_plain (s := s.enterService.leaveService) hs hpc
  calc step s₀ = runInstruction s.enterService.leaveService := by
        rw [step_of_turn hturn, processorTurn, hrun, service_of_quiet hquiet]
    _ = exec (decode (s.memWord (s.reg .pc))) _ := by rw [runInstruction, hfetch]; rfl
    _ = _ := by rw [hi]; rfl

/-- Settles O49: a waiting processor only passes its service point, and a halted one has none. -/
theorem waitingAndHaltedStay : Obligations.WaitingAndHaltedStay := by
  intro s₀ s hturn
  rw [step_of_turn hturn]
  refine ⟨fun hwait hquiet => ?_, fun hhalted => ?_, fun w hgranted => ?_⟩
  · simp only [processorTurn, hwait, service_of_quiet hquiet]
    rfl
  · simp only [processorTurn, hhalted]
  · simp only [processorTurn, hgranted]

/-! ### RESET, BUS INIT and the reset state -/

/-- Settles O44: RESET and BUS INIT empty the list of requests; RESET completes besides. -/
theorem reset : Obligations.Reset :=
  ⟨rfl, fun _ => ⟨_, rfl, rfl, rfl, rfl⟩, fun s rest h => by simp only [step, h]; rfl⟩

/-- Settles O52: every location of the reset state's memory reads zero, and so do its PC and PSW. -/
theorem resetState : Obligations.ResetState := by
  have hquiet : Quiet State.reset := ⟨rfl, .inl ⟨rfl, fun r hr => by cases hr⟩⟩
  have hrun : HaltedIrZero State.reset := fun h => by cases h
  exact ⟨rfl, rfl, rfl, rfl, rfl, hquiet, hrun⟩

end Sys2Proof.Machine
end

section
/-! The restart routine (R46, R321, R264): the state in which each of its reads is made, and what is left when one of them
raises. -/

namespace Sys2Proof.Machine

open Sys2Proof.Config Sys2Proof.Safety

/-- The state in which the restart routine reads the word at `a`: R5 holds the PC left over, PC is `pc` and B is `b`. -/
def restartAt (a pc b : Word) (s : State) : State :=
  { s with
    regs := (s.regs.set .r5 (s.reg .pc)).set .pc pc
    hidden := { s.hidden with r13 := a, b := b }
    power := { s.power with pup := true } }

/-- The routine starts at 24 with PC and B as they are. -/
theorem restart_eq (s : State) :
    restart s = (settleRestart (loadVector 0o24 (restartAt 0o24 (s.reg .pc) s.hidden.b s))).setRunState .run := rfl

/-- With both words in plain memory it ends at 26. -/
theorem restart_plain {s : State} (hs : s.npr = []) (h24 : plainWord s 0o24 = true) (h26 : plainWord s 0o26 = true) :
    restart s = ({ restartAt 0o26 (s.memWord 0o24) (s.memWord 0o26) s with
      psw := lowByte (s.memWord 0o26) } : State).setRunState .run := by
  rw [restart_eq, loadVector_plain (s := restartAt _ _ _ s) hs ((plainWord_congr rfl _).trans h24)
    ((plainWord_congr rfl _).trans h26)]
  rfl

/-- The first read of the vector raises. -/
theorem loadVector_abort_first {v : Word} {s t : State} {c : Abort} (h : readIntoB v s = .abort c t) :
    loadVector v s = .abort c t := by
  rw [loadVector, h, Res.andThen_abort]

/-- The second read of the vector raises, after a good first one. -/
theorem loadVector_abort_second {v : Word} {s t : State} {c : Abort} (hs : s.npr = []) (h1 : plainWord s v = true)
    (h : readIntoB (v + 2) ((s.setHidden { s.hidden with r13 := v + 2, b := s.memWord v }).setReg .pc (s.memWord v)) =
      .abort c t) : loadVector v s = .abort c t := by
  rw [loadVector, readIntoB_plain hs h1, Res.andThen_ok]
  exact congrArg (Res.andThen · _) h

/-- The routine has come to its read at `a` with `pc` in PC: to 24, or past a good 24 to 26 (R321). -/
def RestartReaches (a pc : Word) (s : State) : Prop :=
  (a = 0o24 ∧ pc = s.reg .pc) ∨ (a = 0o26 ∧ plainWord s 0o24 = true ∧ pc = s.memWord 0o24)

/-- A read that raises ends the routine there. -/
theorem restart_of_abort {a pc : Word} {s : State} (hs : s.npr = []) (h : RestartReaches a pc s) :
    ∃ b, ∀ c t, readIntoB a (restartAt a pc b s) = .abort c t →
      restart s = (settleRestart (.abort c t)).setRunState .run := by
  obtain ⟨rfl, rfl⟩ | ⟨rfl, h24, rfl⟩ := h
  · exact ⟨s.hidden.b, fun c t hr => by rw [restart_eq, loadVector_abort_first hr]⟩
  · refine ⟨s.memWord 0o24, fun c t hr => ?_⟩
    rw [restart_eq, loadVector_abort_second (s := restartAt 0o24 (s.reg .pc) s.hidden.b s) hs
      ((plainWord_congr rfl _).trans h24) hr]

/-- The state in which the routine has stopped at `a`: the processor runs, with the bus error flag set, and B and the
count of free values are what the failing read made them (R264). -/
def restartStopped (a pc b : Word) (n : Nat) (s : State) : State :=
  { restartAt a pc b s with runState := .run, pending := { s.pending with busError := true }, free := n }

/-- Where nothing answers, the routine stops at `a`. -/
theorem restart_unanswered {a pc : Word} {s : State} (hs : s.npr = []) (h : RestartReaches a pc s)
    (ha : answer s.inst .dati a = none) : ∃ b n, restart s = restartStopped a pc b n s := by
  obtain ⟨b, hstop⟩ := restart_of_abort hs h
  have hread : readWord .dati a (restartAt a pc b s) = .abort .busError (restartAt a pc b s) := by
    obtain ⟨-, -, -, hslave⟩ := wordReads (restartAt a pc b s) .dati a hs
    obtain ⟨rfl, -⟩ | ⟨rfl, -⟩ := h <;> exact (hslave rfl rfl).1 ha
  exact ⟨_, _, hstop _ _ (readIntoB_abort hread)⟩

/-- After bad parity it stops there too, B holding the word that was answered (R268, R321). -/
theorem restart_badParity {a pc : Word} {s : State} {kind : RegionKind} (hs : s.npr = []) (h : RestartReaches a pc s)
    (ha : answer s.inst .dati a = some kind) (hb : badParity s.inst a = true) :
    ∃ b n, restart s = restartStopped a pc b n s ∧ (kind = .memory → b = s.memWord a) := by
  obtain ⟨b, hstop⟩ := restart_of_abort hs h
  obtain ⟨-, -, -, hslave⟩ := wordReads (restartAt a pc b s) .dati a hs
  have heven : isOdd a = false ∧ internalAddress a.toNat = false := by
    obtain ⟨rfl, -⟩ | ⟨rfl, -⟩ := h <;> exact ⟨rfl, rfl⟩
  obtain ⟨-, hmemory, hdevice, -⟩ := hslave heven.1 heven.2
  cases kind with
  | memory => exact ⟨_, _, hstop _ _ (readIntoB_abort (hmemory ha hb)), fun _ => rfl⟩
  | device =>
    obtain ⟨w, hw⟩ := hdevice ha hb
    exact ⟨_, _, hstop _ _ (readIntoB_abort hw), fun h => by cases h⟩

/-- The registers while the routine runs: R5 and PC are its own, the others as they were. -/
theorem reg_restartAt (a pc b : Word) (s : State) {q : Reg} (h5 : q ≠ .r5) (hpc : q ≠ .pc) :
    (restartAt a pc b s).reg q = s.reg q :=
  (State.reg_setReg_of_ne (s.setReg .r5 (s.reg .pc)) pc hpc).trans (State.reg_setReg_of_ne s _ h5)

namespace RestartRoutine

/-- Settles O53: while AC LO is asserted the processor waits; then the routine ends at 26, or at the read that raises. -/
theorem restart : Obligations.Restart := by
  intro s₀ s hturn hs hinit
  rw [step_of_turn hturn]
  refine ⟨fun hac => ?waits, fun hac h24 h26 => ?ends, fun hac a pc hreach => ⟨fun ha => ?none, fun ha hb => ?parity⟩⟩
  case waits => simp only [processorTurn, hinit, hac, if_true]
  all_goals
    have hturn : processorTurn s = .next (Machine.restart s) := by
      simp only [processorTurn, hinit, hac, Bool.false_eq_true, if_false]
  case ends =>
    refine ⟨_, hturn, ?_⟩
    rw [restart_plain hs h24 h26]
    exact ⟨rfl, rfl, rfl, rfl, rfl, fun q => reg_restartAt 0o26 _ (s.memWord 0o26) s, rfl, rfl, rfl, rfl⟩
  case none =>
    obtain ⟨b, n, ht⟩ := restart_unanswered hs hreach ha
    rw [ht] at hturn
    exact ⟨_, ⟨hturn, rfl, rfl, rfl, rfl, fun q => reg_restartAt a pc b s, rfl, rfl, rfl, rfl, rfl, rfl⟩, rfl⟩
  case parity =>
    obtain ⟨kind, hkind⟩ := Option.isSome_iff_exists.1 ha
    obtain ⟨b, n, ht, hword⟩ := restart_badParity hs hreach hkind hb
    rw [ht] at hturn
    refine ⟨_, ⟨hturn, rfl, rfl, rfl, rfl, fun q => reg_restartAt a pc b s, rfl, rfl, rfl, rfl, rfl, rfl⟩, fun hm => ?_, rfl⟩
    exact hword (Option.some.inj (hkind.symm.trans hm))

end RestartRoutine

end Sys2Proof.Machine
end

section
/-! What the console and the NPR masters read and write (R45, R66, R72, R286): the scratch pad as a list of sixteen words,
and the access to each kind of address, as equations. -/

namespace Sys2Proof.Machine

open Sys2Proof.Config Sys2Proof.Safety

/-! ### The scratch pad -/

/-- The sixteen words of the scratch pad, R0 to R17 (R45). -/
def State.scratchWords (s : State) : List Word :=
  [s.regs.r0, s.regs.r1, s.regs.r2, s.regs.r3, s.regs.r4, s.regs.r5, s.regs.sp, s.regs.pc,
   s.hidden.r10, s.hidden.r11, s.hidden.r12, s.hidden.r13, s.hidden.r14, s.hidden.r15, s.hidden.r16, s.hidden.r17]

/-- The place in it that an address names by its low four bits. -/
def scratchIndex (a : Word) : Nat := (a.extractLsb' 0 4).toNat

theorem scratchIndex_lt (a : Word) : scratchIndex a < 16 := (a.extractLsb' 0 4).isLt

/-- The register addresses are consecutive. -/
theorem toNat_of_isRegisterAddress {a : Word} (h : isRegisterAddress a = true) :
    a.toNat = 0o177700 + scratchIndex a := by
  simp only [isRegisterAddress, Bool.and_eq_true, decide_eq_true_eq] at h
  rw [scratchIndex, BitVec.extractLsb'_toNat, Nat.shiftRight_zero]
  omega

theorem State.spm_eq (s : State) (a : Word) : s.spm a = s.scratchWords.getD (scratchIndex a) 0 := by
  have hlt := scratchIndex_lt a
  unfold State.spm
  rw [show (a.extractLsb' 0 4).toNat = scratchIndex a from rfl]
  interval_cases scratchIndex a <;> rfl

/-- A write replaces one word; R17 receives its bytes exchanged (R40, R363). -/
theorem State.scratchWords_setSpm (s : State) (a v : Word) : (s.setSpm a v).scratchWords =
    s.scratchWords.set (scratchIndex a) (if scratchIndex a = 15 then swapBytes v else v) := by
  have hlt := scratchIndex_lt a
  unfold State.setSpm
  rw [show (a.extractLsb' 0 4).toNat = scratchIndex a from rfl]
  interval_cases scratchIndex a <;> rfl

theorem State.spm_setSpm (s : State) (a b v : Word) : (s.setSpm a v).spm b =
    if scratchIndex b = scratchIndex a then (if scratchIndex a = 15 then swapBytes v else v) else s.spm b := by
  have hlen : scratchIndex a < s.scratchWords.length := scratchIndex_lt a
  rw [State.spm_eq, State.spm_eq, State.scratchWords_setSpm, List.getD_eq_getElem?_getD, List.getD_eq_getElem?_getD,
    List.getElem?_set]
  by_cases h : scratchIndex b = scratchIndex a
  · simp [h, hlen]
  · simp [h, Ne.symm h]

/-- A write to the scratch pad changes nothing outside it, nor B. -/
theorem State.setSpm_frame (s : State) (a v : Word) :
    s.setSpm a v = { s with regs := (s.setSpm a v).regs, hidden := (s.setSpm a v).hidden } ∧
    (s.setSpm a v).hidden.b = s.hidden.b := by
  unfold State.setSpm
  split <;> exact ⟨rfl, rfl⟩

/-- The addresses at which the statements name the words are those at which the console reaches them. -/
theorem scratchPad_spm {p : Word × (State → Word)} (hp : p ∈ scratchPad) :
    isRegisterAddress p.1 = true ∧ ∀ s, p.2 s = s.spm p.1 := by
  simp only [scratchPad, List.mem_cons, List.not_mem_nil, or_false] at hp
  rcases hp with rfl | rfl | rfl | rfl | rfl | rfl | rfl | rfl | rfl | rfl | rfl | rfl | rfl | rfl | rfl | rfl <;>
    exact ⟨rfl, fun _ => rfl⟩

/-- What is read in the scratch pad after a write to it. -/
theorem scratchPad_setSpm {p q : Word × (State → Word)} (hp : p ∈ scratchPad) (hq : q ∈ scratchPad) (s : State)
    (v : Word) : q.2 (s.setSpm p.1 v) =
      if q.1 = p.1 then (if p.1 = 0o177717 then lowByte v ++ highByte v else v) else q.2 s := by
  obtain ⟨hpa, -⟩ := scratchPad_spm hp
  obtain ⟨hqa, hq2⟩ := scratchPad_spm hq
  have hpn := toNat_of_isRegisterAddress hpa
  have hqn := toNat_of_isRegisterAddress hqa
  have hsame : q.1 = p.1 ↔ scratchIndex q.1 = scratchIndex p.1 := by
    rw [← BitVec.toNat_inj]
    omega
  have hlast : p.1 = 0o177717 ↔ scratchIndex p.1 = 15 := by
    rw [← BitVec.toNat_inj, show (0o177717 : Word).toNat = 0o177717 from rfl]
    omega
  simp only [hq2, State.spm_setSpm, hsame, hlast]
  rfl

/-! ### Access by the kind of address -/

section
variable {a : Word} {s : State}

theorem masterRead_register (h : isRegisterAddress a = true) : masterRead a s = some (if s.isHalted then s.spm a else 0) := by
  simp [masterRead, h]

theorem masterRead_memory (hi : internalAddress a.toNat = false) : masterRead a s =
    if answer s.inst .dati (evenAddr a) = some .memory then some (s.memWord (evenAddr a)) else none := by
  simp [masterRead, not_register_of_not_internal hi, not_psw_of_not_internal hi]

theorem masterWrite_word_register (h : isRegisterAddress a = true) (v : Word) :
    masterWrite (.word a v) s = if s.isHalted then s.setSpm a v else s := by
  simp [masterWrite, h]

theorem masterWrite_word_psw (v : Word) : masterWrite (.word pswAddress v) s =
    if s.isHalted then s.setPsw (lowByte v) else writePswByAddress (lowByte v) s := rfl

theorem masterWrite_byte_psw (v : Byte) : masterWrite (.byte pswAddress v) s =
    if s.isHalted then s.setPsw v else writePswByAddress v s := rfl

/-- A byte to a register address or above the PSW is lost (log 24). -/
theorem masterWrite_byte_lost (h : isRegisterAddress a = true ∨ a = 0o177777) (v : Byte) :
    masterWrite (.byte a v) s = s := by
  obtain h | rfl := h
  · have hne : a ≠ pswAddress := by
      rintro rfl
      exact absurd h (by decide)
    simp [masterWrite, h, hne]
  · rfl

theorem masterWrite_word_memory (hi : internalAddress a.toNat = false) (v : Word) : masterWrite (.word a v) s =
    if answer s.inst .dato (evenAddr a) = some .memory then s.setMemWord (evenAddr a) v else s := by
  simp [masterWrite, not_register_of_not_internal hi, not_psw_of_not_internal hi]

theorem masterWrite_byte_memory (hi : internalAddress a.toNat = false) (v : Byte) : masterWrite (.byte a v) s =
    if answer s.inst .datob (evenAddr a) = some .memory then s.setMemByte a v else s := by
  have hp := not_psw_of_not_internal hi
  have hp' : a ≠ pswAddress := fun he => hp (by rw [he]; rfl)
  simp [masterWrite, not_register_of_not_internal hi, hp, hp']

end

/-- A store of a word changes its two bytes alone. -/
theorem sameMemoryBut_setMemWord (s : State) (a v : Word) : SameMemoryBut [a, a + 1] s (s.setMemWord a v) := by
  intro x hx
  simp only [List.mem_cons, List.not_mem_nil, or_false, not_or] at hx
  exact State.memByte_setMemWord_of_ne s v hx.1 hx.2

/-- A store of a byte changes it alone. -/
theorem sameMemoryBut_setMemByte (s : State) (a : Word) (v : Byte) : SameMemoryBut [a] s (s.setMemByte a v) := by
  intro x hx
  exact State.memByte_setMemByte_of_ne s v (List.ne_of_not_mem_cons hx)

/-- A write of the PSW's address touches the PSW and the count of free values. -/
theorem writePswByAddress_frame (d : Byte) (s : State) :
    PswAfterStore pswAddress d s.cc s (writePswByAddress d s) ∧
    writePswByAddress d s =
      { s with psw := (writePswByAddress d s).psw, free := (writePswByAddress d s).free } := by
  obtain ⟨n, he, hpsw⟩ := writePswByAddress_after d s
  have hn : (writePswByAddress d s).free = n := congrArg State.free he
  exact ⟨hpsw, by rw [hn]; exact he⟩

theorem isHalted_iff (s : State) : s.isHalted = true ↔ s.runState = .halted ∨ ∃ w, s.runState = .haltGranted w := by
  unfold State.isHalted
  cases s.runState <;> simp

/-- The console at a word of the scratch pad of a halted processor. -/
theorem scratchPad_access {p : Word × (State → Word)} (hp : p ∈ scratchPad) {s : State} (hh : s.isHalted = true) :
    masterRead p.1 s = some (p.2 s) ∧ ∀ v, masterWrite (.word p.1 v) s = s.setSpm p.1 v := by
  obtain ⟨ha, hspm⟩ := scratchPad_spm hp
  exact ⟨by rw [masterRead_register ha, if_pos hh, hspm], fun v => by rw [masterWrite_word_register ha, if_pos hh]⟩

/-- Settles O51: each access goes by the kind of its address, and a halted processor opens its scratch pad and PSW. -/
theorem consoleRegisterAccess : Obligations.ConsoleRegisterAccess := by
  intro s
  refine ⟨isHalted_iff s, fun hh => ⟨fun p hp => ?pad, fun v => ?haltedWord, fun v => ?haltedByte⟩,
    fun hh => ⟨fun a ha => ⟨?closedRead, fun v => ?closedWrite⟩, fun v => ?runningWord, fun v => ?runningByte⟩, rfl,
    fun a v ha => masterWrite_byte_lost ha v, fun a hi => ⟨masterRead_memory hi, fun hn v => ?noWord, fun hn v => ?noByte,
      fun hw hm v => ?word, fun hw hm v => ?byte⟩, fun rest w ha => ?turn⟩
  case pad =>
    obtain ⟨hread, hwrite⟩ := scratchPad_access hp hh
    refine ⟨hread, fun v => ?_⟩
    rw [hwrite]
    refine ⟨?_, fun q hq hne => ?_, s.setSpm_frame p.1 v⟩
    · rw [scratchPad_setSpm hp hp, if_pos rfl]
    · rw [scratchPad_setSpm hp hq, if_neg hne]
  case haltedWord => rw [masterWrite_word_psw, if_pos hh]; rfl
  case haltedByte => rw [masterWrite_byte_psw, if_pos hh]; rfl
  case closedRead => rw [masterRead_register ha, if_neg (by simp [hh])]
  case closedWrite => rw [masterWrite_word_register ha, if_neg (by simp [hh])]
  case runningWord =>
    rw [masterWrite_word_psw, if_neg (by simp [hh])]
    exact writePswByAddress_frame (lowByte v) s
  case runningByte =>
    rw [masterWrite_byte_psw, if_neg (by simp [hh])]
    exact writePswByAddress_frame v s
  case noWord => rw [masterWrite_word_memory hi, if_neg hn]
  case noByte => rw [masterWrite_byte_memory hi, if_neg hn]
  case word =>
    rw [masterWrite_word_memory hi, if_pos hm]
    exact ⟨State.memWord_setMemWord_self s _ v hw, sameMemoryBut_setMemWord s _ v, rfl⟩
  case byte =>
    rw [masterWrite_byte_memory hi, if_pos hm]
    exact ⟨State.memByte_setMemByte_self s a v hw, sameMemoryBut_setMemByte s a v, rfl⟩
  case turn => simp only [step, ha]; rfl

end Sys2Proof.Machine
end

section
/-! Memory in canonical form and free of the processor's own addresses (R50, R66, R67), by the induction over the machine
in Laws/Closed.lean. -/

namespace Sys2Proof.Machine

open Sys2Proof.Config Sys2Proof.Safety

/-- The canonical form alone is kept by every update that a transfer makes. -/
theorem closedData_wf : ClosedData (fun s => s.mem.wf = true) where
  regs _ _ h := h
  psw _ _ h := h
  hidden _ _ h := h
  pending _ _ h := h
  npr _ _ h := h
  free _ _ h := h
  memByte _ _ _ h _ _ _ := State.wf_setMemByte _ _ _ h
  memWord _ _ _ h _ _ _ _ := State.wf_setMemWord _ _ _ h

/-- The addresses that a store reaches past the checks of the bus are not the processor's own. -/
theorem not_internal_of_not_psw_register {a : Word} (hp : evenAddr a ≠ pswAddress) (hr : isRegisterAddress a = false) :
    internalAddress a.toNat = false := by
  simp [internalAddress_eq, hp, hr]

theorem memoryGood_setMemByte {s : State} {a : Word} (h : MemoryGood s) (ha : internalAddress a.toNat = false)
    (v : Byte) : MemoryGood (s.setMemByte a v) := by
  obtain ⟨hwf, hlisted⟩ := h
  refine ⟨State.wf_setMemByte s a v hwf, fun c hc => ?_⟩
  rcases Memory.mem_write hc with hc | rfl
  · exact hlisted c hc
  · exact ha

theorem evenAddr_succ {a : Word} (h : isOdd a = false) : evenAddr (a + 1) = a := by
  apply BitVec.eq_of_toNat_eq
  simp only [isOdd_eq, decide_eq_false_iff_not] at h
  rw [toNat_evenAddr, BitVec.toNat_add, show ((1 : Word)).toNat = 1 from rfl]
  have := a.isLt
  omega

/-- The two bytes of a word are both the processor's own or both not. -/
theorem internalAddress_succ {a : Word} (h : isOdd a = false) :
    internalAddress (a + 1).toNat = internalAddress a.toNat := by
  rw [internalAddress_eq, internalAddress_eq, ← isRegisterAddress_evenAddr (a + 1), evenAddr_succ h, evenAddr_of_even h]

theorem memoryGood_setMemWord {s : State} {a : Word} (h : MemoryGood s) (ho : isOdd a = false)
    (ha : internalAddress a.toNat = false) (v : Word) : MemoryGood (s.setMemWord a v) :=
  memoryGood_setMemByte (memoryGood_setMemByte h ha _) ((internalAddress_succ ho).trans ha) _

theorem memoryGood_of_empty {s : State} (h : s.mem = []) : MemoryGood s := by
  rw [MemoryGood, h]
  exact ⟨rfl, fun c hc => absurd hc List.not_mem_nil⟩

/-- Memory changes only behind an address that is not the processor's own, or is lost as a whole. -/
theorem closed_memoryGood : Closed MemoryGood where
  regs _ _ h := h
  psw _ _ h := h
  hidden _ _ h := h
  pending _ _ h := h
  npr _ _ h := h
  free _ _ h := h
  memByte _ _ v h hp hr _ := memoryGood_setMemByte h (not_internal_of_not_psw_register hp hr) v
  memWord _ _ v h ho hp hr _ :=
    memoryGood_setMemWord h ho (not_internal_of_not_psw_register (by rwa [evenAddr_of_even ho]) hr) v
  ir _ _ h := h
  runState _ _ h := h
  brLatch _ _ h := h
  requests _ _ h := h
  haltRequest _ _ h := h
  haltPassed _ _ h := h
  power _ _ h := h
  agenda _ _ h := h
  deviceActs _ _ h := h
  lost _ _ := memoryGood_of_empty rfl

/-- Settles O55: good memory is closed under every update of the machine, so the step keeps it. -/
theorem stepKeepsMemoryGood : Obligations.StepKeepsMemoryGood :=
  fun s t hs ht => closed_memoryGood.step s hs t ht

/-- Settles O56: the memory of the reset state lists nothing. -/
theorem resetMemoryGood : Obligations.ResetMemoryGood := memoryGood_of_empty rfl

end Sys2Proof.Machine
end

section
/-! Writes that are answered and writes that are not (R58, R61, R64), at either size. -/

namespace Sys2Proof.Machine

open Sys2Proof.Config Sys2Proof.Safety

theorem putWord_odd {a : Word} (v : Word) (s : State) (h : isOdd a = true) : putWord a v s = .abort .busError s := by
  simp [putWord, h]

/-- A word write that nothing answers changes nothing (R64). -/
theorem putWord_unanswered {a : Word} {s : State} (v : Word) (h : answersWrite .word s a = false) :
    putWord a v s = .abort .busError s := by
  cases ho : isOdd a with
  | true => exact putWord_odd v s ho
  | false =>
    simp only [answersWrite, writeTransfer, Bool.or_eq_false_iff, Option.isSome_eq_false_iff,
      Option.isNone_iff_eq_none] at h
    obtain ⟨hi, hn⟩ := h
    have hp := not_psw_of_not_internal hi
    rw [evenAddr_of_even ho] at hp hn
    simp [putWord, ho, hp, not_register_of_not_internal hi, hn]

/-- So at either size, and where a word address is odd. -/
theorem putMem_unanswered {sz : Size} {a : Word} {s : State} (v : BitVec sz.bits)
    (h : (sz = .word ∧ isOdd a = true) ∨ answersWrite sz s a = false) : putMem sz a v s = .abort .busError s := by
  obtain ⟨rfl, ho⟩ | h := h
  · exact putWord_odd v s ho
  · cases sz with
    | byte => exact putByte_unanswered v h
    | word => exact putWord_unanswered v h

theorem writeWord_alone {a v : Word} {s : State} (hs : s.npr = []) : writeWord a v s = putWord a v s :=
  writeMem_alone (sz := .word) hs

/-- What answers a write is the installation's. -/
theorem answersWrite_congr {sz : Size} {s t : State} (h : t.inst = s.inst) (a : Word) :
    answersWrite sz t a = answersWrite sz s a := by
  simp [answersWrite, h]

/-- Settles O10: a write that is answered stores the word, the PSW or nothing, and changes only memory, the PSW and the
count of free values. -/
theorem wordWrites : Obligations.WordWrites := by
  intro s a v hs
  rw [writeWord_alone hs]
  refine ⟨putWord_odd v s, putWord_unanswered v, fun ho h => ?_⟩
  obtain ⟨t, ht, hstored, hpsw, m, p, n, rfl⟩ := putMem_stored .word (s := s) (a := a) v (fun _ => ho) h
  exact ⟨_, ht, hstored, hpsw, fun _ => rfl, rfl, by simp [SameControl]⟩

end Sys2Proof.Machine
end

section
/-! How an instruction with a body ends, as one equation for each instruction that rewrites a memory operand: what is left
of it once its source is read. The statements about such instructions, completed or aborted, go through these. -/

namespace Sys2Proof.Machine

open Sys2Proof.Config Sys2Proof.Safety

/-- How an instruction ends that began in `s`, by what its body came to: completion, or the trap of the abort (R264). -/
def finish (s : State) (r : Res Unit) : Host.Outcome State Fault Refusal :=
  match r with
  | .ok _ t => .next (t.complete s.tBit)
  | .abort c t => .next (takeAbort c t)

theorem instruction_eq_finish (body : State → Res Unit) (s : State) :
    instruction body s = finish s (body s.useScratch) := by
  cases h : body s.useScratch with
  | ok _ t => exact instruction_of_ok h
  | abort c t => exact instruction_of_abort h

/-! ### The families of instructions, at either size -/

/-- The instructions that rewrite one operand, each with its operation (R60, R140). -/
def modifyFamily : (sz : Size) → List ((Operand → Instr) × (Params → Cc → BitVec sz.bits → Alu sz.bits))
  | .word => wordModify
  | .byte => byteModify

/-- The double-operand instructions that rewrite their destination from its old value. -/
def combineFamily : (sz : Size) →
    List ((Operand → Operand → Instr) × (BitVec sz.bits → Cc → BitVec sz.bits → Alu sz.bits))
  | .word => wordCombine
  | .byte => byteCombine

/-- The double-operand instructions that only set the condition codes. -/
def compareFamily : (sz : Size) →
    List ((Operand → Operand → Instr) × (BitVec sz.bits → Cc → BitVec sz.bits → Alu sz.bits))
  | .word => wordCompare
  | .byte => byteCompare

theorem singleModify_eq (sz : Size) : singleModify sz = (modifyFamily sz).map (·.1) := by cases sz <;> rfl
theorem doubleModify_eq (sz : Size) : doubleModify sz = (combineFamily sz).map (·.1) := by cases sz <;> rfl
theorem doubleCompare_eq (sz : Size) : doubleCompare sz = (compareFamily sz).map (·.1) := by cases sz <;> rfl

theorem exec_wordModify {p : (Operand → Instr) × (Params → Cc → Word → Alu 16)} (hp : p ∈ wordModify) (dst : Operand)
    (s : State) : exec (p.1 dst) s = instruction (modifyOperand .word dst (p.2 s.inst.params)) s := by
  simp only [wordModify, List.mem_cons, List.not_mem_nil, or_false] at hp
  rcases hp with rfl | rfl | rfl | rfl | rfl | rfl | rfl | rfl | rfl | rfl | rfl <;> rfl

section
variable {sz : Size}

theorem exec_modify {p : (Operand → Instr) × (Params → Cc → BitVec sz.bits → Alu sz.bits)} (hp : p ∈ modifyFamily sz)
    (dst : Operand) (s : State) :
    exec (p.1 dst) s = finish s (modifyOperand sz dst (p.2 s.inst.params) s.useScratch) := by
  rw [← instruction_eq_finish (modifyOperand sz dst (p.2 s.inst.params))]
  cases sz with
  | byte => exact exec_byteModify hp dst s
  | word => exact exec_wordModify hp dst s

theorem exec_clear (sz : Size) (dst : Operand) (s : State) :
    exec (clear sz dst) s = finish s (storeOperand sz dst aluClr s.useScratch) := by
  rw [← instruction_eq_finish (storeOperand sz dst aluClr)]
  cases sz <;> rfl

theorem exec_test (sz : Size) (o : Operand) (s : State) :
    exec (test sz o) s = finish s (testBody sz o s.useScratch) := by
  rw [← instruction_eq_finish (testBody sz o)]
  cases sz <;> rfl

theorem exec_combine {p : (Operand → Operand → Instr) × (BitVec sz.bits → Cc → BitVec sz.bits → Alu sz.bits)}
    (hp : p ∈ combineFamily sz) (src dst : Operand) (s : State) :
    exec (p.1 src dst) s =
      finish s ((readSource sz src s.useScratch).andThen fun a s1 => modifyOperand sz dst (p.2 a) s1) := by
  rw [← instruction_eq_finish fun u => (readSource sz src u).andThen fun a s1 => modifyOperand sz dst (p.2 a) s1]
  cases sz <;>
    simp only [combineFamily, wordCombine, byteCombine, List.mem_cons, List.not_mem_nil, or_false] at hp
  case byte => rcases hp with rfl | rfl <;> rfl
  case word => rcases hp with rfl | rfl | rfl | rfl <;> rfl

theorem exec_compare {p : (Operand → Operand → Instr) × (BitVec sz.bits → Cc → BitVec sz.bits → Alu sz.bits)}
    (hp : p ∈ compareFamily sz) (src dst : Operand) (s : State) :
    exec (p.1 src dst) s = finish s (compareBody sz src dst p.2 s.useScratch) := by
  rw [← instruction_eq_finish (compareBody sz src dst p.2)]
  cases sz <;>
    simp only [compareFamily, wordCompare, byteCompare, List.mem_cons, List.not_mem_nil, or_false] at hp
  all_goals rcases hp with rfl | rfl <;> rfl

/-- MOV and MOVB to memory; a register destination of MOVB is another matter (R182). -/
theorem exec_move_mem (sz : Size) (src : Operand) (m : MemMode) (r : Reg) (s : State) :
    exec (move sz src (.mem m r)) s =
      finish s ((readSource sz src s.useScratch).andThen fun a s1 => storeOperand sz (.mem m r) (aluMov a) s1) := by
  rw [← instruction_eq_finish fun u => (readSource sz src u).andThen fun a s1 => storeOperand sz (.mem m r) (aluMov a) s1]
  cases sz <;> rfl

end

/-- MOV and MOVB read their source first, whatever the destination. -/
theorem exec_move_of_abort {sz : Size} {src : Operand} {s t : State} {c : Abort}
    (h : readSource sz src s.useScratch = .abort c t) (dst : Operand) :
    exec (move sz src dst) s = finish s (.abort c t) := by
  cases sz with
  | byte =>
    show instruction (moveByteBody src dst) s = _
    rw [instruction_eq_finish, moveByteBody, h, Res.andThen_abort]
  | word =>
    show instruction (moveBody src dst) s = _
    rw [instruction_eq_finish, moveBody, h, Res.andThen_abort]

theorem exec_jmp (m : MemMode) (r : Reg) (s : State) : exec (.jmp m r) s = finish s (jumpBody m r s.useScratch) :=
  instruction_eq_finish (jumpBody m r) s

theorem exec_jsr (link : Reg) (m : MemMode) (r : Reg) (s : State) :
    exec (.jsr link m r) s = finish s (callBody link m r s.useScratch) :=
  instruction_eq_finish (callBody link m r) s

end Sys2Proof.Machine
end

section
/-! Instructions that rewrite a memory operand and complete: the result is stored at the effective address, and nothing
else in memory changes (R58 to R60, R128, R140, R180). -/

namespace Sys2Proof.Machine

open Sys2Proof.Config Sys2Proof.Safety

/-- Where the destination operation, begun in `p`, has stored `v` at `a`, the instruction has. -/
theorem storesResult_of_prepared {sz : Size} {i : Instr} {r : Reg} {inc a : Word} {v : BitVec sz.bits} {f : Cc}
    {s p s1 : State} {res : Res Unit} (hp : Prepared s p) (h1 : Prepared s s1) (hx : exec i s = finish s res)
    (h : ∃ t, res = .ok () t ∧ (∀ q, t.reg q = if q = r then s1.reg r + inc else s1.reg q) ∧ Stored sz a v p t ∧
      PswAfterStore a (lowOf sz v) f p t ∧ ∃ g m w n, t = { s1 with regs := g, mem := m, psw := w, free := n }) :
    ∃ t, exec i s = .next t ∧ StoresResult sz r inc a v f s s1 t := by
  obtain ⟨t, rfl, hregs, hstored, hpsw, g, m, w, n, rfl⟩ := h
  exact ⟨_, hx, hregs, Stored.of_prepared hp hstored _, PswAfterStore.of_prepared hp hpsw _, rfl, completed_of h1 rfl⟩

section
variable {sz : Size} {i : Instr} {m : MemMode} {r : Reg} {s p s1 : State} {ea inc : Word}

/-- An instruction that comes to modifying a memory operand stores the result. -/
theorem storesResult_of_modify {f : Cc → BitVec sz.bits → Alu sz.bits} {old : BitVec sz.bits} {s2 : State}
    (hs : s.npr = []) (hp : Prepared s p) (hx : exec i s = finish s (modifyOperand sz (.mem m r) f p))
    (he : eaOf m r sz p = .ok (ea, inc) s1) (hr : readMem sz .datip ea s1 = .ok old s2)
    (ha : answersWrite sz s ea = true) :
    ∃ t, exec i s = .next t ∧ StoresResult sz r inc ea (f s.cc old).res (f s.cc old).cc s s1 t := by
  rw [← hp.cc]
  exact storesResult_of_prepared hp (hp.of_eaOf hs he) hx
    (modifyOperand_mem (hp.npr.trans hs) he hr ((answersWrite_congr hp.inst ea).trans ha))

/-- One that comes to storing into a memory operand whose old value it does not use stores the value. -/
theorem storesResult_of_store {f : Cc → Alu sz.bits} (hs : s.npr = []) (hp : Prepared s p)
    (hx : exec i s = finish s (storeOperand sz (.mem m r) f p)) (he : eaOf m r sz p = .ok (ea, inc) s1)
    (hr : s.inst.params.movClrReadBeforeWrite = true → ∃ old s2, readMem sz .datip ea s1 = .ok old s2)
    (ho : sz = .word → isOdd ea = false) (ha : answersWrite sz s ea = true) :
    ∃ t, exec i s = .next t ∧ StoresResult sz r inc ea (f s.cc).res (f s.cc).cc s s1 t := by
  rw [← hp.cc]
  exact storesResult_of_prepared hp (hp.of_eaOf hs he) hx (storeOperand_mem (hp.npr.trans hs) he
    (by rwa [hp.inst]) ho ((answersWrite_congr hp.inst ea).trans ha))

end

/-- Settles O22: the operand is modified in place. -/
theorem wordModifyMemory : Obligations.WordModifyMemory := by
  intro p hp m r s ea inc s1 old s2 hs he hr ha
  exact storesResult_of_modify (sz := .word) hs (.of_useScratch s) (exec_modify (sz := .word) hp _ s) he hr ha

/-- Settles O23: the same at the size of a byte, where an odd address is as good as an even one. -/
theorem byteModifyMemory : Obligations.ByteModifyMemory := by
  intro p hp m r s ea inc s1 old s2 hs he hr ha
  exact storesResult_of_modify (sz := .byte) hs (.of_useScratch s) (exec_modify (sz := .byte) hp _ s) he hr ha

/-- Settles O24: a register is loaded with zero, and memory stored with it, the old value read first if the parameter has
it read (U9). -/
theorem clearOperand : Obligations.ClearOperand := by
  intro s r cc
  have hp := Prepared.of_useScratch s
  refine ⟨⟨_, ?clr, loadsRegister_of_prepared hp r 0 cc⟩, ⟨_, ?clrb, loadsRegister_of_prepared hp r _ cc⟩,
    fun m ea inc s1 hs => ⟨fun he hr ho ha => ?clrMem, fun he hr ha => ?clrbMem⟩⟩
  case clr => exact exec_clear .word (.reg r) s
  case clrb => exact exec_clear .byte (.reg r) s
  case clrMem => exact storesResult_of_store (sz := .word) hs hp (exec_clear .word _ s) he hr (fun _ => ho) ha
  case clrbMem => exact storesResult_of_store (sz := .byte) hs hp (exec_clear .byte _ s) he hr (fun h => by cases h) ha

section
variable {sz : Size} {src : Operand} {a : BitVec sz.bits} {s s0 : State}

/-- What the reading of its source leaves of an instruction's state. -/
theorem prepared_of_source (hs : s.npr = []) (h : readSource sz src s.useScratch = .ok a s0) : Prepared s s0 :=
  (Prepared.of_useScratch s).of_readSource hs h

/-- Once its source is read, an instruction that combines it with its destination comes to modifying that. -/
theorem exec_combine_of_source {p : (Operand → Operand → Instr) × (BitVec sz.bits → Cc → BitVec sz.bits → Alu sz.bits)}
    (hp : p ∈ combineFamily sz) (h : readSource sz src s.useScratch = .ok a s0) (dst : Operand) :
    exec (p.1 src dst) s = finish s (modifyOperand sz dst (p.2 a) s0) := by
  rw [exec_combine hp, h, Res.andThen_ok]

/-- And MOV comes to storing it. -/
theorem exec_move_of_source (h : readSource sz src s.useScratch = .ok a s0) (m : MemMode) (r : Reg) :
    exec (move sz src (.mem m r)) s = finish s (storeOperand sz (.mem m r) (aluMov a) s0) := by
  rw [exec_move_mem, h, Res.andThen_ok]

/-- At either size, the result of the combination is stored. -/
theorem combine_stores {p : (Operand → Operand → Instr) × (BitVec sz.bits → Cc → BitVec sz.bits → Alu sz.bits)}
    {m : MemMode} {r : Reg} {s1 s2 : State} {ea inc : Word} {b : BitVec sz.bits} (hs : s.npr = [])
    (hp : p ∈ combineFamily sz) (h : readSource sz src s.useScratch = .ok a s0)
    (he : eaOf m r sz s0 = .ok (ea, inc) s1) (hr : readMem sz .datip ea s1 = .ok b s2)
    (ha : answersWrite sz s ea = true) :
    ∃ t, exec (p.1 src (.mem m r)) s = .next t ∧
      StoresResult sz r inc ea (p.2 a s.cc b).res (p.2 a s.cc b).cc s s1 t :=
  storesResult_of_modify hs (prepared_of_source hs h) (exec_combine_of_source hp h _) he hr ha

/-- At either size, the value moved is stored. -/
theorem move_stores {m : MemMode} {r : Reg} {s1 : State} {ea inc : Word} (hs : s.npr = [])
    (h : readSource sz src s.useScratch = .ok a s0) (he : eaOf m r sz s0 = .ok (ea, inc) s1)
    (hr : s.inst.params.movClrReadBeforeWrite = true → ∃ old s2, readMem sz .datip ea s1 = .ok old s2)
    (ho : sz = .word → isOdd ea = false) (ha : answersWrite sz s ea = true) :
    ∃ t, exec (move sz src (.mem m r)) s = .next t ∧ StoresResult sz r inc ea a
      { n := decide (a.toInt < 0), z := decide (a = 0), v := false, c := s.cc.c } s s1 t := by
  rw [← aluMov_cc]
  exact storesResult_of_store hs (prepared_of_source hs h) (exec_move_of_source h m r) he hr ho ha

end

/-- Settles O28: once the source is read the destination is modified in place. -/
theorem combineMemory : Obligations.CombineMemory := by
  intro src m r s s1 ea inc s2 s3 hs
  refine ⟨fun p hp a b h he hr ha => ?word, fun p hp a b h he hr ha => ?byte⟩
  case word => exact combine_stores (sz := .word) hs hp h he hr ha
  case byte => exact combine_stores (sz := .byte) hs hp h he hr ha

/-- Settles O30: once the source is read it is stored, the old value of the destination read first if the parameter has it
read (U9). -/
theorem moveMemory : Obligations.MoveMemory := by
  intro src m r s s1 ea inc s2 hs
  refine ⟨fun a h he hr ho ha => ?word, fun a h he hr ha => ?byte⟩
  case word => exact move_stores (sz := .word) hs h he hr (fun _ => ho) ha
  case byte => exact move_stores (sz := .byte) hs h he hr (fun h => by cases h) ha

end Sys2Proof.Machine
end

section
/-! Traps from the state that a failed access leaves (R264, R265, R275): the memory that the two pushes leave, and what the
trap keeps of the state at the start of the instruction. -/

namespace Sys2Proof.Machine

open Sys2Proof.Config Sys2Proof.Safety

/-! ### What the trap sequence leaves -/

/-- The state with the PSW and PC of a trap on the stack, in whose memory the vector is read. -/
def trapFrame (s : State) : State :=
  (s.setMemWord (s.reg .sp - 2) (zext s.psw)).setMemWord (s.reg .sp - 4) (s.reg .pc)

theorem trapSequence_frame {checked : Bool} {v : Word} {s : State} (h : TrapReady v s) :
    trapSequence checked v s = { s with
      regs := (s.regs.set .sp (s.reg .sp - 4)).set .pc ((trapFrame s).memWord v)
      psw := lowByte ((trapFrame s).memWord (v + 2)), mem := (trapFrame s).mem, runState := .run
      hidden := { s.hidden with r13 := v + 2, b := (trapFrame s).memWord (v + 2) }
      pending := { s.pending with stackOverflow := s.pending.stackOverflow ||
        (checked && (stackLow (s.reg .sp - 2) || stackLow (s.reg .sp - 4))) } } :=
  trapSequence_ready h

/-- The four bytes below the stack pointer, in the order of their addresses. -/
theorem stackBytes (x : Word) : x - 4 + 1 = x - 3 ∧ x - 2 + 1 = x - 1 ∧
    x - 2 ≠ x - 4 ∧ x - 2 ≠ x - 3 ∧ x - 1 ≠ x - 4 ∧ x - 1 ≠ x - 3 := by
  and_intros <;> bv_omega

theorem trapFrame_pc {s : State} (h : s.mem.wf = true) : (trapFrame s).memWord (s.reg .sp - 4) = s.reg .pc :=
  State.memWord_setMemWord_self _ _ _ (State.wf_setMemWord _ _ _ h)

/-- The push of PC does not touch the word that holds the PSW. -/
theorem trapFrame_psw {s : State} (h : s.mem.wf = true) : (trapFrame s).memWord (s.reg .sp - 2) = zext s.psw := by
  obtain ⟨h3, h1, h24, h23, h14, h13⟩ := stackBytes (s.reg .sp)
  rw [← State.memWord_setMemWord_self s (s.reg .sp - 2) (zext s.psw) h, State.memWord, State.memWord, trapFrame,
    State.memByte_setMemWord_of_ne _ _ h24 (by rwa [h3]), h1,
    State.memByte_setMemWord_of_ne _ _ h14 (by rwa [h3])]

theorem trapFrame_same (s : State) :
    SameMemoryBut [s.reg .sp - 4, s.reg .sp - 3, s.reg .sp - 2, s.reg .sp - 1] s (trapFrame s) := by
  intro x hx
  obtain ⟨h3, h1, -⟩ := stackBytes (s.reg .sp)
  simp only [List.mem_cons, List.not_mem_nil, or_false, not_or] at hx
  obtain ⟨hx4, hx3, hx2, hx1⟩ := hx
  rw [trapFrame, State.memByte_setMemWord_of_ne _ _ hx4 (by rwa [h3]),
    State.memByte_setMemWord_of_ne _ _ hx2 (by rwa [h1])]

/-- A trap with room on the stack and a vector in plain memory is taken. -/
theorem trapTaken_of_ready {v : Word} {s : State} (checked : Bool) (h : TrapReady v s) :
    TrapTaken v s (trapSequence checked v s) := by
  obtain ⟨-, hwf, -⟩ := id h
  rw [trapSequence_frame h]
  refine ⟨rfl, trapFrame_psw hwf, trapFrame_pc hwf, trapFrame_same s, rfl, rfl, fun q hsp hpc => ?_, rfl, rfl⟩
  exact (State.reg_setReg_of_ne (s.setReg .sp (s.reg .sp - 4)) _ hpc).trans (State.reg_setReg_of_ne s _ hsp)

/-! ### The trap of an instruction -/

/-- What an instruction can have changed before its write: besides what it changes to prepare its operation, the PSW. -/
def Operated (s t : State) : Prop := ∃ p w, Prepared s p ∧ t = p.setPsw w

theorem Prepared.operated {s p : State} (h : Prepared s p) : Operated s p := ⟨p, p.psw, h, rfl⟩

theorem Prepared.setCc_operated {s p : State} (h : Prepared s p) (f : Cc) : Operated s (p.setCc f) := ⟨p, _, h, rfl⟩

/-- An instruction that ends in the trap sequence has taken its trap. -/
theorem trapsFrom_of_trapSequence {v : Word} {s u : State} {i : Instr} (ho : Operated s u)
    (hx : exec i s = .next (trapSequence true v u)) (hr : TrapReady v u) : TrapsFrom v s u i := by
  refine ⟨_, hx, trapTaken_of_ready true hr, ?_⟩
  rw [trapSequence_frame hr, ← stackLow_eq, ← stackLow_eq]
  obtain ⟨p, w, ⟨g, o, n, a, b, c, d, e, rfl⟩, rfl⟩ := ho
  exact ⟨⟨rfl, rfl, rfl, rfl, rfl, rfl, rfl, rfl, rfl, rfl, rfl⟩, fun _ => rfl, rfl, rfl, rfl, rfl, rfl, rfl⟩

/-! ### Aborted reads, from the start of an instruction -/

theorem Prepared.busError {s t : State} (h : Prepared s t) : t.pending.busError = s.pending.busError := by
  obtain ⟨g, o, n, a, b, c, d, e, rfl⟩ := h; rfl
theorem Prepared.parityError {s t : State} (h : Prepared s t) : t.pending.parityError = s.pending.parityError := by
  obtain ⟨g, o, n, a, b, c, d, e, rfl⟩ := h; rfl

section
variable {sz : Size} {s s0 t : State} {c : Abort}

theorem Prepared.of_eaOf_abort {m : MemMode} {r : Reg} (hp : Prepared s s0) (hs : s.npr = [])
    (h : eaOf m r sz s0 = .abort c t) : Prepared s t :=
  hp.trans ((eaOf_addressed (hp.npr.trans hs) m r sz).2 _ _ h).prepared

theorem Prepared.of_readMem_abort {k : Transfer} {a : Word} (hp : Prepared s s0) (hs : s.npr = [])
    (h : readMem sz k a s0 = .abort c t) : Prepared s t :=
  hp.trans (Addressed.of_read (readMem_abort (hp.npr.trans hs) h)).prepared

theorem Prepared.of_readOperand_abort {o : Operand} (hp : Prepared s s0) (hs : s.npr = [])
    (h : readOperand sz o s0 = .abort c t) : Prepared s t :=
  hp.trans ((readOperand_addressed (hp.npr.trans hs) sz o).2 _ _ h).prepared

theorem Prepared.of_readSource_abort {o : Operand} (hp : Prepared s s0) (hs : s.npr = [])
    (h : readSource sz o s0 = .abort c t) : Prepared s t :=
  hp.trans ((readSource_addressed (hp.npr.trans hs) sz o).2 _ _ h).prepared

/-! ### What an aborted read makes of a destination operation -/

variable {m : MemMode} {r : Reg}

theorem modifyOperand_of_eaOf_abort (f : Cc → BitVec sz.bits → Alu sz.bits) (h : eaOf m r sz s = .abort c t) :
    modifyOperand sz (.mem m r) f s = .abort c t := by
  rw [modifyOperand, h, Res.andThen_abort]

theorem modifyOperand_of_read_abort {e : Word × Word} (f : Cc → BitVec sz.bits → Alu sz.bits)
    (he : eaOf m r sz s = .ok e s0) (h : readMem sz .datip e.1 s0 = .abort c t) :
    modifyOperand sz (.mem m r) f s = .abort c t := by
  rw [modifyOperand, he, Res.andThen_ok, h, Res.andThen_abort]

/-- MOV and CLR as R60 takes them. -/
theorem storeOperand_readFirst (f : Cc → Alu sz.bits) (h : s.inst.params.movClrReadBeforeWrite = true) :
    storeOperand sz (.mem m r) f s = modifyOperand sz (.mem m r) (fun c _ => f c) s := by
  simp only [storeOperand, h, if_true]

/-- MOV and CLR with a plain write (U9). -/
theorem storeOperand_unread (f : Cc → Alu sz.bits) (h : s.inst.params.movClrReadBeforeWrite = false) :
    storeOperand sz (.mem m r) f s = (eaOf m r sz s).andThen fun e s1 =>
      (writeMem sz e.1 (f s1.cc).res (s1.setCc (f s1.cc).cc)).andThen fun _ s2 => .ok () (s2.bump r e.2) := by
  simp only [storeOperand, h, Bool.false_eq_true, if_false]

theorem storeOperand_of_eaOf_abort (f : Cc → Alu sz.bits) (h : eaOf m r sz s = .abort c t) :
    storeOperand sz (.mem m r) f s = .abort c t := by
  cases hparam : s.inst.params.movClrReadBeforeWrite with
  | true => rw [storeOperand_readFirst f hparam, modifyOperand_of_eaOf_abort _ h]
  | false => rw [storeOperand_unread f hparam, h, Res.andThen_abort]

end

/-! ### The families, as the statement about aborts names them -/

section
variable {sz : Size}

theorem exec_of_mem_singleModify {mk : Operand → Instr} (h : mk ∈ singleModify sz) :
    ∃ f : Params → Cc → BitVec sz.bits → Alu sz.bits, ∀ dst s,
      exec (mk dst) s = finish s (modifyOperand sz dst (f s.inst.params) s.useScratch) := by
  rw [singleModify_eq] at h
  obtain ⟨p, hp, rfl⟩ := List.mem_map.1 h
  exact ⟨p.2, exec_modify hp⟩

theorem exec_of_mem_doubleModify {mk : Operand → Operand → Instr} (h : mk ∈ doubleModify sz) :
    ∃ f : BitVec sz.bits → Cc → BitVec sz.bits → Alu sz.bits, ∀ src dst s, exec (mk src dst) s =
      finish s ((readSource sz src s.useScratch).andThen fun a s1 => modifyOperand sz dst (f a) s1) := by
  rw [doubleModify_eq] at h
  obtain ⟨p, hp, rfl⟩ := List.mem_map.1 h
  exact ⟨p.2, exec_combine hp⟩

theorem exec_of_mem_doubleCompare {mk : Operand → Operand → Instr} (h : mk ∈ doubleCompare sz) :
    ∃ f, ∀ src dst s, exec (mk src dst) s = finish s (compareBody sz src dst f s.useScratch) := by
  rw [doubleCompare_eq] at h
  obtain ⟨p, hp, rfl⟩ := List.mem_map.1 h
  exact ⟨p.2, exec_compare hp⟩

end

/-- An instruction whose read raises takes the trap of the abort, its PSW as at the start. -/
theorem trapsFrom_of_read_abort {s t : State} {c : Abort} {i : Instr} (hp : Prepared s t)
    (hb : s.pending.busError = false) (hq : s.pending.parityError = false) (hr : TrapReady (abortVector c) t)
    (hx : exec i s = finish s (.abort c t)) : TrapsFrom (abortVector c) s t i ∧ t.psw = s.psw := by
  have htrap : takeAbort c t = trapSequence true (abortVector c) t :=
    takeAbort_eq (hp.busError.trans hb) (hp.parityError.trans hq)
  exact ⟨trapsFrom_of_trapSequence hp.operated (by rw [hx, ← htrap]; rfl) hr, hp.psw⟩

/-- Settles O31: whatever read raises, nothing but registers and the microprogram's temporaries has changed by then, and the
instruction comes to that abort. -/
theorem abortedReadTraps : Obligations.AbortedReadTraps := by
  intro sz s s1 c hs hb hq hready traps
  have hstart := Prepared.of_useScratch s
  have taken {i : Instr} (hp : Prepared s s1) (hx : exec i s = finish s (.abort c s1)) : traps i :=
    trapsFrom_of_read_abort hp hb hq hready hx
  refine ⟨fun o h => ?test, fun mk hmk m r h => ?address, fun m r ea inc s0 he h => ?readHalf,
    fun mk hmk src dst h => ?source, fun src a s00 hsrc => ⟨fun mk hmk dst h => ?second, fun mk hmk m r h => ?address2,
      fun m r ea inc s0 he h => ?readHalf2⟩, fun m r h => ?target⟩
  case test =>
    refine taken (hstart.of_readOperand_abort hs h) ?_
    rw [exec_test, testBody, h, Res.andThen_abort]
  case address =>
    refine taken (hstart.of_eaOf_abort hs h) ?_
    rcases List.mem_cons.1 hmk with rfl | hmk
    · rw [exec_clear, storeOperand_of_eaOf_abort _ h]
    · obtain ⟨f, hf⟩ := exec_of_mem_singleModify hmk
      rw [hf, modifyOperand_of_eaOf_abort _ h]
  case readHalf =>
    have hp := (hstart.of_eaOf hs he).of_readMem_abort hs h
    refine ⟨fun mk hmk => taken hp ?_, fun hparam => taken hp ?_⟩
    · obtain ⟨f, hf⟩ := exec_of_mem_singleModify hmk
      rw [hf, modifyOperand_of_read_abort _ he h]
    · rw [exec_clear, storeOperand_readFirst (s := s.useScratch) _ hparam, modifyOperand_of_read_abort _ he h]
  case source =>
    refine taken (hstart.of_readSource_abort hs h) ?_
    rcases List.mem_cons.1 hmk with rfl | hmk
    · exact exec_move_of_abort h dst
    · rcases List.mem_append.1 hmk with hmk | hmk
      · obtain ⟨f, hf⟩ := exec_of_mem_doubleModify hmk
        rw [hf, h, Res.andThen_abort]
      · obtain ⟨f, hf⟩ := exec_of_mem_doubleCompare hmk
        rw [hf, compareBody, h, Res.andThen_abort]
  case second =>
    refine taken ((prepared_of_source hs hsrc).of_readOperand_abort hs h) ?_
    obtain ⟨f, hf⟩ := exec_of_mem_doubleCompare hmk
    rw [hf, compareBody, hsrc, Res.andThen_ok, h, Res.andThen_abort]
  case address2 =>
    refine taken ((prepared_of_source hs hsrc).of_eaOf_abort hs h) ?_
    rcases List.mem_cons.1 hmk with rfl | hmk
    · rw [exec_move_of_source hsrc, storeOperand_of_eaOf_abort _ h]
    · obtain ⟨f, hf⟩ := exec_of_mem_doubleModify hmk
      rw [hf, hsrc, Res.andThen_ok, modifyOperand_of_eaOf_abort _ h]
  case readHalf2 =>
    have hsource := prepared_of_source hs hsrc
    have hp := (hsource.of_eaOf hs he).of_readMem_abort hs h
    refine ⟨fun mk hmk => taken hp ?_, fun hparam => taken hp ?_⟩
    · obtain ⟨f, hf⟩ := exec_of_mem_doubleModify hmk
      rw [hf, hsrc, Res.andThen_ok, modifyOperand_of_read_abort _ he h]
    · rw [← hsource.inst] at hparam
      rw [exec_move_of_source hsrc, storeOperand_readFirst _ hparam, modifyOperand_of_read_abort _ he h]
  case target =>
    have hp := hstart.of_eaOf_abort hs h
    have haddr : addressOperand m r s.useScratch = .abort c s1 := by rw [addressOperand, h, Res.andThen_abort]
    refine ⟨taken hp ?_, fun link => taken hp ?_⟩
    · rw [exec_jmp, jumpBody, haddr, Res.andThen_abort]
    · rw [exec_jsr, callBody, haddr, Res.andThen_abort]

end Sys2Proof.Machine
end

section
/-! Writes that are not answered (R140, R180, R218, R264, R267, D4): the operation's condition codes are loaded by then,
and the trap saves them. -/

namespace Sys2Proof.Machine

open Sys2Proof.Config Sys2Proof.Safety

/-! ### The state in which the write is refused -/

section
variable {sz : Size} {m : MemMode} {r : Reg} {s s1 s2 : State} {ea inc : Word}

/-- The write half: the register has moved, and the condition codes are loaded (D4; log 27). -/
theorem modifyOperand_write_abort {f : Cc → BitVec sz.bits → Alu sz.bits} {old : BitVec sz.bits} (hs : s.npr = [])
    (he : eaOf m r sz s = .ok (ea, inc) s1) (hr : readMem sz .datip ea s1 = .ok old s2)
    (ha : answersWrite sz s ea = false) : ∃ n, modifyOperand sz (.mem m r) f s =
      .abort .busError { (s1.bump r inc).setCc (f s.cc old).cc with free := n } := by
  have h1 := (eaOf_addressed hs m r sz).1 _ _ he
  have h2 := readMem_state (h1.npr.trans hs) hr
  have h12 := Addressed.of_read h2
  have hput := putMem_unanswered (s := (s2.bump r inc).setCc (f s.cc old).cc) (f s.cc old).res
    (.inr ((answersWrite_congr (h12.inst.trans h1.inst) ea).trans ha))
  have hres : modifyOperand sz (.mem m r) f s = .abort .busError ((s2.bump r inc).setCc (f s.cc old).cc) := by
    simp only [modifyOperand, he, hr, Res.andThen_ok, h12.cc, h1.cc, hput]
  obtain rfl | rfl := h2
  · exact ⟨_, hres⟩
  · exact ⟨_, hres⟩

/-- The plain write of MOV and CLR (U9): the condition codes are loaded, and the register has not moved (log 28). -/
theorem storeOperand_write_abort {f : Cc → Alu sz.bits} (hs : s.npr = []) (he : eaOf m r sz s = .ok (ea, inc) s1)
    (hparam : s.inst.params.movClrReadBeforeWrite = false)
    (ha : (sz = .word ∧ isOdd ea = true) ∨ answersWrite sz s ea = false) :
    storeOperand sz (.mem m r) f s = .abort .busError (s1.setCc (f s.cc).cc) := by
  have h1 := (eaOf_addressed hs m r sz).1 _ _ he
  have hn : (s1.setCc (f s.cc).cc).npr = [] := h1.npr.trans hs
  rw [← answersWrite_congr (show (s1.setCc (f s.cc).cc).inst = s.inst from h1.inst)] at ha
  rw [storeOperand_unread f hparam, he, Res.andThen_ok, h1.cc, writeMem_alone hn, putMem_unanswered _ ha,
    Res.andThen_abort]

end

/-! ### The trap -/

/-- A write that is refused is a bus error, whose trap is taken from the state that the operation left; what free values
the read took does not show. -/
theorem trapsFrom_of_write_abort {s u : State} {i : Instr} (n : Nat) (ho : Operated s u)
    (hb : s.pending.busError = false) (hx : exec i s = finish s (.abort .busError { u with free := n }))
    (hr : TrapReady 0o4 u) : TrapsFrom 0o4 s u i := by
  have hbu : u.pending.busError = false := by
    obtain ⟨p, w, ⟨g, o, n, a, b, c, d, e, rfl⟩, rfl⟩ := ho
    exact hb
  have hon : Operated s { u with free := n } := by
    obtain ⟨p, w, hp, rfl⟩ := ho
    exact ⟨{ p with free := n }, w, hp.trans ⟨_, _, n, _, _, _, _, _, rfl⟩, rfl⟩
  have htrap : takeAbort .busError { u with free := n } = trapSequence true 0o4 { u with free := n } :=
    takeAbort_busError hbu
  exact trapsFrom_of_trapSequence (u := { u with free := n }) hon (by rw [hx, ← htrap]; rfl) hr

/-- The bus error trap is taken from `after`, if it can be completed (R275). -/
def BusErrorTraps (s after : State) (i : Instr) : Prop := TrapReady 0o4 after → TrapsFrom 0o4 s after i

section
variable {sz : Size} {i : Instr} {m : MemMode} {r : Reg} {s p s1 s2 : State} {ea inc : Word} {old : BitVec sz.bits}

/-- An instruction that comes to modifying a memory operand that can be read and not written. -/
theorem busErrorTraps_of_modify {f : Cc → BitVec sz.bits → Alu sz.bits} (hs : s.npr = [])
    (hb : s.pending.busError = false) (hp : Prepared s p) (hx : exec i s = finish s (modifyOperand sz (.mem m r) f p))
    (he : eaOf m r sz p = .ok (ea, inc) s1) (ha : answersWrite sz s ea = false)
    (hr : readMem sz .datip ea s1 = .ok old s2) :
    BusErrorTraps s ((s1.bump r inc).setCc (f s.cc old).cc) i := by
  intro ht
  obtain ⟨n, hn⟩ := modifyOperand_write_abort (f := f) (hp.npr.trans hs) he hr ((answersWrite_congr hp.inst ea).trans ha)
  rw [hp.cc] at hn
  have hmoved : Prepared s (s1.bump r inc) := (hp.of_eaOf hs he).trans (Addressed.of_bump _ _ _).prepared
  exact trapsFrom_of_write_abort n (hmoved.setCc_operated _) hb (by rw [hx, hn]) ht

/-- One that comes to storing into a memory operand that is read first. -/
theorem busErrorTraps_of_store_readFirst {f : Cc → Alu sz.bits} (hs : s.npr = []) (hb : s.pending.busError = false)
    (hp : Prepared s p) (hx : exec i s = finish s (storeOperand sz (.mem m r) f p))
    (he : eaOf m r sz p = .ok (ea, inc) s1) (ha : answersWrite sz s ea = false)
    (hr : readMem sz .datip ea s1 = .ok old s2) (hparam : s.inst.params.movClrReadBeforeWrite = true) :
    BusErrorTraps s ((s1.bump r inc).setCc (f s.cc).cc) i := by
  rw [storeOperand_readFirst f (by rwa [hp.inst])] at hx
  exact busErrorTraps_of_modify (f := fun c _ => f c) hs hb hp hx he ha hr

/-- One that comes to storing into a memory operand unread. -/
theorem busErrorTraps_of_store_unread {f : Cc → Alu sz.bits} (hs : s.npr = []) (hb : s.pending.busError = false)
    (hp : Prepared s p) (hx : exec i s = finish s (storeOperand sz (.mem m r) f p))
    (he : eaOf m r sz p = .ok (ea, inc) s1) (hparam : s.inst.params.movClrReadBeforeWrite = false)
    (ha : (sz = .word ∧ isOdd ea = true) ∨ answersWrite sz s ea = false) :
    BusErrorTraps s (s1.setCc (f s.cc).cc) i := by
  intro ht
  rw [← answersWrite_congr hp.inst] at ha
  have hres := storeOperand_write_abort (f := f) (hp.npr.trans hs) he (by rwa [hp.inst]) ha
  rw [hp.cc] at hres
  exact trapsFrom_of_write_abort s1.free ((hp.of_eaOf hs he).setCc_operated _) hb (by rw [hx, hres]; rfl) ht

/-- The single-operand instructions, at either size. -/
theorem single_writeHalf_traps (hs : s.npr = []) (hb : s.pending.busError = false)
    (he : eaOf m r sz s.useScratch = .ok (ea, inc) s1) (ha : answersWrite sz s ea = false)
    (hr : readMem sz .datip ea s1 = .ok old s2) :
    let moved (cc : Cc) : State := (s1.bump r inc).setCc cc
    (∀ p ∈ modifyFamily sz, BusErrorTraps s (moved (p.2 s.inst.params s.cc old).cc) (p.1 (.mem m r))) ∧
    (s.inst.params.movClrReadBeforeWrite = true →
      BusErrorTraps s (moved (aluClr s.cc : Alu sz.bits).cc) (clear sz (.mem m r))) := by
  have hp := Prepared.of_useScratch s
  exact ⟨fun p hmem => busErrorTraps_of_modify hs hb hp (exec_modify hmem _ s) he ha hr,
    fun hparam => busErrorTraps_of_store_readFirst hs hb hp (exec_clear sz _ s) he ha hr hparam⟩

theorem clear_unread_traps (hs : s.npr = []) (hb : s.pending.busError = false)
    (he : eaOf m r sz s.useScratch = .ok (ea, inc) s1) (hparam : s.inst.params.movClrReadBeforeWrite = false)
    (ha : (sz = .word ∧ isOdd ea = true) ∨ answersWrite sz s ea = false) :
    BusErrorTraps s (s1.setCc (aluClr s.cc : Alu sz.bits).cc) (clear sz (.mem m r)) :=
  busErrorTraps_of_store_unread hs hb (Prepared.of_useScratch s) (exec_clear sz _ s) he hparam ha

variable {src : Operand} {a : BitVec sz.bits} {s0 : State}

/-- The double-operand instructions, at either size, once the source is read. -/
theorem double_writeHalf_traps (hs : s.npr = []) (hb : s.pending.busError = false)
    (hsrc : readSource sz src s.useScratch = .ok a s0) (he : eaOf m r sz s0 = .ok (ea, inc) s1)
    (ha : answersWrite sz s ea = false) (hr : readMem sz .datip ea s1 = .ok old s2) :
    let moved (cc : Cc) : State := (s1.bump r inc).setCc cc
    (∀ p ∈ combineFamily sz, BusErrorTraps s (moved (p.2 a s.cc old).cc) (p.1 src (.mem m r))) ∧
    (s.inst.params.movClrReadBeforeWrite = true →
      BusErrorTraps s (moved (aluMov a s.cc).cc) (move sz src (.mem m r))) := by
  have hp := prepared_of_source hs hsrc
  exact ⟨fun p hmem => busErrorTraps_of_modify hs hb hp (exec_combine_of_source hmem hsrc _) he ha hr,
    fun hparam => busErrorTraps_of_store_readFirst hs hb hp (exec_move_of_source hsrc m r) he ha hr hparam⟩

theorem move_unread_traps (hs : s.npr = []) (hb : s.pending.busError = false)
    (hsrc : readSource sz src s.useScratch = .ok a s0) (he : eaOf m r sz s0 = .ok (ea, inc) s1)
    (hparam : s.inst.params.movClrReadBeforeWrite = false)
    (ha : (sz = .word ∧ isOdd ea = true) ∨ answersWrite sz s ea = false) :
    BusErrorTraps s (s1.setCc (aluMov a s.cc).cc) (move sz src (.mem m r)) :=
  busErrorTraps_of_store_unread hs hb (prepared_of_source hs hsrc) (exec_move_of_source hsrc m r) he hparam ha

end

/-! ### The push of JSR -/

theorem Prepared.of_pushDown {s p : State} (hp : Prepared s p) (checked : Bool) : Prepared s (p.pushDown checked) := by
  rw [State.pushDown_eq]
  exact hp.trans ⟨_, _, _, _, _, _, _, _, rfl⟩

/-- Two decrements of the stack pointer. -/
theorem sub_two_two (x : Word) : x - 2 - 2 = x - 4 := by bv_omega

theorem State.sp_pushDown (s : State) (checked : Bool) : (s.pushDown checked).reg .sp = s.reg .sp - 2 := by
  rw [State.pushDown_eq]
  rfl

theorem State.reg_pushDown_of_ne (s : State) (checked : Bool) {q : Reg} (h : q ≠ .sp) :
    (s.pushDown checked).reg q = s.reg q := by
  rw [State.pushDown_eq]
  exact State.reg_setReg_of_ne s _ h

/-- A word cannot be pushed at an address that is odd or not answered. -/
def PushRefused (s : State) (a : Word) : Prop := isOdd a = true ∨ answersWrite .word s a = false

theorem PushRefused.congr {s t : State} {a : Word} (h : PushRefused s a) (hi : t.inst = s.inst) : PushRefused t a :=
  h.imp_right (answersWrite_congr hi a).trans

theorem writeWord_refused {s : State} {a : Word} (v : Word) (hs : s.npr = []) (h : PushRefused s a) :
    writeWord a v s = .abort .busError s := by
  rw [writeWord_alone hs]
  exact putMem_unanswered (sz := .word) v (h.imp_left fun ho => ⟨rfl, ho⟩)

/-- A push that is refused leaves R6 decremented and no register loaded (R218). -/
theorem callBody_push_abort {link : Reg} {m : MemMode} {r : Reg} {s s1 : State} {ea inc : Word} (hs : s.npr = [])
    (he : eaOf m r .word s = .ok (ea, inc) s1) (h : PushRefused s ((s1.bump r inc).reg .sp - 2)) :
    callBody link m r s = .abort .busError ((s1.bump r inc).pushDown true) := by
  have hp : Prepared s ((s1.bump r inc).pushDown true) :=
    (((eaOf_addressed hs m r .word).1 _ _ he).trans (Addressed.of_bump _ _ _)).prepared.of_pushDown true
  rw [← State.sp_pushDown _ true] at h
  rw [callBody, addressOperand, he, Res.andThen_ok, Res.andThen_ok]
  simp only [writeWord_refused _ (hp.npr.trans hs) (h.congr hp.inst), Res.andThen_abort]

/-- A trap whose first push is refused halts (R267). -/
theorem trapSequence_refused {checked : Bool} {v : Word} {s : State} (hs : s.npr = [])
    (h : PushRefused s (s.reg .sp - 2)) : trapSequence checked v s = doubleBusError (trapStart checked v s) := by
  have hn : (trapStart checked v s).npr = [] := by rw [trapStart_eq]; exact hs
  have hi : (trapStart checked v s).inst = s.inst := by rw [trapStart_eq]
  rw [trapSequence_of_alone checked v hs, writeWord_refused _ hn (h.congr hi)]

/-- An instruction that is aborted and whose trap cannot push either halts: R6 is decremented once more, the vector is in
R13, and nothing is written. -/
theorem halts_of_refused {s u : State} {i : Instr} (hp : Prepared s u) (hs : s.npr = []) (hb : s.pending.busError = false)
    (hx : exec i s = finish s (.abort .busError u)) (h : PushRefused s (u.reg .sp - 2)) :
    ∃ t, exec i s = .next t ∧ t.runState = .halted ∧ t.ir = 0 ∧ t.reg .sp = u.reg .sp - 2 ∧
      (∀ q, q ≠ .sp → t.reg q = u.reg q) ∧ t.psw = s.psw ∧ SameMemory s t ∧ t.hidden.r13 = 0o4 := by
  have htrap : takeAbort .busError u = doubleBusError (trapStart true 0o4 u) := by
    rw [takeAbort_busError (hp.busError.trans hb), trapSequence_refused (hp.npr.trans hs) (h.congr hp.inst)]
  refine ⟨_, by rw [hx, finish, htrap], ?_⟩
  rw [trapStart_eq]
  exact ⟨rfl, rfl, rfl, fun q hq => State.reg_setReg_of_ne u _ hq, hp.psw,
    fun x => congrArg (Memory.read · x.toNat) hp.mem, rfl⟩

/-- Settles O32: the operation is done when the write is refused, so its condition codes are those that the trap saves; and
JSR has moved R6 when its push is. -/
theorem abortedWriteHalfTraps : Obligations.AbortedWriteHalfTraps := by
  intro m r s ea inc s1 hs hb moved traps
  have odd {p q : Prop} : p ∨ q → (Size.word = .word ∧ p) ∨ q := Or.imp_left fun ho => ⟨rfl, ho⟩
  refine ⟨fun he => ⟨fun ha old s2 hr => ?single, fun hparam ha => ?clear⟩,
    fun he ha => ⟨fun old s2 hr => ?singleByte, fun hparam => ?clearByte⟩,
    fun src a s0 hsrc he => ⟨fun ha old s2 hr => ?double, fun hparam ha => ?move⟩,
    fun src a s0 hsrc he ha => ⟨fun old s2 hr => ?doubleByte, fun hparam => ?moveByte⟩, fun link he => ?call⟩
  case single => exact single_writeHalf_traps (sz := .word) hs hb he ha hr
  case singleByte => exact single_writeHalf_traps (sz := .byte) hs hb he ha hr
  case clear => exact clear_unread_traps (sz := .word) hs hb he hparam (odd ha)
  case clearByte => exact clear_unread_traps (sz := .byte) hs hb he hparam (.inr ha)
  case double => exact double_writeHalf_traps (sz := .word) hs hb hsrc he ha hr
  case doubleByte => exact double_writeHalf_traps (sz := .byte) hs hb hsrc he ha hr
  case move => exact move_unread_traps (sz := .word) hs hb hsrc he hparam (odd ha)
  case moveByte => exact move_unread_traps (sz := .byte) hs hb hsrc he hparam (.inr ha)
  case call =>
    intro s2 pushed hrefused
    have hp : Prepared s pushed :=
      (((Prepared.of_useScratch s).of_eaOf hs he).trans (Addressed.of_bump s1 r inc).prepared).of_pushDown true
    have hx : exec (.jsr link m r) s = finish s (.abort .busError pushed) :=
      (exec_jsr link m r s).trans (congrArg (finish s) (callBody_push_abort (s := s.useScratch) hs he hrefused))
    have hsp : pushed.reg .sp - 2 = s2.reg .sp - 4 := by rw [State.sp_pushDown, sub_two_two]
    refine ⟨trapsFrom_of_write_abort pushed.free hp.operated hb hx, fun hagain => ?_⟩
    obtain ⟨t, ht, hrun, hir, hsp', hregs, hrest⟩ := halts_of_refused hp hs hb hx (by rw [hsp]; exact hagain)
    exact ⟨t, ht, hrun, hir, hsp'.trans hsp, fun q hq => (hregs q hq).trans (State.reg_pushDown_of_ne s2 true hq), hrest⟩

end Sys2Proof.Machine
end

section
/-! The fetch that fails (R62, R124, R265, R268). -/

namespace Sys2Proof.Machine

open Sys2Proof.Config Sys2Proof.Safety

/-- The state that a failed fetch leaves: IR and B hold what was read, or any value, and PC has not moved. -/
def fetchFailed (w b : Word) (n : Nat) (s : State) : State :=
  { s with ir := w, hidden := { s.hidden with b := b }, free := n }

/-- The next instruction's fetch is made past the service point. -/
def atFetch (s : State) : State := s.enterService.leaveService

theorem fetch_of_busError {s : State} (h : readWord .dati (s.reg .pc) s = .abort .busError s) :
    ∃ w b n, fetch s = .abort .busError (fetchFailed w b n s) := by
  unfold fetch
  rw [h]
  exact ⟨_, _, _, rfl⟩

/-- After bad parity IR holds the word that was answered. -/
theorem fetch_of_parityError {s : State} {w : Word} {n : Nat}
    (h : readWord .dati (s.reg .pc) s = .abort (.parityError w) { s with free := n }) :
    ∃ b, fetch s = .abort (.parityError w) (fetchFailed w b n s) := by
  unfold fetch
  rw [h]
  exact ⟨_, rfl⟩

/-- A trap taken from there is taken from the state before the fetch: it pushes the PC that failed. -/
theorem trapTaken_fetchFailed {v w b : Word} {n : Nat} {s t : State}
    (h : TrapTaken v (fetchFailed w b n (atFetch s)) t) : TrapTaken v s t := h

/-- With nothing to service, a fetch that fails takes its trap. -/
theorem step_of_failedFetch {s₀ s : State} {c : Abort} {w b : Word} {n : Nat} (hturn : TurnOf s₀ s)
    (hrun : s.runState = .run) (hquiet : Quiet s) (hready : TrapReady (abortVector c) s)
    (hfetch : fetch (atFetch s) = .abort c (fetchFailed w b n (atFetch s))) :
    ∃ t, step s₀ = .next t ∧ TrapTaken (abortVector c) s t ∧ TrapKeeps s t ∧ t.requests = s.enterService.requests ∧
      t.ir = w := by
  obtain ⟨hpending, -⟩ := id hquiet
  have hflags : (fetchFailed w b n (atFetch s)).pending.busError = false ∧
      (fetchFailed w b n (atFetch s)).pending.parityError = false := by
    rw [show (fetchFailed w b n (atFetch s)).pending = _ from hpending]
    exact ⟨rfl, rfl⟩
  have hstep : step s₀ = .next (trapSequence true (abortVector c) (fetchFailed w b n (atFetch s))) := by
    rw [step_of_turn hturn, processorTurn, hrun, service_of_quiet hquiet, ← takeAbort_eq hflags.1 hflags.2]
    show runInstruction (atFetch s) = _
    rw [runInstruction, hfetch]
  have hready' : TrapReady (abortVector c) (fetchFailed w b n (atFetch s)) := hready
  refine ⟨_, hstep, trapTaken_fetchFailed (trapTaken_of_ready true hready'), ?_⟩
  rw [trapSequence_frame hready']
  exact ⟨⟨rfl, rfl, rfl, rfl, rfl, rfl, rfl, rfl, rfl, rfl, rfl⟩, rfl, rfl⟩

/-- Settles O7: an odd PC and one that nothing answers at raise a bus error, bad parity a parity error with the word. -/
theorem failedFetchTraps : Obligations.FailedFetchTraps := by
  intro s₀ s hturn hrun hquiet
  refine ⟨fun hfail hready => ?busError, fun ho hi hsome hbad hready => ?parity⟩
  all_goals
    obtain ⟨hs, -⟩ := id hready
    obtain ⟨hodd, -, -, heven⟩ := wordReads (atFetch s) .dati (s.reg .pc) hs
  case busError =>
    have hread : readWord .dati (s.reg .pc) (atFetch s) = .abort .busError (atFetch s) := by
      cases ho : isOdd (s.reg .pc) with
      | true => exact hodd ho
      | false =>
        obtain h | ⟨hi, hn⟩ := hfail
        · exact absurd (ho.symm.trans h) Bool.false_ne_true
        · rw [evenAddr_of_even ho] at hn
          exact (heven ho hi).1 hn
    obtain ⟨w, b, n, hfetch⟩ := fetch_of_busError (s := atFetch s) hread
    obtain ⟨t, hstep, htaken, hkeeps, hrequests, -⟩ :=
      step_of_failedFetch (c := .busError) hturn hrun hquiet hready hfetch
    exact ⟨t, hstep, htaken, hkeeps, hrequests⟩
  case parity =>
    obtain ⟨-, hmemory, hdevice, -⟩ := heven ho hi
    obtain ⟨kind, hkind⟩ := Option.isSome_iff_exists.1 hsome
    have hread : ∃ w n, readWord .dati (s.reg .pc) (atFetch s) = .abort (.parityError w) { atFetch s with free := n } ∧
        (kind = .memory → w = s.memWord (s.reg .pc)) := by
      cases kind with
      | memory => exact ⟨_, _, hmemory hkind hbad, fun _ => rfl⟩
      | device =>
        obtain ⟨w, hw⟩ := hdevice hkind hbad
        exact ⟨w, _, hw, fun h => by cases h⟩
    obtain ⟨w, n, hread, hword⟩ := hread
    obtain ⟨b, hfetch⟩ := fetch_of_parityError (s := atFetch s) hread
    obtain ⟨t, hstep, htaken, hkeeps, hrequests, hir⟩ :=
      step_of_failedFetch (c := .parityError w) hturn hrun hquiet hready hfetch
    refine ⟨t, hstep, htaken, hkeeps, hrequests, fun hm => ?_⟩
    rw [hir, hword (Option.some.inj (hkind.symm.trans hm))]

end Sys2Proof.Machine
end

section
/-! A modifying instruction and the other masters (R59, R72, R73): what they write before its read half it sees, and the
write half follows with none of theirs between. -/

namespace Sys2Proof.Machine

open Sys2Proof.Config Sys2Proof.Safety

/-! ### What the masters' writes leave alone -/

theorem State.npr_setSpm (s : State) (a v : Word) : (s.setSpm a v).npr = s.npr := by
  rw [(s.setSpm_frame a v).1]

theorem npr_writePswByAddress (d : Byte) (s : State) : (writePswByAddress d s).npr = s.npr := by
  rw [(writePswByAddress_frame d s).2]

theorem npr_masterWrite (w : MasterWrite) (s : State) : (masterWrite w s).npr = s.npr := by
  cases w with
  | word a v =>
    simp only [masterWrite, apply_ite State.npr, State.npr_setSpm, npr_writePswByAddress, State.npr_setPsw,
      State.npr_setMemWord, ite_self]
  | byte a v =>
    simp only [masterWrite, apply_ite State.npr, npr_writePswByAddress, State.npr_setPsw, State.npr_setMemByte, ite_self]

theorem npr_masterWrites (l : List MasterWrite) (s : State) : (masterWrites l s).npr = s.npr := by
  induction l generalizing s with
  | nil => rfl
  | cons w l ih => exact (ih (masterWrite w s)).trans (npr_masterWrite w s)

theorem inst_busWindow (s : State) : s.busWindow.inst = s.inst := (closed_hasInstallation s.inst).busWindow s rfl

theorem wf_busWindow {s : State} (h : s.mem.wf = true) : s.busWindow.mem.wf = true := closedData_wf.busWindow s h

section
variable {l : List MasterWrite} {rest : List (List MasterWrite)} {s : State}

theorem busWindow_cons (h : s.npr = l :: rest) : s.busWindow = masterWrites l { s with npr := rest } := by
  unfold State.busWindow
  rw [h]

/-- The masters have had their turn before this transfer; what they write before the next ones waits. -/
theorem npr_busWindow (h : s.npr = l :: rest) : s.busWindow.npr = rest := by
  rw [busWindow_cons h, npr_masterWrites]

end

/-! ### Access to plain memory -/

/-- The operand of a size that stands in memory. -/
def memValue (sz : Size) (a : Word) (s : State) : BitVec sz.bits :=
  match sz with
  | .byte => s.memByte a
  | .word => s.memWord a

/-- The memory with an operand of a size replaced. -/
def storeValue (sz : Size) (a : Word) (v : BitVec sz.bits) (s : State) : State :=
  match sz, v with
  | .byte, v => s.setMemByte a v
  | .word, v => s.setMemWord a v

/-- An operand of a size can be read and written at an address: plain memory, at an even address if it is a word. -/
def plainFor : Size → State → Word → Bool
  | .byte => plainMemory
  | .word => plainWord

theorem plainMemory_congr {s t : State} (h : t.inst = s.inst) (a : Word) : plainMemory t a = plainMemory s a := by
  simp [plainMemory, h]

section
variable {sz : Size} {a : Word} {s : State}

theorem plainFor_spec (h : plainFor sz s a = true) : (sz = .word → isOdd a = false) ∧ plainMemory s a = true := by
  cases sz with
  | byte => exact ⟨fun h => (by cases h), h⟩
  | word =>
    rw [plainFor, plainWord, Bool.and_eq_true, Bool.not_eq_true'] at h
    obtain ⟨ho, hm⟩ := h
    exact ⟨fun _ => ho, hm⟩

/-- What plain memory answers. -/
theorem plainMemory_spec (h : plainMemory s a = true) : internalAddress a.toNat = false ∧
    badParity s.inst (evenAddr a) = false ∧ answer s.inst .datip (evenAddr a) = some .memory ∧
    answer s.inst .dato (evenAddr a) = some .memory ∧ answer s.inst .datob (evenAddr a) = some .memory := by
  simp only [plainMemory, Bool.and_eq_true, Bool.not_eq_true', decide_eq_true_eq] at h
  obtain ⟨⟨⟨⟨⟨-, hip⟩, ho⟩, hob⟩, hbad⟩, hi⟩ := h
  exact ⟨hi, hbad, hip, ho, hob⟩

/-- The read half gives what stands in memory once the masters have written. -/
theorem readMem_datip_plain (h : plainFor sz s a = true) :
    readMem sz .datip a s = .ok (memValue sz a s.busWindow) s.busWindow := by
  obtain ⟨heven, hplain⟩ := plainFor_spec h
  rw [← plainMemory_congr (inst_busWindow s)] at hplain
  obtain ⟨hi, hbad, hip, -, -⟩ := plainMemory_spec hplain
  have hslave : transferIn .datip a s.busWindow = .ok (s.busWindow.memWord (evenAddr a)) s.busWindow := by
    rw [transferIn_answered hi hip, hbad]
    rfl
  cases sz with
  | byte =>
    show readByte .datip a s = _
    rw [readByte, hslave]
    exact congrArg (Res.ok · s.busWindow) (byteAt_memWord a s.busWindow)
  | word =>
    rw [evenAddr_of_even (heven rfl)] at hslave
    simp [readMem, readWord, heven rfl, hslave, memValue]

theorem putMem_plain (v : BitVec sz.bits) (h : plainFor sz s a = true) :
    putMem sz a v s = .ok () (storeValue sz a v s) := by
  obtain ⟨heven, hplain⟩ := plainFor_spec h
  obtain ⟨hi, -, -, hdato, hdatob⟩ := plainMemory_spec hplain
  have hp := not_psw_of_not_internal hi
  have hr := not_register_of_not_internal hi
  cases sz with
  | byte =>
    have hne : a ≠ pswAddress := fun he => hp (by rw [he]; rfl)
    simp [putMem, putByte, hne, hp, hr, hdatob, storeValue]
  | word =>
    rw [evenAddr_of_even (heven rfl)] at hp hdato
    simp [putMem, putWord, heven rfl, hp, hr, hdato, storeValue]

end

theorem plainFor_congr {sz : Size} {s t : State} (h : t.inst = s.inst) (a : Word) :
    plainFor sz t a = plainFor sz s a := by
  cases sz
  · exact plainMemory_congr h a
  · exact plainWord_congr h a

theorem storeValue_eq (sz : Size) (a : Word) (v : BitVec sz.bits) (s : State) :
    ∃ m, storeValue sz a v s = { s with mem := m } := by
  cases sz <;> exact ⟨_, rfl⟩

/-! ### The indivisible access -/

section
variable {sz : Size} {i : Instr} {m : MemMode} {r : Reg} {s p s1 : State} {ea inc : Word}

/-- The two halves of a modifying access to plain memory, the masters' writes before them. -/
theorem modifyOperand_plain (f : Cc → BitVec sz.bits → Alu sz.bits) (he : eaOf m r sz s = .ok (ea, inc) s1)
    (hplain : plainFor sz s1 ea = true) :
    let u := s1.busWindow
    let out := f u.cc (memValue sz ea u)
    modifyOperand sz (.mem m r) f s = .ok () (storeValue sz ea out.res ((u.bump r inc).setCc out.cc)) := by
  intro u out
  have hinst : ((u.bump r inc).setCc out.cc).inst = s1.inst := inst_busWindow s1
  have hput := putMem_plain out.res ((plainFor_congr hinst ea).trans hplain)
  simp only [modifyOperand, he, Res.andThen_ok, readMem_datip_plain hplain]
  exact hput

/-- An instruction that comes to modifying plain memory has modified it alone. -/
theorem modifiedAlone_of_modify {l : List MasterWrite} {rest : List (List MasterWrite)}
    {f : Cc → BitVec sz.bits → Alu sz.bits} (hn : s1.npr = l :: rest) (hwf : s1.mem.wf = true)
    (hx : exec i s = finish s (modifyOperand sz (.mem m r) f p)) (he : eaOf m r sz p = .ok (ea, inc) s1)
    (hplain : plainFor sz s1 ea = true) :
    ModifiedAlone sz r inc ea (f s1.busWindow.cc (memValue sz ea s1.busWindow)) rest s s1.busWindow i := by
  have hwfu := wf_busWindow hwf
  have hnu := npr_busWindow hn
  rw [modifyOperand_plain f he hplain] at hx
  generalize s1.busWindow = u at hx hwfu hnu ⊢
  generalize f u.cc (memValue sz ea u) = out at hx ⊢
  refine ⟨_, hx, ?waiting, ?flags, fun q => ?registers, ?memory⟩
  case memory =>
    cases sz with
    | byte => exact ⟨State.memByte_setMemByte_self _ ea out.res hwfu, sameMemoryBut_setMemByte u ea out.res⟩
    | word => exact ⟨State.memWord_setMemWord_self _ ea out.res hwfu, sameMemoryBut_setMemWord u ea out.res⟩
  all_goals
    obtain ⟨m, hm⟩ := storeValue_eq sz ea out.res ((u.bump r inc).setCc out.cc)
    rw [hm]
  case waiting => exact hnu
  case flags => exact State.cc_setCc (u.bump r inc) out.cc
  case registers => exact State.reg_bump u r q inc

/-- One that comes to storing into plain memory that is read first has too. -/
theorem modifiedAlone_of_store {l : List MasterWrite} {rest : List (List MasterWrite)} {f : Cc → Alu sz.bits}
    (hn : s1.npr = l :: rest) (hwf : s1.mem.wf = true)
    (hx : exec i s = finish s (storeOperand sz (.mem m r) f p)) (hinst : p.inst = s.inst)
    (hparam : s.inst.params.movClrReadBeforeWrite = true) (he : eaOf m r sz p = .ok (ea, inc) s1)
    (hplain : plainFor sz s1 ea = true) :
    ModifiedAlone sz r inc ea (f s1.busWindow.cc) rest s s1.busWindow i := by
  rw [storeOperand_readFirst f (by rwa [hinst])] at hx
  exact modifiedAlone_of_modify (f := fun c _ => f c) hn hwf hx he hplain

/-- The single-operand instructions, at either size. -/
theorem single_modifiedAlone {l : List MasterWrite} {rest : List (List MasterWrite)} (hn : s1.npr = l :: rest)
    (hwf : s1.mem.wf = true) (he : eaOf m r sz s.useScratch = .ok (ea, inc) s1) (hplain : plainFor sz s1 ea = true) :
    let u := s1.busWindow
    (∀ p ∈ modifyFamily sz,
      ModifiedAlone sz r inc ea (p.2 s.inst.params u.cc (memValue sz ea u)) rest s u (p.1 (.mem m r))) ∧
    (s.inst.params.movClrReadBeforeWrite = true →
      ModifiedAlone sz r inc ea (aluClr u.cc) rest s u (clear sz (.mem m r))) :=
  ⟨fun _ hp => modifiedAlone_of_modify hn hwf (exec_modify hp _ s) he hplain,
    fun hparam => modifiedAlone_of_store hn hwf (exec_clear sz _ s) rfl hparam he hplain⟩

theorem inst_readSource {o : Operand} {t : State} {a : BitVec sz.bits} (h : readSource sz o s = .ok a t) :
    t.inst = s.inst := by
  have hkeeps := (closed_hasInstallation s.inst).readSource sz o s rfl
  rw [h] at hkeeps
  exact hkeeps

/-- The double-operand instructions, at either size, once the source is read. -/
theorem double_modifiedAlone {l : List MasterWrite} {rest : List (List MasterWrite)} {src : Operand}
    {a : BitVec sz.bits} {s0 : State} (hn : s1.npr = l :: rest) (hwf : s1.mem.wf = true)
    (hsrc : readSource sz src s.useScratch = .ok a s0) (he : eaOf m r sz s0 = .ok (ea, inc) s1)
    (hplain : plainFor sz s1 ea = true) :
    let u := s1.busWindow
    (∀ p ∈ combineFamily sz,
      ModifiedAlone sz r inc ea (p.2 a u.cc (memValue sz ea u)) rest s u (p.1 src (.mem m r))) ∧
    (s.inst.params.movClrReadBeforeWrite = true →
      ModifiedAlone sz r inc ea (aluMov a u.cc) rest s u (move sz src (.mem m r))) :=
  ⟨fun _ hp => modifiedAlone_of_modify hn hwf (exec_combine_of_source hp hsrc _) he hplain,
    fun hparam => modifiedAlone_of_store hn hwf (exec_move_of_source hsrc m r) (inst_readSource (s := s.useScratch) hsrc)
      hparam he hplain⟩

end

/-- Settles O12: each of these instructions comes to one modifying access, which sees what the masters wrote before it. -/
theorem modifyIsIndivisible : Obligations.ModifyIsIndivisible := by
  intro s s1 m r ea inc l rest hn hwf u
  have hu : u = s1.busWindow := (busWindow_cons hn).symm
  rw [hu]
  exact ⟨single_modifiedAlone (sz := .word) hn hwf, single_modifiedAlone (sz := .byte) hn hwf,
    fun _ _ _ => double_modifiedAlone (sz := .word) hn hwf, fun _ _ _ => double_modifiedAlone (sz := .byte) hn hwf⟩

end Sys2Proof.Machine
end

section
/-! Words and instructions one to one (R82 to R91): every word is the word of the instruction that it decodes to, so the
ranges of R90 leave none out; decoding gives back every instruction from its word, so they do not overlap. -/

namespace Sys2Proof

/-! ### Words put together from their fields -/

theorem toNat_append_eq_add {m n : Nat} (x : BitVec m) (y : BitVec n) :
    (x ++ y).toNat = x.toNat * 2 ^ n + y.toNat := by
  rw [BitVec.toNat_append, ← Nat.shiftLeft_add_eq_or_of_lt y.isLt, Nat.shiftLeft_eq]

/-- A word is its opcode, whatever its length, followed by the bits below. -/
theorem append_low_eq {k n : Nat} {op : BitVec k} {w : BitVec (k + n)} (h : w.toNat / 2 ^ n = op.toNat) :
    op ++ w.extractLsb' 0 n = w := by
  apply BitVec.eq_of_toNat_eq
  rw [toNat_append_eq_add, BitVec.extractLsb'_toNat, Nat.shiftRight_zero, ← h, Nat.div_add_mod']

theorem Reg.code_ofCode (c : BitVec 3) : (Reg.ofCode c).code = c := by
  revert c; decide

theorem Operand.code_ofCode (c : BitVec 6) : (Operand.ofCode c).code = c := by
  revert c; decide

theorem code_srcField (w : Word) : (srcField w).code = field w 6 6 := Operand.code_ofCode _
theorem code_dstField (w : Word) : (dstField w).code = field w 0 6 := Operand.code_ofCode _

section
variable {w : Word}

theorem encodeByteOp_low {op : Byte} (h : w.toNat / 2 ^ 8 = op.toNat) : encodeByteOp op (field w 0 8) = w :=
  append_low_eq h

theorem encodeSop_dstField {op : BitVec 10} (h : w.toNat / 2 ^ 6 = op.toNat) : encodeSop op (dstField w) = w := by
  rw [encodeSop, code_dstField]
  exact append_low_eq h

theorem encodeDop_fields {op : BitVec 4} (h : w.toNat / 2 ^ 12 = op.toNat) :
    encodeDop op (srcField w) (dstField w) = w := by
  rw [encodeDop, code_srcField, code_dstField]
  refine append_low_eq (op := op ++ field w 6 6) ?_
  rw [toNat_append_eq_add, toNat_field]
  omega

theorem encodeRts_fields (h : w.toNat / 2 ^ 3 = 0o00020) :
    (0o00020 : BitVec 13) ++ (Reg.ofCode (field w 0 3)).code = w := by
  rw [Reg.code_ofCode]
  exact append_low_eq (k := 13) h

/-- The word of JSR, legal or not, from the fields of a word of its range. -/
theorem encodeJsr_fields (h : w.toNat / 2 ^ 9 = 0o004) :
    (0o004 : BitVec 7) ++ (Reg.ofCode (field w 6 3)).code ++ (dstField w).code = w := by
  rw [Reg.code_ofCode, code_dstField]
  refine append_low_eq (op := 0o004 ++ field w 6 3) ?_
  rw [toNat_append_eq_add, toNat_field]
  bv_omega

end

/-! ### The instruction that a word decodes to -/

/-- `i` is an instruction of the machine and `w` its word. -/
def Instr.HasWord (i : Instr) (w : Word) : Prop := i.wf = true ∧ encode i = w

theorem isReservedWord_iff (w : Word) : isReservedWord w = true ↔
    (0o000007 ≤ w.toNat ∧ w.toNat ≤ 0o000077) ∨ (0o000210 ≤ w.toNat ∧ w.toNat ≤ 0o000237) ∨
    (0o006400 ≤ w.toNat ∧ w.toNat ≤ 0o007777) ∨ (0o106400 ≤ w.toNat ∧ w.toNat ≤ 0o107777) ∨ 0o170000 ≤ w.toNat := by
  have hw := w.isLt
  simp only [isReservedWord, Bool.or_eq_true, Bool.and_eq_true, decide_eq_true_eq]
  omega

theorem Instr.reserved_hasWord {w : Word}
    (h : (0o000007 ≤ w.toNat ∧ w.toNat ≤ 0o000077) ∨ (0o000210 ≤ w.toNat ∧ w.toNat ≤ 0o000237) ∨
      (0o006400 ≤ w.toNat ∧ w.toNat ≤ 0o007777) ∨ (0o106400 ≤ w.toNat ∧ w.toNat ≤ 0o107777) ∨ 0o170000 ≤ w.toNat) :
    (Instr.reserved w).HasWord w :=
  ⟨(isReservedWord_iff w).2 h, rfl⟩

/-- The operate group (R88): bits 7:6 choose between words of no operand, JMP, a row of register and condition code
words, and SWAB. -/
theorem decodeOperate_hasWord {w : Word} (h : w.toNat / 2 ^ 8 = 0) : (decodeOperate w).HasWord w := by
  have hlow : (field w 6 2).toNat = 0 → w.toNat = (field w 0 6).toNat := by simp only [toNat_field]; omega
  have hgroup : w.toNat / 2 ^ 6 = (field w 6 2).toNat := by simp only [toNat_field]; omega
  have hrow : (field w 6 2).toNat = 2 →
      w.toNat / 2 ^ 3 = 0o20 + (field w 3 3).toNat ∧ w.toNat / 2 ^ 4 = 0o10 + (field w 3 3).toNat / 2 := by
    simp only [toNat_field]; omega
  unfold decodeOperate
  split
  case h_1 hd =>
    specialize hlow hd
    split
    case h_8 =>
      simp only [imp_false] at *
      exact Instr.reserved_hasWord (by omega)
    all_goals
      rename_i hd
      rw [hd] at hlow
      exact ⟨rfl, BitVec.eq_of_toNat_eq hlow.symm⟩
  case h_2 hd =>
    have hw : encodeSop 0o0001 (dstField w) = w := encodeSop_dstField (hgroup.trans hd)
    generalize dstField w = dst at hw ⊢
    cases dst <;> exact ⟨rfl, hw⟩
  case h_3 hd =>
    obtain ⟨hrow, hcodes⟩ := hrow hd
    split
    case h_6 =>
      simp only [imp_false] at *
      exact Instr.reserved_hasWord (by omega)
    all_goals
      rename_i hd
      rw [hd] at hrow hcodes
    case h_1 => exact ⟨rfl, encodeRts_fields hrow⟩
    all_goals exact ⟨rfl, append_low_eq (k := 12) (n := 4) hcodes⟩
  case h_4 =>
    have hlt := (field w 6 2).isLt
    simp only [imp_false] at *
    have hop : (field w 6 2).toNat = 3 := by omega
    exact ⟨rfl, encodeSop_dstField (hgroup.trans hop)⟩

/-- The branches (R87): bits 15 and 10:8 together are the upper byte, less the zeros between them. -/
theorem decodeBranch_hasWord {w : Word} (h : w.toNat / 2 ^ 11 % 2 ^ 4 = 0) : (decodeBranch w).HasWord w := by
  generalize hn : (field w 15 1 ++ field w 8 3).toNat = n
  have hop : w.toNat / 2 ^ 8 = n % 8 + 0o200 * (n / 8) := by
    have hw := w.isLt
    simp only [toNat_append_eq_add, toNat_field] at hn
    omega
  have hlt : n < 16 := hn ▸ (field w 15 1 ++ field w 8 3).isLt
  unfold decodeBranch
  simp only [hn]
  split
  case h_1 => exact decodeOperate_hasWord hop
  case h_16 =>
    simp only [imp_false] at *
    obtain rfl : n = 15 := by omega
    exact ⟨rfl, encodeByteOp_low hop⟩
  all_goals exact ⟨rfl, encodeByteOp_low hop⟩

/-- JSR and the word operations (R86, R89): bits 10:6 complete the opcode of ten bits. -/
theorem decodeWordGroup_hasWord {w : Word} (h : w.toNat / 2 ^ 11 = 1) : (decodeWordGroup w).HasWord w := by
  have hop : w.toNat / 2 ^ 6 = 0o40 + (field w 6 5).toNat := by simp only [toNat_field]; omega
  unfold decodeWordGroup
  split
  case h_21 =>
    simp only [imp_false] at *
    exact Instr.reserved_hasWord (by omega)
  all_goals
    rename_i hd
    rw [hd] at hop
  case h_1 | h_2 | h_3 | h_4 | h_5 | h_6 | h_7 | h_8 =>
    have hw := encodeJsr_fields (w := w) (by omega)
    generalize dstField w = dst at hw ⊢
    cases dst <;> exact ⟨rfl, hw⟩
  all_goals exact ⟨rfl, encodeSop_dstField hop⟩

/-- EMT, TRAP and the byte operations (R86, R89), whose opcodes are of eight and of ten bits. -/
theorem decodeByteGroup_hasWord {w : Word} (h : w.toNat / 2 ^ 11 = 0o21) : (decodeByteGroup w).HasWord w := by
  have hop : w.toNat / 2 ^ 6 = 0o1040 + (field w 6 5).toNat := by simp only [toNat_field]; omega
  have hcode : w.toNat / 2 ^ 8 = 0o210 + (field w 6 5).toNat / 4 := by simp only [toNat_field]; omega
  unfold decodeByteGroup
  split
  case h_21 =>
    simp only [imp_false] at *
    exact Instr.reserved_hasWord (by omega)
  all_goals
    rename_i hd
    rw [hd] at hop hcode
  case h_1 | h_2 | h_3 | h_4 | h_5 | h_6 | h_7 | h_8 => exact ⟨rfl, encodeByteOp_low hcode⟩
  all_goals exact ⟨rfl, encodeSop_dstField hop⟩

/-- No word is left out: each is the word of the instruction that it decodes to (R90). -/
theorem decode_hasWord (w : Word) : (decode w).HasWord w := by
  have hw := w.isLt
  have hop : w.toNat / 2 ^ 12 = (field w 12 4).toNat := by rw [toNat_field]; omega
  have hbit : field w 11 1 = 0 ↔ w.toNat / 2 ^ 11 % 2 = 0 := by
    rw [← BitVec.toNat_inj, toNat_field]
    rfl
  unfold decode
  simp only [hbit]
  split
  case h_16 =>
    simp only [imp_false] at *
    exact Instr.reserved_hasWord (by omega)
  all_goals
    rename_i hd
    rw [hd] at hop
  case h_1 =>
    split
    · exact decodeBranch_hasWord (by omega)
    · exact decodeWordGroup_hasWord (by omega)
  case h_9 =>
    split
    · exact decodeBranch_hasWord (by omega)
    · exact decodeByteGroup_hasWord (by omega)
  case h_8 => exact ⟨rfl, append_low_eq (k := 4) (n := 12) hop⟩
  all_goals exact ⟨rfl, encodeDop_fields hop⟩

/-! ### Decoding and encoding -/

namespace Laws.DecodeEncode

/-- The laws of the constructors together. -/
theorem decode_encode : ∀ i : Instr, Statement i
  | .halt => halt | .wait => wait | .rti => rti | .bpt => bpt | .iot => iot | .reset => reset | .rtt => rtt
  | .reserved w => reserved w | .illegalJmp r => illegalJmp r | .jmp m r => jmp m r | .rts r => rts r
  | .clcc m => clcc m | .secc m => secc m | .swab d => swab d | .br o => br o | .bne o => bne o | .beq o => beq o
  | .bge o => bge o | .blt o => blt o | .bgt o => bgt o | .ble o => ble o | .bpl o => bpl o | .bmi o => bmi o
  | .bhi o => bhi o | .blos o => blos o | .bvc o => bvc o | .bvs o => bvs o | .bcc o => bcc o | .bcs o => bcs o
  | .illegalJsr l r => illegalJsr l r | .jsr l m r => jsr l m r
  | .clr d => clr d | .com d => com d | .inc d => inc d | .dec d => dec d | .neg d => neg d | .adc d => adc d
  | .sbc d => sbc d | .tst d => tst d | .ror d => ror d | .rol d => rol d | .asr d => asr d | .asl d => asl d
  | .clrb d => clrb d | .comb d => comb d | .incb d => incb d | .decb d => decb d | .negb d => negb d
  | .adcb d => adcb d | .sbcb d => sbcb d | .tstb d => tstb d | .rorb d => rorb d | .rolb d => rolb d
  | .asrb d => asrb d | .aslb d => aslb d | .mov s d => mov s d | .cmp s d => cmp s d | .bit s d => bit s d
  | .bic s d => bic s d | .bis s d => bis s d | .add s d => add s d | .reservedEis l => reservedEis l
  | .emt c => emt c | .trap c => trap c | .movb s d => movb s d | .cmpb s d => cmpb s d | .bitb s d => bitb s d
  | .bicb s d => bicb s d | .bisb s d => bisb s d | .sub s d => sub s d

end Laws.DecodeEncode

/-- An instruction is what a word decodes to exactly when the machine has it and the word is its own. -/
theorem decode_eq_iff {i : Instr} {w : Word} : decode w = i ↔ i.HasWord w := by
  constructor
  · rintro rfl
    exact decode_hasWord w
  · rintro ⟨hwf, rfl⟩
    exact Laws.DecodeEncode.decode_encode i hwf

/-- Settles O1: the law of each constructor. -/
theorem decodeOfEncode : Obligations.DecodeOfEncode := Laws.DecodeEncode.decode_encode

/-- Settles O2: a word is the word of what it decodes to, and by O1 of nothing else. -/
theorem encodeOfDecode : Obligations.EncodeOfDecode := by
  intro w
  obtain ⟨hwf, hword⟩ := decode_hasWord w
  exact ⟨hword, hwf, fun i hi hiw => (decode_eq_iff.2 ⟨hi, hiw⟩).symm⟩

/-- Settles O5: each instruction is well formed and has the word. -/
theorem workedWordsDecode : Obligations.WorkedWordsDecode := by
  unfold Obligations.WorkedWordsDecode
  simp only [decode_eq_iff, Instr.HasWord]
  and_intros <;> rfl

end Sys2Proof
end

section
/-! The ranges of the reserved and the illegal words (R90, R95, R96), and the traps that they and the trap instructions
take (R220 to R224, R269). -/

namespace Sys2Proof

/-! ### The words as numbers -/

theorem toNat_encode_reservedEis (low : BitVec 12) : (encode (.reservedEis low)).toNat = 0o070000 + low.toNat :=
  toNat_append_eq_add 7 low

theorem toNat_code_reg (r : Reg) : (Operand.reg r).code.toNat = r.code.toNat := by
  cases r <;> rfl

theorem toNat_encode_illegalJmp (r : Reg) : (encode (.illegalJmp r)).toNat = 0o000100 + r.code.toNat := by
  rw [← toNat_code_reg]
  exact toNat_append_eq_add 1 _

theorem toNat_encode_illegalJsr (link r : Reg) :
    (encode (.illegalJsr link r)).toNat = 0o004000 + 0o100 * link.code.toNat + r.code.toNat := by
  rw [encode, toNat_append_eq_add, toNat_append_eq_add, toNat_code_reg]
  bv_omega

/-- Every number of three bits is the code of a register. -/
theorem Reg.exists_code {n : Nat} (h : n < 8) : ∃ r : Reg, r.code.toNat = n :=
  ⟨Reg.ofCode (BitVec.ofNat 3 n), by rw [Reg.code_ofCode, BitVec.toNat_ofNat, Nat.mod_eq_of_lt h]⟩

/-! ### The ranges -/

theorem decode_eq_reserved_iff (w : Word) : decode w = .reserved w ↔ isReservedWord w = true :=
  decode_eq_iff.trans (and_iff_left rfl)

theorem exists_decode_eq_reservedEis_iff (w : Word) :
    (∃ l, decode w = .reservedEis l) ↔ 0o070000 ≤ w.toNat ∧ w.toNat ≤ 0o077777 := by
  simp only [decode_eq_iff, Instr.HasWord, Instr.wf, true_and, ← BitVec.toNat_inj, toNat_encode_reservedEis]
  constructor
  · rintro ⟨l, hl⟩
    omega
  · rintro ⟨hlo, hhi⟩
    exact ⟨BitVec.ofNat 12 (w.toNat - 0o070000), by rw [BitVec.toNat_ofNat]; omega⟩

theorem exists_decode_eq_illegalJmp_iff (w : Word) :
    (∃ r, decode w = .illegalJmp r) ↔ 0o000100 ≤ w.toNat ∧ w.toNat ≤ 0o000107 := by
  simp only [decode_eq_iff, Instr.HasWord, Instr.wf, true_and, ← BitVec.toNat_inj, toNat_encode_illegalJmp]
  constructor
  · rintro ⟨r, hr⟩
    omega
  · rintro ⟨hlo, hhi⟩
    obtain ⟨r, hr⟩ := Reg.exists_code (n := w.toNat - 0o000100) (by omega)
    exact ⟨r, by omega⟩

theorem exists_decode_eq_illegalJsr_iff (w : Word) :
    (∃ l r, decode w = .illegalJsr l r) ↔ 0o004000 ≤ w.toNat ∧ w.toNat ≤ 0o004777 ∧ w.toNat % 0o100 < 0o10 := by
  simp only [decode_eq_iff, Instr.HasWord, Instr.wf, true_and, ← BitVec.toNat_inj, toNat_encode_illegalJsr]
  constructor
  · rintro ⟨l, r, h⟩
    omega
  · rintro ⟨hlo, hhi, hmode⟩
    obtain ⟨l, hl⟩ := Reg.exists_code (n := (w.toNat - 0o004000) / 0o100) (by omega)
    obtain ⟨r, hr⟩ := Reg.exists_code hmode
    exact ⟨l, r, by omega⟩

/-- Settles O3: the range of each of the four kinds of word. -/
theorem reservedAndIllegalWords : Obligations.ReservedAndIllegalWords := fun w =>
  ⟨(decode_eq_reserved_iff w).trans (isReservedWord_iff w), exists_decode_eq_reservedEis_iff w,
    exists_decode_eq_illegalJmp_iff w, exists_decode_eq_illegalJsr_iff w⟩

end Sys2Proof

namespace Sys2Proof.Machine

open Sys2Proof.Config Sys2Proof.Safety

/-! ### The traps of these instructions -/

/-- The instruction of IR CODE 101 is a JMP or a JSR with a register destination (R95, Table 14). -/
theorem irCodeBits_eq_illegal_iff (i : Instr) :
    irCodeBits (irCode i) = 0b101 ↔ (∃ r, i = .illegalJmp r) ∨ ∃ l r, i = .illegalJsr l r := by
  cases i <;> simp [irCode, irCodeBits]

/-- Each of these instructions is the trap through the vector of its IR CODE (R269). -/
theorem trap_of_trapsThrough {i : Instr} {v : Word} (h : trapsThrough i v) :
    irCodeVector (irCode i) = some v ∧ ∀ s, exec i s = instructionTrap v s := by
  obtain ⟨rfl, rfl⟩ | ⟨rfl, rfl⟩ | ⟨_, rfl, rfl⟩ | ⟨_, rfl, rfl⟩ | ⟨_, rfl, rfl⟩ | ⟨_, rfl, rfl⟩ | ⟨_, rfl, rfl⟩ |
    ⟨_, _, rfl, rfl⟩ := h
  all_goals exact ⟨rfl, fun _ => rfl⟩

/-- The word that a trap instruction leaves in IR is that of a BPL, which has no IR CODE (R269). -/
theorem irCode_afterTrap : irCode (decode 0o100000) = .none := rfl

/-- The state from which an instruction that is a trap takes it: IR is set and, by the parameter, the trace flag (R225,
D5). -/
def trapOrigin (s : State) : State :=
  { s with
    ir := 0o100000
    pending := { s.pending with
      trace := if s.inst.params.traceAfterTrapInstruction then s.tBit else s.pending.trace } }

theorem instructionTrap_eq (v : Word) (s : State) :
    instructionTrap v s = .next (trapSequence true v (trapOrigin s)) := by
  simp only [instructionTrap, trapOrigin]
  split <;> rfl

/-- Settles O40: the trap is the trap sequence from a state that differs in IR and the trace flag alone. -/
theorem trapInstructions : Obligations.TrapInstructions := by
  intro i v s hi hready
  obtain ⟨hvector, hexec⟩ := trap_of_trapsThrough hi
  have hready' : TrapReady v (trapOrigin s) := hready
  have htaken : TrapTaken v s (trapSequence true v (trapOrigin s)) := trapTaken_of_ready true hready'
  refine ⟨hvector, _, (hexec s).trans (instructionTrap_eq v s), htaken, ?_⟩
  rw [trapSequence_frame hready', ← stackLow_eq, ← stackLow_eq]
  exact ⟨⟨rfl, rfl, rfl, rfl, rfl, rfl, rfl, rfl, rfl, rfl, rfl⟩, rfl, irCode_afterTrap, rfl, rfl, rfl, rfl⟩

/-- Settles O4: the illegal instructions are those of IR CODE 101, their words are the two ranges, and their trap is
that of O40. -/
theorem illegalCombinationsTrap : Obligations.IllegalCombinationsTrap := by
  intro w jmpMode0 jsrMode0
  have hcode : irCodeBits (irCode (decode w)) = 0b101 ↔ jmpMode0 ∨ jsrMode0 :=
    (irCodeBits_eq_illegal_iff _).trans
      (or_congr (exists_decode_eq_illegalJmp_iff w) (exists_decode_eq_illegalJsr_iff w))
  refine ⟨hcode, fun hw s hready => ?_⟩
  have hi : trapsThrough (decode w) 0o10 := by
    obtain ⟨r, hr⟩ | ⟨l, r, hr⟩ := (irCodeBits_eq_illegal_iff _).1 (hcode.2 hw)
    all_goals simp [trapsThrough, hr]
  obtain ⟨-, t, hexec, ⟨-, -, -, -, hpc, hpsw, -⟩, -⟩ := trapInstructions _ _ s hi hready
  exact ⟨t, hexec, hpc, hpsw⟩

end Sys2Proof.Machine
end

section
/-! Operands (R112 to R120, R124, R130): the effective address of each mode as an equation in what its reads give, what
is left when one of them raises, and the value of an operand. -/

namespace Sys2Proof.Machine

open Sys2Proof.Config Sys2Proof.Safety

/-! ### Registers while operands are evaluated -/

/-- The increment of mode 2 and the decrement of mode 4 (R114). -/
theorem stepOf_eq (r : Reg) (sz : Size) : stepOf r sz = if sz = .word ∨ r = .sp ∨ r = .pc then 2 else 1 := by
  cases sz <;> cases r <;> rfl

/-- The decrement of modes 4 and 5, the limit as R271 words it. -/
theorem State.decrement_eq_limit (s : State) (r : Reg) (d : Word) : s.decrement r d =
    (s.setReg r (s.reg r - d)).setPending { s.pending with
      stackOverflow := s.pending.stackOverflow || (decide (r = .sp) && decide ((s.reg r - d).toNat < 0o400)) } := by
  rw [State.decrement_eq, stackLow_eq]

theorem State.reg_decrement_self (s : State) (r : Reg) (d : Word) : (s.decrement r d).reg r = s.reg r - d := by
  rw [State.decrement_eq]
  exact State.reg_setReg_self s r _

theorem State.npr_decrement (s : State) (r : Reg) (d : Word) : (s.decrement r d).npr = s.npr :=
  (Addressed.of_decrement s r d).npr

/-- A read, complete or aborted, moves no register. -/
theorem State.reg_of_read {s t : State} (h : t = s ∨ t = s.useFree 1) (q : Reg) : t.reg q = s.reg q := by
  obtain rfl | rfl := h <;> rfl

/-- Nor does it touch a flag. -/
theorem State.pending_of_read {s t : State} (h : t = s ∨ t = s.useFree 1) : t.pending = s.pending := by
  obtain rfl | rfl := h <;> rfl

/-! ### The effective address of each mode -/

section
variable {s t : State} {r : Reg} {sz : Size} {x ea : Word} {c : Abort}

theorem eaOf_deferred (r : Reg) (sz : Size) (s : State) : eaOf .deferred r sz s = .ok (s.reg r, 0) s := rfl

theorem eaOf_autoInc (r : Reg) (sz : Size) (s : State) : eaOf .autoInc r sz s = .ok (s.reg r, stepOf r sz) s := rfl

theorem eaOf_autoDec (r : Reg) (sz : Size) (s : State) :
    eaOf .autoDec r sz s = .ok (s.reg r - stepOf r sz, 0) (s.decrement r (stepOf r sz)) := by
  rw [← State.reg_decrement_self]
  rfl

theorem eaOf_autoIncDef_of_ok (h : readWord .dati (s.reg r) s = .ok ea t) :
    eaOf .autoIncDef r sz s = .ok (ea, 0) (t.bump r 2) := by
  simp only [eaOf, h]

theorem eaOf_autoIncDef_of_abort (h : readWord .dati (s.reg r) s = .abort c t) :
    eaOf .autoIncDef r sz s = .abort c (mode3Abort r t) := by
  simp only [eaOf, h]

theorem eaOf_autoDecDef (r : Reg) (sz : Size) (s : State) : eaOf .autoDecDef r sz s =
    (readWord .dati (s.reg r - 2) (s.decrement r 2)).andThen fun ea t => .ok (ea, 0) t := by
  rw [← State.reg_decrement_self]
  rfl

/-- The index word, once it is read, leaves PC past it (R119). -/
theorem nextWord_of_ok (hs : s.npr = []) (h : readWord .dati (s.reg .pc) s = .ok x t) :
    nextWord s = .ok x (t.setReg .pc (s.reg .pc + 2)) := by
  rw [nextWord, h, Res.andThen_ok, ← State.reg_of_read (readWord_state hs h).2]
  rfl

theorem nextWord_of_abort (h : readWord .dati (s.reg .pc) s = .abort c t) : nextWord s = .abort c t := by
  rw [nextWord, h, Res.andThen_abort]

theorem eaOf_index_of_ok (h : nextWord s = .ok x t) : eaOf .index r sz s = .ok (x + t.reg r, 0) t := by
  simp only [eaOf, h, Res.andThen_ok]

theorem eaOf_index_of_abort (h : nextWord s = .abort c t) : eaOf .index r sz s = .abort c t := by
  simp only [eaOf, h, Res.andThen_abort]

theorem eaOf_indexDef_of_ok (h : nextWord s = .ok x t) : eaOf .indexDef r sz s =
    (readWord .dati (x + t.reg r) t).andThen fun ea u => .ok (ea, 0) u := by
  simp only [eaOf, h, Res.andThen_ok]

theorem eaOf_indexDef_of_abort (h : nextWord s = .abort c t) : eaOf .indexDef r sz s = .abort c t := by
  simp only [eaOf, h, Res.andThen_abort]

end

/-- Settles O13: each mode from what its reads give, which in plain memory are the words there. -/
theorem effectiveAddresses : Obligations.EffectiveAddresses := by
  intro s r sz hs d moved x sum
  have hd : stepOf r sz = d := stepOf_eq r sz
  have hmoved (n : Word) : s.decrement r n = moved (s.reg r - n) := State.decrement_eq_limit s r n
  refine ⟨eaOf_deferred r sz s, ?autoInc, ?autoDec, fun h => ?autoIncDef, fun h => ?autoDecDef, fun h => ?indexed⟩
  case autoInc => rw [eaOf_autoInc, hd]
  case autoDec => rw [eaOf_autoDec, hd, hmoved]
  case autoIncDef => exact eaOf_autoIncDef_of_ok (readWord_plain hs h)
  case autoDecDef =>
    have hinst : (moved (s.reg r - 2)).inst = s.inst := rfl
    have hread : readWord .dati (s.reg r - 2) (moved (s.reg r - 2)) =
        .ok (s.memWord (s.reg r - 2)) (moved (s.reg r - 2)) :=
      readWord_plain hs ((plainWord_congr hinst _).trans h)
    rw [eaOf_autoDecDef, hmoved, hread, Res.andThen_ok]
  case indexed =>
    have hnext : nextWord s = .ok x (s.setReg .pc (s.reg .pc + 2)) := nextWord_of_ok hs (readWord_plain hs h)
    have hsum : x + (s.setReg .pc (s.reg .pc + 2)).reg r = sum := by
      rw [State.reg_setReg, apply_ite (x + ·)]
    refine ⟨?_, fun hp => ?_⟩
    · rw [eaOf_index_of_ok hnext, hsum]
    · have hread : readWord .dati sum (s.setReg .pc (s.reg .pc + 2)) =
          .ok (s.memWord sum) (s.setReg .pc (s.reg .pc + 2)) :=
        readWord_plain hs ((plainWord_congr (State.inst_setReg s _ _) _).trans hp)
      rw [eaOf_indexDef_of_ok hnext, hsum, hread, Res.andThen_ok]

/-! ### The value of an operand -/

section
variable {sz : Size} {m : MemMode} {r : Reg} {o : Operand} {s s1 s2 : State} {e : Word × Word} {v : BitVec sz.bits}
  {c : Abort}

theorem readOperand_mem_of_ok (he : eaOf m r sz s = .ok e s1) (hr : readMem sz .dati e.1 s1 = .ok v s2) :
    readOperand sz (.mem m r) s = .ok v (s2.bump r e.2) := by
  rw [readOperand, he, Res.andThen_ok, hr, Res.andThen_ok]

theorem readOperand_of_eaOf_abort (h : eaOf m r sz s = .abort c s1) : readOperand sz (.mem m r) s = .abort c s1 := by
  rw [readOperand, h, Res.andThen_abort]

theorem readOperand_of_read_abort (he : eaOf m r sz s = .ok e s1) (hr : readMem sz .dati e.1 s1 = .abort c s2) :
    readOperand sz (.mem m r) s = .abort c s2 := by
  rw [readOperand, he, Res.andThen_ok, hr, Res.andThen_abort]

theorem readSource_of_ok (h : readOperand sz o s = .ok v s1) :
    readSource sz o s = .ok v (s1.setHidden { s1.hidden with r11 := sourceWord sz v s1 }) := by
  rw [readSource, h, Res.andThen_ok]

theorem readSource_of_abort (h : readOperand sz o s = .abort c s1) : readSource sz o s = .abort c s1 := by
  rw [readSource, h, Res.andThen_abort]

end

/-- Settles O15: a source byte is saved in the low half of R11. -/
theorem operandValues : Obligations.OperandValues := by
  intro s r sz m
  refine ⟨rfl, rfl, fun ea inc s1 v s2 he hr => readOperand_mem_of_ok he hr,
    fun o v s1 h => readSource_of_ok (sz := .word) h, fun o v s1 h => ?_⟩
  exact ⟨sourceWord .byte v s1, lowByte_append _ v, readSource_of_ok (sz := .byte) h⟩

/-! ### Reads that raise -/

/-- Mode 3 by its parameter (D3). -/
theorem mode3Abort_incremented {r : Reg} {s : State} (h : s.inst.params.mode3AbortIncremented = some true) :
    mode3Abort r s = s.bump r 2 := by
  simp only [mode3Abort, h]

theorem mode3Abort_unmoved {r : Reg} {s : State} (h : s.inst.params.mode3AbortIncremented = some false) :
    mode3Abort r s = s := by
  simp only [mode3Abort, h]

/-- The parameter not given, either happens (log 12). -/
theorem mode3Abort_open {r : Reg} {s : State} (h : s.inst.params.mode3AbortIncremented = none) :
    mode3Abort r s = s.useFree 1 ∨ mode3Abort r s = (s.bump r 2).useFree 1 := by
  simp only [mode3Abort, h]
  cases freeBit s.free with
  | false => exact .inl rfl
  | true => exact .inr rfl

/-- Settles O14: a read that raises moves no register, so each mode leaves what it had done before that read. -/
theorem abortedAddressing : Obligations.AbortedAddressing := by
  intro s r sz c t hs
  refine ⟨fun h => ?autoInc, fun h => ?indexWord, fun h => ?autoIncDef, fun h => ?autoDecDef, fun x u hx h => ?indexDef,
    fun m ea inc s1 he h => ?operand, fun m => readOperand_of_eaOf_abort, fun o => readSource_of_abort⟩
  case autoInc =>
    exact ⟨readOperand_of_read_abort (eaOf_autoInc r sz s) h, State.reg_of_read (readMem_abort hs h)⟩
  case indexWord =>
    have hnext := nextWord_of_abort h
    exact ⟨eaOf_index_of_abort hnext, eaOf_indexDef_of_abort hnext, State.reg_of_read (readWord_abort hs h)⟩
  case autoIncDef =>
    have hread := readWord_abort hs h
    have hinst : t.inst = s.inst := (Addressed.of_read hread).inst
    have hmoved : t.bump r 2 = t.setReg r (s.reg r + 2) := by rw [State.bump, State.reg_of_read hread]
    rw [eaOf_autoIncDef_of_abort h, ← hinst, ← hmoved]
    refine ⟨State.reg_of_read hread, fun hp => ?_, fun hp => ?_, fun hp => ?_⟩
    · rw [mode3Abort_incremented hp]
    · rw [mode3Abort_unmoved hp]
    · exact (mode3Abort_open hp).imp (congrArg (Res.abort c)) (congrArg (Res.abort c))
  case autoDecDef =>
    refine ⟨by rw [eaOf_autoDecDef, h, Res.andThen_abort], ?_⟩
    rw [State.reg_of_read (readWord_abort ((State.npr_decrement s r 2).trans hs) h), State.reg_decrement_self]
  case indexDef =>
    have hn : (u.setReg .pc (s.reg .pc + 2)).npr = [] := (Addressed.of_read (readWord_state hs hx).2).npr.trans hs
    refine ⟨by rw [eaOf_indexDef_of_ok (nextWord_of_ok hs hx), h, Res.andThen_abort], ?_⟩
    rw [State.reg_of_read (readWord_abort hn h), State.reg_setReg_self]
  case operand =>
    have hread := readMem_abort (((eaOf_addressed hs m r sz).1 _ _ he).npr.trans hs) h
    exact ⟨readOperand_of_read_abort he h, State.reg_of_read hread,
      congrArg Pending.stackOverflow (State.pending_of_read hread)⟩

end Sys2Proof.Machine
end

section
/-! The double-operand instructions with a register destination (R125, R187 to R192), and JMP (R168). -/

namespace Sys2Proof.Machine

open Sys2Proof.Config Sys2Proof.Safety

/-- The destination in a register of a modifying instruction, at the width of the instruction (R24, R112). -/
theorem modifyOperand_reg (sz : Size) (r : Reg) (f : Cc → BitVec sz.bits → Alu sz.bits) (s : State) :
    modifyOperand sz (.reg r) f s =
      .ok () (writeReg sz r (f s.cc (readReg sz r s)).res (s.setCc (f s.cc (readReg sz r s)).cc)) := rfl

theorem exec_combineRegister {sz : Size} {src : Operand} {r : Reg} {s s1 : State} {a : BitVec sz.bits}
    {p : (Operand → Operand → Instr) × (BitVec sz.bits → Cc → BitVec sz.bits → Alu sz.bits)}
    (hmem : p ∈ combineFamily sz) (hp : Prepared s s1) (h : readSource sz src s.useScratch = .ok a s1) :
    let out := p.2 a s.cc (readReg sz r s1)
    exec (p.1 src (.reg r)) s = .next ((writeReg sz r out.res (s1.setCc out.cc)).complete s.tBit) := by
  rw [exec_combine_of_source hmem h, modifyOperand_reg, hp.cc]
  rfl

/-- Settles O27: the register is read after the source, and the result loaded into it. -/
theorem combineRegister : Obligations.CombineRegister := by
  intro src r s s1 hs
  refine ⟨fun p hmem a h => ?word, fun p hmem a h => ?byte⟩
  all_goals have hp := (Prepared.of_useScratch s).of_readSource hs h
  case word => exact ⟨_, exec_combineRegister (sz := .word) hmem hp h, loadsRegister_of_prepared hp r _ _⟩
  case byte => exact ⟨_, exec_combineRegister (sz := .byte) hmem hp h, loadsRegister_of_prepared hp r _ _⟩

/-- An instruction that has changed nothing but what it prepares with has changed neither the PSW nor memory. -/
theorem Prepared.onlyRegisters {s t : State} (h : Prepared s t) : OnlyRegisters s (t.complete s.tBit) :=
  ⟨h.psw, fun x => congrArg (Memory.read · x.toNat) h.mem, completed_of h rfl⟩

theorem jumpBody_of_ok {m : MemMode} {r : Reg} {s s1 : State} {e : Word × Word} (h : eaOf m r .word s = .ok e s1) :
    jumpBody m r s = .ok () ((s1.bump r e.2).setReg .pc e.1) := by
  rw [jumpBody, addressOperand, h, Res.andThen_ok, Res.andThen_ok]

/-- Settles O34: the register of the mode moves, then PC is loaded, and memory is not accessed at the address. -/
theorem jump : Obligations.Jump := by
  intro m r s ea inc s1 hs he
  have hp : Prepared s ((s1.bump r inc).setReg .pc ea) :=
    (((Prepared.of_useScratch s).of_eaOf hs he).trans (Addressed.of_bump s1 r inc).prepared).trans
      (Prepared.of_setReg _ .pc ea)
  refine ⟨_, (exec_jmp m r s).trans (congrArg (finish s) (jumpBody_of_ok he)), ?pc, fun q hq => ?others, rfl,
    hp.onlyRegisters⟩
  case pc => exact State.reg_setReg_self (s1.bump r inc) .pc ea
  case others => exact (State.reg_setReg_of_ne (s1.bump r inc) ea hq).trans (State.reg_bump s1 r q inc)

end Sys2Proof.Machine
end

section
/-! Pops that raise (R124, R219, R227, D17): the registers that RTS, RTI and RTT leave, and the trap from there. -/

namespace Sys2Proof.Machine

open Sys2Proof.Config Sys2Proof.Safety

/-! ### Pops -/

section
variable {s t : State} {v : Word} {c : Abort}

theorem popWord_of_ok (hs : s.npr = []) (h : readWord .dati (s.reg .sp) s = .ok v t) :
    popWord s = .ok v (t.setReg .sp (s.reg .sp + 2)) := by
  rw [popWord, h, Res.andThen_ok, State.reg_of_read (readWord_state hs h).2]

/-- R6 is not incremented for a pop that raises (R23, R124). -/
theorem popWord_of_abort (h : readWord .dati (s.reg .sp) s = .abort c t) : popWord s = .abort c t := by
  rw [popWord, h, Res.andThen_abort]

end

/-! ### The bodies of the returns -/

theorem returnBody_of_abort {r : Reg} {s t : State} {c : Abort} (h : popWord (s.setReg .pc (s.reg r)) = .abort c t) :
    returnBody r s = .abort c (if s.inst.params.rtsAbortPcLoaded then t else t.setReg .pc (s.reg .pc)) := by
  simp only [returnBody, h]

theorem returnFromInterrupt_of_abort {s t : State} {c : Abort} (h : popWord s = .abort c t) :
    returnFromInterrupt s = .abort c t := by
  rw [returnFromInterrupt, h, Res.andThen_abort]

theorem returnFromInterrupt_of_second_abort {s s1 t : State} {v : Word} {c : Abort} (h1 : popWord s = .ok v s1)
    (h2 : popWord (s1.setReg .pc v) = .abort c t) : returnFromInterrupt s =
      .abort c (if s.inst.params.rtiAbortPcLoaded then t else t.setReg .pc (s.reg .pc)) := by
  simp only [returnFromInterrupt, h1, Res.andThen_ok, h2]

theorem exec_rts (r : Reg) (s : State) : exec (.rts r) s = finish s (returnBody r s.useScratch) :=
  instruction_eq_finish (returnBody r) s

/-- RTI and RTT differ in how they complete alone (R229). -/
theorem exec_return_of_abort {i : Instr} {s t : State} {c : Abort} (hi : i = .rti ∨ i = .rtt)
    (h : returnFromInterrupt s.useScratch = .abort c t) : exec i s = finish s (.abort c t) := by
  obtain rfl | rfl := hi
  all_goals
    show instructionEnding _ returnFromInterrupt s = _
    simp only [instructionEnding, h, finish]

/-! ### The trap -/

theorem State.setReg_setReg (s : State) (r : Reg) (v v' : Word) : (s.setReg r v).setReg r v' = s.setReg r v' := by
  cases r <;> rfl

/-- The state `w` is `u` but for the microprogram's temporaries and the free values that they and a read have taken. -/
def Scratched (u w : State) : Prop := ∃ n, w = { u.useScratch with free := n }

theorem Scratched.of_useScratch (u : State) : Scratched u u.useScratch := ⟨_, rfl⟩

section
variable {u w w' : State}

theorem Scratched.prepared (h : Scratched u w) : Prepared u w := by
  obtain ⟨n, rfl⟩ := h
  exact ⟨_, _, n, _, _, _, _, _, rfl⟩

theorem Scratched.useFree (h : Scratched u w) (k : Nat) : Scratched u (w.useFree k) := by
  obtain ⟨n, rfl⟩ := h
  exact ⟨n + k, rfl⟩

theorem Scratched.of_read (h : Scratched u w) (hr : w' = w ∨ w' = w.useFree 1) : Scratched u w' := by
  obtain rfl | rfl := hr
  · exact h
  · exact h.useFree 1

theorem Scratched.setReg (h : Scratched u w) (r : Reg) (v : Word) : Scratched (u.setReg r v) (w.setReg r v) := by
  obtain ⟨n, rfl⟩ := h
  exact ⟨n, rfl⟩

/-- PC given back its old value. -/
theorem Scratched.restorePc {v : Word} (h : Scratched (u.setReg .pc v) w) : Scratched u (w.setReg .pc (u.reg .pc)) := by
  have hback := h.setReg .pc (u.reg .pc)
  rwa [State.setReg_setReg, State.setReg_reg] at hback

end

/-- The trap of an abort does not see what `Scratched` leaves open. -/
theorem trap_of_scratched_abort {s u w : State} {c : Abort} {i : Instr} (hu : Prepared s u) (h : Scratched u w)
    (hb : s.pending.busError = false) (hq : s.pending.parityError = false) (hr : TrapReady (abortVector c) u)
    (hx : exec i s = finish s (.abort c w)) :
    ∃ t, exec i s = .next t ∧ TrapKeeps s t ∧ TrapTaken (abortVector c) u t := by
  have hp := hu.trans h.prepared
  obtain ⟨n, rfl⟩ := h
  obtain ⟨⟨t, hexec, htaken, hkeeps, -⟩, -⟩ := trapsFrom_of_read_abort hp hb hq hr hx
  exact ⟨t, hexec, hkeeps, htaken⟩

/-- The same where PC was loaded before the pop, and by a parameter stays so or is restored (D17). -/
theorem trap_of_pop_abort {s u w : State} {c : Abort} {i : Instr} {v : Word} {loaded : Bool} (hu : Prepared s u)
    (h : Scratched (u.setReg .pc v) w) (hb : s.pending.busError = false) (hq : s.pending.parityError = false)
    (hr : TrapReady (abortVector c) u)
    (hx : exec i s = finish s (.abort c (if loaded then w else w.setReg .pc (u.reg .pc)))) :
    ∃ t, exec i s = .next t ∧ TrapKeeps s t ∧
      TrapTaken (abortVector c) (if loaded then u.setReg .pc v else u) t := by
  cases loaded with
  | true => exact trap_of_scratched_abort (hu.trans (Prepared.of_setReg u .pc v)) h hb hq hr hx
  | false => exact trap_of_scratched_abort hu h.restorePc hb hq hr hx

/-- Settles O42: the pop that raises moves nothing, and what PC is left with follows from where each return loads it. -/
theorem abortedPops : Obligations.AbortedPops := by
  intro s c hs hb hq
  have hstart := Scratched.of_useScratch s
  refine ⟨fun u h hready => ⟨fun r => ?rts, fun i hi => ?first⟩, ?second⟩
  case rts =>
    have hloaded : Scratched (s.setReg .pc (s.reg r)) (s.useScratch.setReg .pc (s.reg r)) := hstart.setReg .pc _
    obtain ⟨n, -, hread⟩ := readWord_abort_congr (s := s.useScratch) (s' := s.useScratch.setReg .pc (s.reg r))
      hs hs rfl rfl rfl h
    have hbody := returnBody_of_abort (s := s.useScratch) (popWord_of_abort hread)
    exact trap_of_pop_abort (Addressed.refl s).prepared (hloaded.useFree n) hb hq hready
      ((exec_rts r s).trans (congrArg (finish s) hbody))
  case first =>
    have hread := readWord_abort (s := s.useScratch) hs h
    exact trap_of_scratched_abort (Addressed.refl s).prepared (hstart.of_read hread) hb hq hready
      (exec_return_of_abort hi (returnFromInterrupt_of_abort (popWord_of_abort h)))
  case second =>
    intro v s1 u hv s2 h hready i hi
    have hpopped : Scratched s s1 := hstart.of_read (readWord_state (s := s.useScratch) hs hv).2
    have hread := readWord_abort (s := (s1.setReg .sp (s.reg .sp + 2)).setReg .pc v) (hpopped.prepared.npr.trans hs) h
    have hloaded : Scratched (s2.setReg .pc v) u := ((hpopped.setReg .sp _).setReg .pc v).of_read hread
    have hbody := returnFromInterrupt_of_second_abort (popWord_of_ok (s := s.useScratch) hs hv) (popWord_of_abort h)
    exact trap_of_pop_abort (Prepared.of_setReg s .sp _) hloaded hb hq hready (exec_return_of_abort hi hbody)

end Sys2Proof.Machine
end

section
/-! Results and condition codes of the single-operand and the logical operations (R141, R143 to R169, R181, R185 to R189),
at every width. -/

namespace Sys2Proof

theorem Size.bits_pos (sz : Size) : 0 < sz.bits := by cases sz <;> decide

namespace Machine

open Sys2Proof.Config Sys2Proof.Safety

section
variable {w : Nat} (f : Cc) (old : BitVec w)

/-! ### N and Z -/

/-- N says that the result is negative, Z that it is zero (R37). -/
theorem aluResult_cc (v c : Bool) :
    (aluResult old v c).cc = { n := decide (old.toInt < 0), z := decide (old = 0), v := v, c := c } := by
  rw [aluResult, BitVec.msb_eq_toInt]

theorem aluResult_n (v c : Bool) : (aluResult old v c).cc.n = decide (old.toInt < 0) :=
  congrArg Cc.n (aluResult_cc old v c)

/-! ### The ends of the signed range -/

/-- A number has its own value in `w` bits exactly when it lies in the signed range. -/
theorem toInt_ofInt_ne_iff (hw : 0 < w) (x : Int) :
    (BitVec.ofInt w x).toInt ≠ x ↔ x < -2 ^ (w - 1) ∨ 2 ^ (w - 1) ≤ x := by
  constructor
  · intro h
    by_contra hin
    exact h (BitVec.toInt_ofInt_eq_self hw (by omega) (by omega))
  · intro h heq
    have hlo := BitVec.le_toInt (BitVec.ofInt w x)
    have hhi := BitVec.toInt_lt (x := BitVec.ofInt w x)
    omega

theorem getLsbD_minNeg (w i : Nat) : (minNeg w).getLsbD i = decide (i + 1 = w) := BitVec.getLsbD_intMin w

theorem eq_minNeg_iff_toInt (hw : 0 < w) : old = minNeg w ↔ old.toInt = -2 ^ (w - 1) := by
  rw [← BitVec.toInt_intMin_of_pos hw, BitVec.toInt_inj]
  rfl

theorem eq_minNeg_iff_toNat (hw : 0 < w) : old = minNeg w ↔ old.toNat = 2 ^ (w - 1) := by
  rw [← BitVec.toNat_intMin_of_pos hw, BitVec.toNat_inj]
  rfl

theorem maxPos_eq_intMax (w : Nat) : maxPos w = BitVec.intMax w := by
  apply BitVec.eq_of_getLsbD_eq
  intro i hi
  rw [maxPos, BitVec.getLsbD_not, getLsbD_minNeg, BitVec.getLsbD_intMax, ← decide_not, ← Bool.decide_and, decide_eq_decide]
  omega

theorem eq_maxPos_iff_toInt : old = maxPos w ↔ old.toInt = 2 ^ (w - 1) - 1 := by
  rw [← BitVec.toInt_intMax, BitVec.toInt_inj, maxPos_eq_intMax]

theorem add_one_overflows_iff (hw : 0 < w) : (old + 1).toInt ≠ old.toInt + 1 ↔ old = maxPos w := by
  have hres : old + 1 = BitVec.ofInt w (old.toInt + 1) := by
    rw [BitVec.ofInt_add, BitVec.ofInt_toInt]
    rfl
  have hlo := old.le_toInt
  have hhi := old.toInt_lt
  rw [hres, toInt_ofInt_ne_iff hw, eq_maxPos_iff_toInt]
  omega

theorem sub_one_overflows_iff (hw : 0 < w) : (old - 1).toInt ≠ old.toInt - 1 ↔ old = minNeg w := by
  have hres : old - 1 = BitVec.ofInt w (old.toInt - 1) := by
    rw [Int.sub_eq_add_neg, BitVec.ofInt_add, BitVec.ofInt_neg, BitVec.ofInt_toInt, BitVec.sub_eq_add_neg]
    rfl
  have hlo := old.le_toInt
  have hhi := old.toInt_lt
  rw [hres, toInt_ofInt_ne_iff hw, eq_minNeg_iff_toInt old hw]
  omega

theorem neg_overflows_iff (hw : 0 < w) : (-old).toInt ≠ -old.toInt ↔ old = minNeg w := by
  have hres : -old = BitVec.ofInt w (-old.toInt) := by
    rw [BitVec.ofInt_neg, BitVec.ofInt_toInt]
  have hlo := old.le_toInt
  have hhi := old.toInt_lt
  rw [hres, toInt_ofInt_ne_iff hw, eq_minNeg_iff_toInt old hw]
  omega

/-! ### The carry -/

theorem toNat_carryIn (hw : 0 < w) (c : Bool) : (carryIn w c).toNat = if c then 1 else 0 := by
  cases c with
  | false => exact BitVec.toNat_zero
  | true => exact BitVec.toNat_one hw

/-- Adding the carry carries out of the width only from a number of ones. -/
theorem eq_allOnes_iff_toNat : old = BitVec.allOnes w ↔ 2 ^ w ≤ old.toNat + 1 := by
  have := old.isLt
  rw [← BitVec.toNat_inj, BitVec.toNat_allOnes]
  omega

/-! ### INC, DEC, NEG, ADC and SBC -/

theorem aluInc_v_iff (hw : 0 < w) : (aluInc f old).cc.v = true ↔ (aluInc f old).res.toInt ≠ old.toInt + 1 :=
  decide_eq_true_iff.trans (add_one_overflows_iff old hw).symm

theorem aluDec_v_iff (hw : 0 < w) : (aluDec f old).cc.v = true ↔ (aluDec f old).res.toInt ≠ old.toInt - 1 :=
  decide_eq_true_iff.trans (sub_one_overflows_iff old hw).symm

theorem aluNeg_v_iff (hw : 0 < w) : (aluNeg f old).cc.v = true ↔ (aluNeg f old).res.toInt ≠ -old.toInt :=
  decide_eq_true_iff.trans (BitVec.neg_eq_intMin.trans (neg_overflows_iff old hw).symm)

theorem aluAdc_toNat (hw : 0 < w) :
    (aluAdc f old).res.toNat = (old.toNat + if f.c then 1 else 0) % 2 ^ w := by
  rw [← toNat_carryIn hw]
  exact BitVec.toNat_add _ _

theorem aluAdc_v_iff (hw : 0 < w) : (aluAdc f old).cc.v = true ↔
    (aluAdc f old).res.toInt ≠ old.toInt + ((if f.c then 1 else 0 : Nat) : Int) := by
  cases hc : f.c with
  | false => simp [aluAdc, aluResult, carryIn, hc]
  | true => simpa [aluAdc, aluResult, carryIn, hc] using (add_one_overflows_iff old hw).symm

theorem aluAdc_c_iff : (aluAdc f old).cc.c = true ↔ 2 ^ w ≤ old.toNat + if f.c then 1 else 0 := by
  have := old.isLt
  cases hc : f.c with
  | false => simpa [aluAdc, aluResult, hc] using this
  | true => simpa [aluAdc, aluResult, hc] using eq_allOnes_iff_toNat old

theorem aluSbc_toNat (needs : Bool) (hw : 0 < w) :
    (aluSbc needs f old).res.toNat = (old.toNat + (2 ^ w - if f.c then 1 else 0)) % 2 ^ w := by
  rw [← toNat_carryIn hw, Nat.add_comm]
  exact BitVec.toNat_sub _ _

theorem aluSbc_v_iff (needs : Bool) (hw : 0 < w) :
    (aluSbc needs f old).cc.v = true ↔ old.toNat = 2 ^ (w - 1) ∧ (needs = true → f.c = true) := by
  rw [← eq_minNeg_iff_toNat old hw]
  cases needs <;> simp [aluSbc, aluResult]

theorem aluSbc_c_iff (needs : Bool) : (aluSbc needs f old).cc.c = true ↔ old.toNat < if f.c then 1 else 0 := by
  cases hc : f.c <;> simp [aluSbc, aluResult, hc, ← BitVec.toNat_inj]

/-! ### Rotates and shifts -/

theorem getLsbD_carryIn (hw : 0 < w) (c : Bool) (i : Nat) : (carryIn w c).getLsbD i = (c && decide (i = 0)) := by
  cases c <;> simp [carryIn, hw]

/-- A shift to the right brings in `top` at the sign bit. -/
theorem getLsbD_shiftRight_one (top : Bool) (i : Nat) :
    ((if top then minNeg w else 0) ||| old >>> 1).getLsbD i = if i + 1 = w then top else old.getLsbD (i + 1) := by
  rw [BitVec.getLsbD_or, BitVec.getLsbD_ushiftRight, Nat.add_comm 1 i]
  by_cases h : i + 1 = w
  · have hpast : old.getLsbD (i + 1) = false := BitVec.getLsbD_of_ge old _ h.ge
    rw [if_pos h, hpast, Bool.or_false]
    cases top <;> simp [getLsbD_minNeg, h]
  · cases top <;> simp [getLsbD_minNeg, h]

/-- ASR keeps the sign bit, as ROR would with C holding it. -/
theorem and_minNeg : old &&& minNeg w = if old.msb then minNeg w else 0 := by
  apply BitVec.eq_of_getLsbD_eq
  intro i _
  rw [BitVec.getLsbD_and, getLsbD_minNeg]
  by_cases h : i + 1 = w
  · have hsign : old.getLsbD i = old.msb := by rw [BitVec.msb_eq_getLsbD_last, show w - 1 = i by omega]
    rw [hsign]
    cases old.msb
    · simp
    · simp [getLsbD_minNeg]
  · cases old.msb <;> simp [h, getLsbD_minNeg]

/-- A shift to the left brings in `low` at bit 0. -/
theorem getLsbD_shiftLeft_one (low : Bool) {i : Nat} (hi : i < w) :
    (old <<< 1 ||| carryIn w low).getLsbD i = if i = 0 then low else old.getLsbD (i - 1) := by
  rw [BitVec.getLsbD_or, BitVec.getLsbD_shiftLeft, getLsbD_carryIn (by omega)]
  by_cases h : i = 0 <;> simp [h, hi]

theorem aluRor_getLsbD (i : Nat) :
    (aluRor f old).res.getLsbD i = if i + 1 = w then f.c else old.getLsbD (i + 1) :=
  getLsbD_shiftRight_one old f.c i

theorem aluAsr_getLsbD (i : Nat) :
    (aluAsr f old).res.getLsbD i = if i + 1 = w then old.msb else old.getLsbD (i + 1) := by
  rw [← getLsbD_shiftRight_one old old.msb i, ← and_minNeg]
  rfl

theorem aluRol_getLsbD {i : Nat} (hi : i < w) :
    (aluRol f old).res.getLsbD i = if i = 0 then f.c else old.getLsbD (i - 1) :=
  getLsbD_shiftLeft_one old f.c hi

theorem aluAsl_getLsbD {i : Nat} (hi : i < w) :
    (aluAsl f old).res.getLsbD i = if i = 0 then false else old.getLsbD (i - 1) := by
  rw [← getLsbD_shiftLeft_one old false hi]
  exact congrArg (BitVec.getLsbD · i) (BitVec.or_zero).symm

/-- A rotate or shift sets N and Z from its result and V from N and C. -/
theorem aluShift_cc (out : Bool) :
    (aluShift old out).cc.n = (aluShift old out).res.msb ∧
    (aluShift old out).cc.z = decide ((aluShift old out).res = 0) ∧
    (aluShift old out).cc.v = xor (aluShift old out).cc.n (aluShift old out).cc.c :=
  ⟨rfl, rfl, rfl⟩

end

theorem aluSwab_cc (f : Cc) (old : Word) :
    (aluSwab f old).cc = { n := old.getLsbD 15, z := decide (old.toNat < 0o400), v := false, c := false } := by
  have hn : (highByte old).msb = old.getLsbD 15 := by
    simp [highByte, BitVec.msb_eq_getLsbD_last]
  have hz : decide (highByte old = 0) = decide (old.toNat < 0o400) := stackLow_eq old
  rw [aluSwab, hn, hz]

/-! ### The statements -/

/-- Settles O17: the result leaves the signed range only from an end of it, and the unsigned range only from 0 or from a
number of ones. -/
theorem stepNegateCarryFlags : Obligations.StepNegateCarryFlags := by
  intro sz f old needs k
  have hw := sz.bits_pos
  refine ⟨⟨rfl, aluInc_v_iff f old hw, rfl, aluResult_n .., rfl⟩, ⟨rfl, aluDec_v_iff f old hw, rfl, aluResult_n .., rfl⟩,
    ⟨?negResult, aluNeg_v_iff f old hw, decide_eq_true_iff, aluResult_n .., rfl⟩,
    ⟨aluAdc_toNat f old hw, aluAdc_v_iff f old hw, aluAdc_c_iff f old, aluResult_n .., rfl⟩,
    aluSbc_toNat f old needs hw, aluSbc_c_iff f old needs, aluSbc_v_iff f old needs hw, aluResult_n .., rfl⟩
  case negResult => exact (BitVec.zero_sub old).symm

/-- Settles O18: each operation is the Boolean one on the bits. -/
theorem logicalResults : Obligations.LogicalResults := by
  intro sz f src dst
  refine ⟨fun a ha => ?codes, rfl, ?clr, rfl, rfl, rfl, rfl, rfl, rfl, rfl, rfl, fun i hi => ?bits⟩
  case codes =>
    simp only [List.mem_cons, List.not_mem_nil, or_false] at ha
    rcases ha with rfl | rfl | rfl | rfl | rfl | rfl <;> exact ⟨aluResult_n .., rfl, rfl⟩
  case clr => simp [aluClr, aluResult]
  case bits =>
    have hcom : (~~~ dst).getLsbD i = !dst.getLsbD i := by simp [hi]
    have hbic : (~~~ src &&& dst).getLsbD i = (!src.getLsbD i && dst.getLsbD i) := by simp [hi]
    exact ⟨hcom, BitVec.getLsbD_and, hbic, BitVec.getLsbD_or⟩

/-- Settles O19: a shift by one with the bit that comes in, and the bytes of SWAB. -/
theorem shiftAndSwapResults : Obligations.ShiftAndSwapResults := by
  refine ⟨fun f old => ⟨lowByte_append _ _, highByte_append _ _, aluSwab_cc f old⟩, fun sz f old => ?shifts⟩
  refine ⟨fun a ha => ?codes, rfl, rfl, rfl, rfl, fun i hi =>
    ⟨aluRor_getLsbD f old i, aluAsr_getLsbD f old i, aluRol_getLsbD f old hi, aluAsl_getLsbD f old hi⟩⟩
  simp only [List.mem_cons, List.not_mem_nil, or_false] at ha
  rcases ha with rfl | rfl | rfl | rfl <;> exact aluShift_cc _ _

end Machine

end Sys2Proof
end

section
/-! Single-operand instructions that only load a register or the condition codes (R140, R157, R158). -/

namespace Sys2Proof.Machine

open Sys2Proof.Config Sys2Proof.Safety

/-- Settles O20: the whole register is rewritten. -/
theorem wordModifyRegister : Obligations.WordModifyRegister := by
  intro p hp r s out
  have hbody : modifyOperand .word (.reg r) (p.2 s.inst.params) s.useScratch =
      .ok () ((s.useScratch.setCc out.cc).setReg r out.res) := modifyOperand_reg .word r _ _
  exact ⟨_, (exec_wordModify hp _ s).trans (instruction_of_ok hbody),
    loadsRegister_of_prepared (Prepared.of_useScratch s) r out.res out.cc⟩

/-- What an instruction leaves that, once its operands are read, loads the condition codes only. -/
theorem onlyFlags_of_prepared {s p : State} (hp : Prepared s p) (f : Cc) :
    OnlyFlags f s p ((p.setCc f).complete s.tBit) := by
  refine ⟨fun _ => rfl, ?cc, ?priority, fun a => congrArg (Memory.read · a.toNat) hp.mem, rfl, completed_of hp rfl⟩
  case cc => rw [State.cc_complete, State.cc_setCc]
  case priority => rw [SamePriority, State.psw_complete, State.high_psw_setCc, hp.psw]

theorem aluTst_cc {w : Nat} (f : Cc) (v : BitVec w) :
    (aluTst f v).cc = { n := decide (v.toInt < 0), z := decide (v = 0), v := false, c := false } :=
  aluResult_cc v false false

/-- At either size, a test loads the condition codes of the value read and writes nothing. -/
theorem test_onlyFlags {sz : Size} {o : Operand} {s s1 : State} {v : BitVec sz.bits} (hs : s.npr = [])
    (h : readOperand sz o s.useScratch = .ok v s1) :
    ∃ t, exec (test sz o) s = .next t ∧
      OnlyFlags { n := decide (v.toInt < 0), z := decide (v = 0), v := false, c := false } s s1 t := by
  rw [← aluTst_cc s1.cc]
  have hbody : testBody sz o s.useScratch = .ok () (s1.setCc (aluTst s1.cc v).cc) := by
    rw [testBody, h, Res.andThen_ok]
  exact ⟨_, (exec_test sz o s).trans (congrArg (finish s) hbody),
    onlyFlags_of_prepared ((Prepared.of_useScratch s).of_readOperand hs h) _⟩

/-- Settles O25: the operand is read, and nothing else done. -/
theorem testOperand : Obligations.TestOperand :=
  fun _ _ _ hs => ⟨fun _ h => test_onlyFlags (sz := .word) hs h, fun _ h => test_onlyFlags (sz := .byte) hs h⟩

end Sys2Proof.Machine
end

section
/-! Addition, subtraction and comparison (R183, R184, R191, R192): their results and condition codes by exact arithmetic,
at every width; and the instructions that only compare (R183 to R186). -/

namespace Sys2Proof.Machine

open Sys2Proof.Config Sys2Proof.Safety

section
variable {w : Nat} (f : Cc) (x y : BitVec w)

/-! ### Signed overflow -/

theorem saddOverflow_iff (hw : 0 < w) : x.saddOverflow y = true ↔ (x + y).toInt ≠ x.toInt + y.toInt := by
  have hres : x + y = BitVec.ofInt w (x.toInt + y.toInt) := by
    rw [BitVec.ofInt_add, BitVec.ofInt_toInt, BitVec.ofInt_toInt]
  rw [hres, toInt_ofInt_ne_iff hw, BitVec.saddOverflow, Bool.or_eq_true, decide_eq_true_iff, decide_eq_true_iff, or_comm]

theorem ssubOverflow_iff (hw : 0 < w) : x.ssubOverflow y = true ↔ (x - y).toInt ≠ x.toInt - y.toInt := by
  have hres : x - y = BitVec.ofInt w (x.toInt - y.toInt) := by
    rw [Int.sub_eq_add_neg, BitVec.ofInt_add, BitVec.ofInt_neg, BitVec.ofInt_toInt, BitVec.ofInt_toInt,
      BitVec.sub_eq_add_neg]
  rw [hres, toInt_ofInt_ne_iff hw, BitVec.ssubOverflow, Bool.or_eq_true, decide_eq_true_iff, decide_eq_true_iff, or_comm]

/-! ### `x + ~y + 1` as a subtraction -/

theorem ofNat_subSum : BitVec.ofNat w (subSum x y) = x - y := by
  rw [subSum, BitVec.ofNat_add, BitVec.ofNat_add, BitVec.ofNat_toNat, BitVec.ofNat_toNat, BitVec.setWidth_eq,
    BitVec.setWidth_eq, BitVec.add_assoc, ← BitVec.neg_eq_not_add, ← BitVec.sub_eq_add_neg]

/-- No carry out of `x + ~y + 1` is a borrow of `x - y`. -/
theorem subSum_lt_iff : subSum x y < 2 ^ w ↔ x.toNat < y.toNat := by
  have := y.isLt
  rw [subSum, BitVec.toNat_not]
  omega

/-! ### ADD -/

theorem aluAdd_res : (aluAdd x f y).res = x + y := (BitVec.add_def x y).symm

theorem aluAdd_v : (aluAdd x f y).cc.v = x.saddOverflow y := by
  rw [BitVec.saddOverflow_eq, BitVec.add_def]
  simp [aluAdd, aluResult, beq_eq_decide]

theorem aluAdd_v_iff (hw : 0 < w) :
    (aluAdd x f y).cc.v = true ↔ (aluAdd x f y).res.toInt ≠ x.toInt + y.toInt := by
  rw [aluAdd_v, aluAdd_res]
  exact saddOverflow_iff x y hw

/-! ### CMP, and SUB as CMP with its operands exchanged -/

theorem aluCmp_res : (aluCmp x f y).res = x - y := ofNat_subSum x y

/-- The signed difference overflows when the operands differ in sign and the result has the sign of the one subtracted. -/
theorem aluCmp_v : (aluCmp x f y).cc.v = x.ssubOverflow y := by
  have hv : (aluCmp x f y).cc.v = (decide (x.msb ≠ y.msb) && decide (y.msb = (x - y).msb)) := by
    rw [← ofNat_subSum]
    rfl
  rw [hv, BitVec.ssubOverflow_eq]
  cases x.msb <;> cases y.msb <;> simp

theorem aluCmp_v_iff (hw : 0 < w) :
    (aluCmp x f y).cc.v = true ↔ (aluCmp x f y).res.toInt ≠ x.toInt - y.toInt := by
  rw [aluCmp_v, aluCmp_res]
  exact ssubOverflow_iff x y hw

theorem aluCmp_c_iff : (aluCmp x f y).cc.c = true ↔ x.toNat < y.toNat :=
  decide_eq_true_iff.trans (subSum_lt_iff x y)

/-- A comparison is the subtraction `x - y` by exact arithmetic. -/
theorem aluCmp_subtracts (hw : 0 < w) : let a := aluCmp x f y
    a.res = x - y ∧ (a.cc.c = true ↔ x.toNat < y.toNat) ∧ (a.cc.v = true ↔ a.res.toInt ≠ x.toInt - y.toInt) ∧
    a.cc.n = decide (a.res.toInt < 0) ∧ a.cc.z = decide (a.res = 0) :=
  ⟨aluCmp_res f x y, aluCmp_c_iff f x y, aluCmp_v_iff f x y hw, aluResult_n .., rfl⟩

theorem aluSub_eq_aluCmp : aluSub x f y = aluCmp y f x := by
  simp only [aluSub, aluCmp, ne_comm (a := x.msb)]

end

/-- Settles O16: V is the signed overflow of the sum or the difference, and the borrow is the carry that does not come. -/
theorem addSubtractCompareFlags : Obligations.AddSubtractCompareFlags := by
  intro sz f src dst
  have hw := sz.bits_pos
  refine ⟨?add, ?sub, aluCmp_subtracts f src dst hw⟩
  case add => exact ⟨aluAdd_res f src dst, decide_eq_true_iff, aluAdd_v_iff f src dst hw, aluResult_n .., rfl⟩
  case sub =>
    rw [aluSub_eq_aluCmp]
    exact aluCmp_subtracts f dst src hw

/-- The destination is read in the state that the source has left (R180). -/
theorem compareBody_of_ok {sz : Size} {src dst : Operand} {f : BitVec sz.bits → Cc → BitVec sz.bits → Alu sz.bits}
    {s s1 s2 : State} {a b : BitVec sz.bits} (ha : readSource sz src s = .ok a s1)
    (hb : readOperand sz dst s1 = .ok b s2) : compareBody sz src dst f s = .ok () (s2.setCc (f a s2.cc b).cc) := by
  rw [compareBody, ha, Res.andThen_ok, hb, Res.andThen_ok]

/-- At either size, a comparison loads the condition codes of its operands and writes nothing. -/
theorem compare_onlyFlags {sz : Size} {src dst : Operand} {s s1 s2 : State} {a b : BitVec sz.bits}
    {p : (Operand → Operand → Instr) × (BitVec sz.bits → Cc → BitVec sz.bits → Alu sz.bits)}
    (hmem : p ∈ compareFamily sz) (hs : s.npr = []) (ha : readSource sz src s.useScratch = .ok a s1)
    (hb : readOperand sz dst s1 = .ok b s2) :
    ∃ t, exec (p.1 src dst) s = .next t ∧ OnlyFlags (p.2 a s.cc b).cc s s2 t := by
  have hsource : Prepared s s1 := prepared_of_source hs ha
  have hp : Prepared s s2 := hsource.of_readOperand hs hb
  rw [← hp.cc]
  exact ⟨_, (exec_compare hmem src dst s).trans (congrArg (finish s) (compareBody_of_ok ha hb)),
    onlyFlags_of_prepared hp _⟩

/-- Settles O26: each of them is a comparison of its family. -/
theorem compareOperands : Obligations.CompareOperands :=
  fun _ _ _ _ _ hs => ⟨fun _ hmem _ _ => compare_onlyFlags (sz := .word) hmem hs,
    fun _ hmem _ _ => compare_onlyFlags (sz := .byte) hmem hs⟩

end Sys2Proof.Machine
end

section
/-! BR and the fourteen conditional branches (R200 to R217): one body, with the test of each. -/

namespace Sys2Proof.Machine

open Sys2Proof.Config Sys2Proof.Safety

section
variable {p : (Byte → Instr) × (Cc → Prop)}

/-- The offset stands in bits 7:0 of the word of every branch (R201). -/
theorem offset_encode_branch (hp : p ∈ branches) (offset : Byte) :
    (encode (p.1 offset)).extractLsb' 0 8 = offset := by
  suffices h : ∃ op, encode (p.1 offset) = encodeByteOp op offset by
    obtain ⟨op, h⟩ := h
    rw [h]
    exact low_byteOp op offset
  simp only [branches, List.mem_cons, List.not_mem_nil, or_false] at hp
  rcases hp with rfl | rfl | rfl | rfl | rfl | rfl | rfl | rfl | rfl | rfl | rfl | rfl | rfl | rfl | rfl <;>
    exact ⟨_, rfl⟩

/-- The branches are one body, and the bit that each computes from the condition codes is its condition in R203. -/
theorem exec_branch (hp : p ∈ branches) (offset : Byte) (s : State) :
    ∃ taken : Bool, (taken = true ↔ p.2 s.cc) ∧
      exec (p.1 offset) s = finish s (branchBody taken offset s.useScratch) := by
  simp only [branches, List.mem_cons, List.not_mem_nil, or_false] at hp
  rcases hp with rfl | rfl | rfl | rfl | rfl | rfl | rfl | rfl | rfl | rfl | rfl | rfl | rfl | rfl | rfl
  all_goals
    refine ⟨_, ?_, instruction_eq_finish (branchBody _ offset) s⟩
    simp

end

theorem branchTarget_eq (offset : Byte) (s : State) :
    branchTarget offset s = s.reg .pc + BitVec.ofInt 16 (2 * offset.toInt) := by
  rw [branchTarget, BitVec.ofInt_mul, BitVec.mul_comm]
  rfl

namespace ProgramControl

/-- Settles O33: by whether the branch is taken, which is whether its condition holds. -/
theorem branches : Obligations.Branches := by
  intro p hp offset s
  refine ⟨offset_encode_branch hp offset, ?_⟩
  obtain ⟨taken, htaken, hx⟩ := exec_branch hp offset s
  have hstart := Prepared.of_useScratch s
  cases taken with
  | false =>
    have hno : ¬ p.2 s.cc := fun h => Bool.noConfusion (htaken.2 h)
    exact ⟨_, hx, fun h => absurd h hno, fun _ => rfl, fun _ _ => rfl, rfl, hstart.onlyRegisters⟩
  | true =>
    have hyes : p.2 s.cc := htaken.1 rfl
    exact ⟨_, hx, fun _ => branchTarget_eq offset s, fun h => absurd hyes h,
      fun q hq => State.reg_setReg_of_ne s.useScratch _ hq, rfl,
      (hstart.trans (Prepared.of_setReg _ .pc _)).onlyRegisters⟩

end ProgramControl

end Sys2Proof.Machine
end

section
/-! JSR (R218): the push of the link register is stored, then the link register and PC are loaded. -/

namespace Sys2Proof.Machine

open Sys2Proof.Config Sys2Proof.Safety

/-- The stack limit as the push of R6 checks it (R271). -/
theorem State.stackOverflow_pushDown (s : State) : (s.pushDown true).pending.stackOverflow =
    (s.pending.stackOverflow || decide ((s.reg .sp - 2).toNat < 0o400)) := by
  rw [State.pushDown_eq, ← stackLow_eq]
  rfl

/-- With SP as the link register the decremented value is pushed (D17). -/
theorem State.reg_pushDown (s : State) (checked : Bool) (q : Reg) :
    (s.pushDown checked).reg q = if q = .sp then s.reg .sp - 2 else s.reg q := by
  split
  case isTrue h => rw [h, State.sp_pushDown]
  case isFalse h => exact State.reg_pushDown_of_ne s checked h

/-- What JSR comes to once its address is computed and the link register is pushed. -/
theorem callBody_of_ok {link : Reg} {m : MemMode} {r : Reg} {s s1 u t : State} {e : Word × Word}
    (he : eaOf m r .word s = .ok e s1) (hu : (s1.bump r e.2).pushDown true = u)
    (hw : writeWord (u.reg .sp) (u.reg link) u = .ok () t) :
    callBody link m r s = .ok () ((t.setReg link (t.reg .pc)).setReg .pc e.1) := by
  rw [callBody, addressOperand, he, Res.andThen_ok, Res.andThen_ok]
  simp only [hu, hw, Res.andThen_ok]

/-- Settles O35: the push is a store from the state in which R6 is decremented, and the two loads that follow it touch
neither memory nor the PSW. -/
theorem jumpToSubroutine : Obligations.JumpToSubroutine := by
  intro link m r s ea inc s1 hs he s2 sp pushed hodd hans
  let u := s2.pushDown true
  have hp : Prepared s u :=
    (((Prepared.of_useScratch s).of_eaOf hs he).trans (Addressed.of_bump s1 r inc).prepared).of_pushDown true
  have hsp : u.reg .sp = sp := State.sp_pushDown s2 true
  have hlink : u.reg link = pushed := State.reg_pushDown s2 true link
  obtain ⟨t, hput, hstored, hpsw, mem, w, n, ht⟩ :=
    putMem_stored .word pushed (fun _ => hodd) ((answersWrite_congr hp.inst sp).trans hans)
  have hw : writeWord (u.reg .sp) (u.reg link) u = .ok () t := by
    rw [hsp, hlink, writeWord_alone (hp.npr.trans hs)]
    exact hput
  have hbody : callBody link m r s.useScratch = .ok () ((t.setReg link (t.reg .pc)).setReg .pc ea) :=
    callBody_of_ok he rfl hw
  have hreg : ∀ q, t.reg q = u.reg q := fun q => by rw [ht]; rfl
  refine ⟨_, (exec_jsr link m r s).trans (congrArg (finish s) hbody), ?pc, fun hl => ?link, fun hl => ?sp,
    fun q hpc hqsp hql => ?others, Stored.of_prepared hp hstored s.tBit, ?psw, ?overflow, ?completed⟩
  case pc => exact State.reg_setReg_self (t.setReg link (t.reg .pc)) .pc ea
  case link =>
    rw [State.reg_complete, State.reg_setReg_of_ne _ _ hl, State.reg_setReg_self, hreg]
    exact State.reg_pushDown_of_ne s2 true (by decide)
  case sp =>
    rw [State.reg_complete, State.reg_setReg_of_ne _ _ (by decide), State.reg_setReg_of_ne _ _ (Ne.symm hl), hreg, hsp]
  case others =>
    rw [State.reg_complete, State.reg_setReg_of_ne _ _ hpc, State.reg_setReg_of_ne _ _ hql, hreg]
    exact State.reg_pushDown_of_ne s2 true hqsp
  case psw =>
    rw [← hp.cc]
    exact PswAfterStore.of_prepared hp hpsw s.tBit
  case overflow =>
    rw [ht]
    exact State.stackOverflow_pushDown s2
  case completed =>
    rw [ht]
    exact completed_of hp rfl

end Sys2Proof.Machine
end

section
/-! Returns whose pops succeed (R219, R227 to R229): RTS, RTI and RTT. -/

namespace Sys2Proof.Machine

open Sys2Proof.Config Sys2Proof.Safety

/-! ### RTS -/

theorem returnBody_of_ok {r : Reg} {s t : State} {v : Word} (h : popWord (s.setReg .pc (s.reg r)) = .ok v t) :
    returnBody r s = .ok () (t.setReg r v) := by
  simp only [returnBody, h]

/-- Settles O36: PC is loaded before the pop, which reads the same word, and the register after it. -/
theorem returnFromSubroutine : Obligations.ReturnFromSubroutine := by
  intro r s v s1 hs h
  let u := s.useScratch.setReg .pc (s.reg r)
  obtain ⟨n, -, hread⟩ := readWord_ok_congr (s := s.useScratch) (s' := u) hs hs rfl rfl rfl rfl h
  let t := (u.useFree n).setReg .sp (s.reg .sp + 2)
  have hbody : returnBody r s.useScratch = .ok () (t.setReg r v) := returnBody_of_ok (popWord_of_ok hs hread)
  have hp : Prepared s (t.setReg r v) := ⟨_, _, _, _, _, _, _, _, rfl⟩
  refine ⟨_, (exec_rts r s).trans (congrArg (finish s) hbody), State.reg_setReg_self t r v,
    fun hr => ?pc, fun hr => ?sp, fun q hpc hsp hq => ?others, rfl, hp.onlyRegisters⟩
  all_goals rw [State.reg_complete]
  case pc => exact State.reg_setReg_of_ne t v (Ne.symm hr)
  case sp => exact State.reg_setReg_of_ne t v (Ne.symm hr)
  case others =>
    rw [State.reg_setReg_of_ne t v hq, State.reg_setReg_of_ne _ _ hsp]
    exact State.reg_setReg_of_ne s.useScratch _ hpc

/-! ### RTI and RTT -/

/-- The state with PC and the PSW restored from the two words popped, R6 moved past both (R227). -/
def restored (newPc newPsw : Word) (s : State) : State :=
  ((s.setReg .sp (s.reg .sp + 4)).setReg .pc newPc).setPsw (lowByte newPsw)

theorem returnFromInterrupt_of_ok {s s1 s2 : State} {newPc newPsw : Word} (h1 : popWord s = .ok newPc s1)
    (h2 : popWord (s1.setReg .pc newPc) = .ok newPsw s2) :
    returnFromInterrupt s = .ok () (s2.setPsw (lowByte newPsw)) := by
  simp only [returnFromInterrupt, h1, Res.andThen_ok, h2]

/-- Two pops restore PC and the PSW, and change nothing else but what `Scratched` leaves open. -/
theorem returnFromInterrupt_restores {s s1 s2 : State} {newPc newPsw : Word} (hs : s.npr = [])
    (h1 : readWord .dati (s.reg .sp) s.useScratch = .ok newPc s1)
    (h2 : readWord .dati (s.reg .sp + 2) ((s1.setReg .sp (s.reg .sp + 2)).setReg .pc newPc) = .ok newPsw s2) :
    ∃ t, returnFromInterrupt s.useScratch = .ok () t ∧ Scratched (restored newPc newPsw s) t := by
  have hfirst : Scratched s s1 := (Scratched.of_useScratch s).of_read (readWord_state (s := s.useScratch) hs h1).2
  have hs1 : s1.npr = [] := hfirst.prepared.npr.trans hs
  have hread := readWord_state (s := (s1.setReg .sp (s.reg .sp + 2)).setReg .pc newPc) hs1 h2
  have hsecond := ((hfirst.setReg .sp (s.reg .sp + 2)).setReg .pc newPc).of_read hread.2
  refine ⟨_, returnFromInterrupt_of_ok (popWord_of_ok (s := s.useScratch) hs h1) (popWord_of_ok hs1 h2), ?_⟩
  obtain ⟨n, rfl⟩ := hsecond
  have hsp : s.reg .sp + 4 = s.reg .sp + 2 + 2 := by bv_omega
  rw [restored, hsp]
  exact ⟨n, rfl⟩

/-- RTI sets the trace flag to the T bit that it has loaded, RTT leaves the flag alone (R228, R229, D5). -/
theorem exec_return_of_ok {i : Instr} {s t : State} (hi : i = .rti ∨ i = .rtt)
    (h : returnFromInterrupt s.useScratch = .ok () t) :
    ∃ flag, exec i s = .next (t.setTrace flag) ∧
      (i = .rti → flag = t.tBit) ∧ (i = .rtt → flag = t.pending.trace) := by
  have ending (done : State → State) : instructionEnding done returnFromInterrupt s = .next (done t) := by
    rw [instructionEnding, h]
  obtain rfl | rfl := hi
  · exact ⟨_, ending _, fun _ => Bool.and_true t.tBit, fun h => Instr.noConfusion h⟩
  · exact ⟨_, ending id, fun h => Instr.noConfusion h, fun _ => rfl⟩

/-- Settles O41: both returns leave the state that the two pops restore, and differ in the trace flag alone. -/
theorem returnFromTrap : Obligations.ReturnFromTrap := by
  intro s newPc newPsw s1 s2 hs h1 h2 i hi
  obtain ⟨_, hbody, n, rfl⟩ := returnFromInterrupt_restores hs h1 h2
  obtain ⟨flag, hx, hrti, hrtt⟩ := exec_return_of_ok hi hbody
  have htBit : (lowByte newPsw).getLsbD 4 = newPsw.getLsbD 4 := by simp [lowByte]
  refine ⟨_, hx, rfl, rfl, rfl, fun q hpc hsp => ?others, fun _ => rfl, ?control, rfl,
    fun h => (hrti h).trans htBit, hrtt⟩
  case others => exact (State.reg_setReg_of_ne _ newPc hpc).trans (State.reg_setReg_of_ne s _ hsp)
  case control =>
    unfold SameControl
    and_intros <;> rfl

end Sys2Proof.Machine
end

section
/-! HALT and WAIT, the trap sequence, the interrupt and the console's halt and continue (R240, R241, R243, R244, R275,
R282, R283). -/

namespace Sys2Proof.Machine

open Sys2Proof.Config Sys2Proof.Safety

/-- Settles O43: both set the run state and complete, and HALT latches the lines, which completing leaves alone. -/
theorem haltAndWait : Obligations.HaltAndWait := fun _ => ⟨rfl, rfl⟩

/-! ### The trap sequence -/

/-- Settles O37: with stack and vector in plain memory the trap leaves `trapSequence_frame`'s state; a push is low when
its address is below 400. -/
theorem TrapRoutine.trapSequence : Obligations.TrapSequence := by
  intro checked v s hready t
  have htaken : TrapTaken v s t := trapTaken_of_ready checked hready
  refine ⟨htaken, ?_⟩
  rw [show t = _ from trapSequence_frame hready, ← stackLow_eq, ← stackLow_eq]
  exact ⟨⟨rfl, rfl, rfl, rfl, rfl, rfl, rfl, rfl, rfl, rfl, rfl⟩, rfl, rfl, rfl, rfl, rfl, rfl, rfl⟩

/-! ### The service point -/

/-- A service point that has something to do is the whole turn of a running or waiting processor (R260). -/
theorem processorTurn_of_service {s t : State} (hrun : s.runState = .run ∨ s.runState = .wait)
    (h : service s = some t) : processorTurn s = .next t := by
  obtain hrun | hwait := hrun
  · simp only [processorTurn, hrun, h]
  · simp only [processorTurn, hwait, h]

/-- Leaving a service point that no continue has resumed changes nothing. -/
theorem State.leaveService_of_not_passed {s : State} (h : s.haltPassed = false) : s.leaveService = s := by
  rw [State.leaveService, State.setHaltPassed, ← h]

/-- The halt switch, asserted and not yet granted, is granted when no flag is pending (R270, R283). -/
theorem service_of_haltRequest {s : State} (hpending : NothingPending s) (hhalt : s.haltRequest = true)
    (hpassed : s.haltPassed = false) :
    service s = some { s.enterService with
      haltRequest := false, runState := .haltGranted (decide (s.runState = .wait)) } := by
  have hflags : NothingPending s.enterService := hpending
  have hgrants : (s.enterService.haltRequest && !s.enterService.haltPassed) = true := by simp [hhalt, hpassed]
  have hleft : (grantHalt s.enterService).leaveService = grantHalt s.enterService :=
    State.leaveService_of_not_passed hpassed
  rw [service, arbitrate_of_nothingPending hflags, if_pos hgrants, Option.map_some, hleft]
  rfl

/-- The device granted drops its request. -/
def dropRequest (r : Request) (s : State) : State := s.setRequests (s.requests.erase r)

/-- With nothing of higher priority the granted request interrupts (R270, R282). -/
theorem service_of_grantedRequest {s : State} {r : Request} (hpending : NothingPending s)
    (hhalt : s.haltRequest = false) (hgranted : grantedRequest s.enterService = some r) :
    service s = some (trapSequence true r.vector (dropRequest r s.enterService)).leaveService := by
  have hflags : NothingPending s.enterService := hpending
  rw [service, arbitrate_of_nothingPending hflags, requestToGrant]
  simp only [State.haltRequest_enterService, hhalt, hgranted]
  rfl

/-- Of the requests on its level the one granted is the first of the list, the nearest the processor (U16). -/
theorem grantedRequest_split {s : State} {r : Request} (h : grantedRequest s = some r) :
    ∃ before after, s.requests = before ++ r :: after ∧ ∀ q ∈ before, q.level ≠ r.level := by
  obtain ⟨l, -, hl⟩ := List.exists_of_findSome?_eq_some h
  split at hl
  · obtain ⟨hr, before, after, hsplit, hbefore⟩ := List.find?_eq_some_iff_append.1 hl
    obtain rfl : r.level = l := of_decide_eq_true hr
    exact ⟨before, after, hsplit, fun q hq => by simpa using hbefore q hq⟩
  · cases hl

/-- What the granted request leaves of the list when it is dropped: none before it is on its level, so none is equal. -/
theorem requests_dropRequest {s : State} {r : Request} {before after : List Request}
    (hsplit : s.requests = before ++ r :: after) (hbefore : ∀ q ∈ before, q.level ≠ r.level) :
    (dropRequest r s).requests = before ++ after := by
  have hnot : r ∉ before := fun hr => hbefore r hr rfl
  simp only [dropRequest, State.requests_setRequests, hsplit, List.erase_append_right _ hnot, List.erase_cons_head]

/-- Settles O48: the step is the granted request's trap, taken from the state in which its device has dropped it, and
O37 says what that trap leaves. -/
theorem interruptTaken : Obligations.InterruptTaken := by
  refine ⟨fun s₀ s r hturn hrun hpending hhalt hgranted hready => ?taken,
    fun s rest r => ⟨fun n h => ?raise, fun h => ?withdraw⟩⟩
  case taken =>
    obtain ⟨before, after, hsplit, hbefore⟩ := grantedRequest_split hgranted
    have hstep := (step_of_turn hturn).trans
      (processorTurn_of_service hrun (service_of_grantedRequest hpending hhalt hgranted))
    obtain ⟨htaken, hkeeps, hb, hir, hrequests, hlatch, -, htrace, hoverflow⟩ :=
      TrapRoutine.trapSequence true r.vector (dropRequest r s.enterService) hready
    have hleft := hrequests.trans (requests_dropRequest hsplit hbefore)
    exact ⟨_, before, after, hstep, htaken, hkeeps, hir, hlatch, hsplit, hbefore, hleft, hb, htrace, hoverflow⟩
  case raise => simp only [step, h]; rfl
  case withdraw => simp only [step, h]; rfl

/-! ### The console -/

/-- What the console and the environment have arranged is in `t` as it is in `s`: the halt request, whether the service
point has granted it, the turns to come and what devices are still to do. -/
def SameArrangements (s t : State) : Prop :=
  t.haltRequest = s.haltRequest ∧ t.haltPassed = s.haltPassed ∧ t.agenda = s.agenda ∧ t.deviceActs = s.deviceActs

/-- No update that an instruction makes touches the arrangements. -/
theorem closedCore_sameArrangements (s : State) : ClosedCore (SameArrangements s) where
  regs _ _ h := h
  psw _ _ h := h
  hidden _ _ h := h
  pending _ _ h := h
  npr _ _ h := h
  free _ _ h := h
  memByte _ _ _ h _ _ _ := h
  memWord _ _ _ h _ _ _ _ := h
  ir _ _ h := h
  runState _ _ h := h
  brLatch _ _ h := h

/-- With nothing to service a turn executes one instruction, or waits on, past the service point (R270, D10). -/
theorem processorTurn_of_quiet {s : State} (hrun : s.runState = .run ∨ s.runState = .wait) (hquiet : Quiet s) :
    NextKeeps (SameArrangements (atFetch s)) (processorTurn s) := by
  have hstart : SameArrangements (atFetch s) (atFetch s) := ⟨rfl, rfl, rfl, rfl⟩
  intro t ht
  obtain hrun | hwait := hrun
  · simp only [processorTurn, hrun, service_of_quiet hquiet] at ht
    exact (closedCore_sameArrangements _).runInstruction (fun _ h => h) _ hstart t ht
  · simp only [processorTurn, hwait, service_of_quiet hquiet] at ht
    cases ht
    exact hstart

/-- In the processor's turn the halt request is granted: an entry of the agenda adds only what others do meanwhile. -/
theorem step_of_haltRequest {s u : State} (hturn : TurnOf s u) (hrun : s.runState = .run ∨ s.runState = .wait)
    (hpending : NothingPending s) (hhalt : s.haltRequest = true) (hpassed : s.haltPassed = false) :
    step s = .next { u.enterService with
      haltRequest := false, runState := .haltGranted (decide (s.runState = .wait)) } := by
  rw [step_of_turn hturn]
  obtain ⟨-, rfl⟩ | ⟨l, acts, rest, -, rfl⟩ := hturn
  · exact processorTurn_of_service hrun (service_of_haltRequest hpending hhalt hpassed)
  · exact processorTurn_of_service hrun (service_of_haltRequest hpending hhalt hpassed)

theorem step_consoleContinue {s : State} {rest : List Turn} (h : s.agenda = .other .consoleContinue :: rest) :
    step s = .next (consoleContinue { s with agenda := rest }) := by
  simp only [step, h]
  rfl

/-- Settles O50: a service point that has granted the halt request is quiet, the instruction that it lets through leaves
the request asserted and the service point behind, and so the next one grants it again. -/
theorem consoleContinues : Obligations.ConsoleContinues := by
  refine ⟨fun s rest => ⟨fun on h => ?switch, fun h => ?continues⟩,
    fun s₀ s t t' hturn hrun hpending hhalt hpassed hstep => ?held⟩
  case switch => simp only [step, h]; rfl
  case continues =>
    rw [step_consoleContinue h]
    refine ⟨fun hs => ?_, fun hs => ?_, fun hs => ?_⟩
    all_goals simp only [consoleContinue, hs]; rfl
  case held =>
    have hquiet : Quiet s := ⟨hpending, .inr ⟨hhalt, hpassed⟩⟩
    obtain ⟨hhalt', hpassed', hagenda, hacts⟩ :=
      processorTurn_of_quiet hrun hquiet t ((step_of_turn hturn).symm.trans hstep)
    have hheld : t.haltRequest = true := hhalt'.trans hhalt
    exact ⟨hquiet, hheld, hpassed', hagenda, hacts,
      fun hnone hnext hturn' => step_of_haltRequest hturn' hnext hnone hheld hpassed'⟩

end Sys2Proof.Machine
end

section
/-! The condition code operators (R250 to R252): they load PSW bits 3:0 and complete. -/

namespace Sys2Proof.Machine

open Sys2Proof.Config Sys2Proof.Safety

/-- LOAD CC on the PSW, bit by bit: the new condition codes below bit 4, the old PSW from there on (R250). -/
theorem getLsbD_loadCc (psw : Byte) (cc : BitVec 4) {i : Nat} (hi : i < 8) :
    (psw.extractLsb' 4 4 ++ cc).getLsbD i = if i < 4 then cc.getLsbD i else psw.getLsbD i := by
  rw [BitVec.getLsbD_append]
  by_cases hcc : i < 4
  · simp [hcc]
  · have hlow : i - 4 < 4 := by omega
    have hplace : 4 + (i - 4) = i := by omega
    simp [hcc, hlow, hplace]

/-- A PSW bit once the bits of the mask are cleared: the mask reaches none from bit 4 on (R251). -/
theorem getLsbD_clearCcBits (psw : Byte) (mask : BitVec 4) {i : Nat} (hi : i < 8) :
    (psw.extractLsb' 4 4 ++ (psw.extractLsb' 0 4 &&& ~~~ mask)).getLsbD i = (psw.getLsbD i && !mask.getLsbD i) := by
  rw [getLsbD_loadCc psw _ hi]
  split
  case isTrue hcc => simp [hcc]
  case isFalse hcc => simp [BitVec.getLsbD_of_ge mask i (by omega)]

/-- A PSW bit once the bits of the mask are set (R252). -/
theorem getLsbD_setCcBits (psw : Byte) (mask : BitVec 4) {i : Nat} (hi : i < 8) :
    (psw.extractLsb' 4 4 ++ (psw.extractLsb' 0 4 ||| mask)).getLsbD i = (psw.getLsbD i || mask.getLsbD i) := by
  rw [getLsbD_loadCc psw _ hi]
  split
  case isTrue hcc => simp [hcc]
  case isFalse hcc => simp [BitVec.getLsbD_of_ge mask i (by omega)]

/-- What either operator leaves: the PSW with its new condition codes, and all else that an instruction keeps. -/
theorem conditionCodes_loadPsw (f : BitVec 4 → BitVec 4) (s : State) :
    ∃ t, instruction (conditionCodesBody f) s = .next t ∧
      t.psw = s.psw.extractLsb' 4 4 ++ f (s.psw.extractLsb' 0 4) ∧ (∀ q, t.reg q = s.reg q) ∧ SameMemory s t ∧
      t.pending.stackOverflow = s.pending.stackOverflow ∧ Completed s t :=
  ⟨_, instruction_of_ok rfl, rfl, fun _ => rfl, fun _ => rfl, rfl, completed_of (Prepared.of_useScratch s) rfl⟩

/-- Settles O45: the words are those of the two operators, and what each loads is read bit by bit. -/
theorem conditionCodeOperators : Obligations.ConditionCodeOperators := by
  intro mask s
  refine ⟨decode_eq_iff.2 ⟨rfl, rfl⟩, decode_eq_iff.2 ⟨rfl, rfl⟩, ?clear, ?set⟩
  case clear =>
    obtain ⟨t, hx, hpsw, hkept⟩ := conditionCodes_loadPsw (fun cc => cc &&& ~~~ mask) s
    exact ⟨t, hx, fun _ hi => hpsw ▸ getLsbD_clearCcBits s.psw mask hi, hkept⟩
  case set =>
    obtain ⟨t, hx, hpsw, hkept⟩ := conditionCodes_loadPsw (fun cc => cc ||| mask) s
    exact ⟨t, hx, fun _ hi => hpsw ▸ getLsbD_setCcBits s.psw mask hi, hkept⟩

end Sys2Proof.Machine
end

section
/-! The service point as a whole: which flag it takes (R263, R270), which bus request it grants (R281, R285), and what its
pass and the processor's turn leave of the power lines, the requests and the halt request (R273, R311, R326). -/

namespace Sys2Proof.Machine

open Sys2Proof.Config Sys2Proof.Safety

/-! ### The flag of highest priority -/

/-- The trap of the pending flag of highest priority: whether its pushes are checked, its vector, and the flags left when it
alone is cleared (R263, R270 steps 2 to 6). -/
def flagTrap (i : Params) (p : Pending) : Option (Bool × Word × Pending) :=
  if p.busError then some (true, 0o4, { p with busError := false })
  else if p.parityError then some (true, 0o114, { p with parityError := false })
  else if p.trace then some (true, i.traceVector, { p with trace := false })
  else if p.stackOverflow then some (i.stovRetrigger, i.stackOverflowVector, { p with stackOverflow := false })
  else if p.powerFail then some (true, 0o24, { p with powerFail := false })
  else none

/-- There is none exactly when no flag is pending. -/
theorem flagTrap_eq_none_iff {s : State} {i : Params} : flagTrap i s.pending = none ↔ NothingPending s := by
  unfold NothingPending
  obtain ⟨busError, parityError, trace, stackOverflow, powerFail⟩ := s.pending
  simp only [flagTrap, Pending.mk.injEq, ite_eq_iff, reduceCtorEq, and_false, false_or, and_true, Bool.not_eq_true]

/-- A pending flag is serviced by its trap, before anything else (R270). -/
theorem arbitrate_of_flagTrap {s : State} {checked : Bool} {v : Word} {left : Pending}
    (h : flagTrap s.inst.params s.pending = some (checked, v, left)) :
    arbitrate s = some (trapSequence checked v (s.setPending left)) := by
  unfold flagTrap at h
  repeat' split at h
  all_goals cases h
  all_goals simp [arbitrate, serviceAbort, *]

/-- The whole pass: the requests are latched, the trap is taken, and the service point is left behind. -/
theorem service_of_flagTrap {s : State} {checked : Bool} {v : Word} {left : Pending}
    (h : flagTrap s.inst.params s.pending = some (checked, v, left)) :
    service s = some { trapSequence checked v (s.enterService.setPending left) with haltPassed := false } := by
  have hflags : flagTrap s.enterService.inst.params s.enterService.pending = some (checked, v, left) := h
  rw [service, arbitrate_of_flagTrap hflags]
  rfl

/-- Settles O46: each clause finds its flag the first in the order of `flagTrap`; with none, the halt request is granted. -/
theorem serviceOrder : Obligations.ServiceOrder := by
  intro s₀ s hturn hrun p takes
  have hstep {t : State} (h : service s = some t) : step s₀ = .next t :=
    (step_of_turn hturn).trans (processorTurn_of_service hrun h)
  have htakes {checked : Bool} {v : Word} {left : Pending} (h : flagTrap s.inst.params p = some (checked, v, left)) :
      takes checked v left := hstep (service_of_flagTrap h)
  refine ⟨fun hbus => ?_, fun hbus hparity => ?_, fun hbus hparity htrace => ?_,
    fun hbus hparity htrace hstack => ?_, fun hbus hparity htrace hstack hpower => ?_,
    fun hpending hhalt hpassed => hstep (service_of_haltRequest hpending hhalt hpassed)⟩
  all_goals apply htakes; simp only [flagTrap, Bool.false_eq_true, if_true, if_false, *]

/-! ### The request granted -/

/-- A device asks for an interrupt on a level that the service point has latched (R285). -/
def Asks (s : State) (q : Request) : Prop := q ∈ s.requests ∧ s.brLatch.holds q.level = true

/-- The request that a level offers, if it is latched and above PRI. -/
def offered (s : State) (l : BrLevel) : Option Request :=
  if s.brLatch.holds l && decide (s.pri < l.num) then s.requests.find? (fun r => decide (r.level = l)) else none

/-- The levels, the highest first (R281). -/
def levels : List BrLevel := [.br7, .br6, .br5, .br4]

theorem mem_levels (l : BrLevel) : l ∈ levels := by cases l <;> decide

theorem levels_descending : levels.Pairwise fun l m => m.num ≤ l.num := by decide

theorem grantedRequest_eq (s : State) : grantedRequest s = levels.findSome? (offered s) := rfl

/-- A level offers nothing exactly when PRI masks whatever asks on it. -/
theorem offered_eq_none_iff {s : State} {l : BrLevel} :
    offered s l = none ↔ ∀ q, Asks s q → q.level = l → l.num ≤ s.pri := by
  unfold offered
  split
  case isTrue h =>
    obtain ⟨hlatched, habove⟩ : s.brLatch.holds l = true ∧ s.pri < l.num := by simpa using h
    simp only [List.find?_eq_none, decide_eq_true_eq]
    constructor
    · exact fun hnone q hq hl => absurd hl (hnone q hq.1)
    · rintro hmasked q hq rfl
      exact absurd habove (Nat.not_lt.2 (hmasked q ⟨hq, hlatched⟩ rfl))
  case isFalse h =>
    refine iff_of_true rfl ?_
    rintro q ⟨-, hlatched⟩ rfl
    simpa [hlatched] using h

/-- No request is granted exactly when PRI masks all that ask (R281). -/
theorem grantedRequest_eq_none_iff {s : State} : grantedRequest s = none ↔ ∀ q, Asks s q → q.level.num ≤ s.pri := by
  simp only [grantedRequest_eq, List.findSome?_eq_none_iff, offered_eq_none_iff]
  constructor
  · exact fun h q hq => h q.level (mem_levels _) q hq rfl
  · rintro h _ - q hq rfl
    exact h q hq

/-- Whatever asks is on the level of the one granted or on a lower one: the levels before it offered nothing, though they
are above PRI as it is (R281). -/
theorem grantedRequest_highest {s : State} {r q : Request} (h : grantedRequest s = some r) (hq : Asks s q) :
    q.level.num ≤ r.level.num := by
  obtain ⟨-, -, habove⟩ := grantedRequest_spec h
  rw [grantedRequest_eq] at h
  obtain ⟨before, l, after, hsplit, hl, hbefore⟩ := List.findSome?_eq_some_iff.1 h
  have hlevel : r.level = l := by
    unfold offered at hl
    split at hl
    · simpa using List.find?_some hl
    · cases hl
  have hordered := levels_descending
  have hmem := mem_levels q.level
  rw [hsplit] at hordered hmem
  rw [hlevel] at habove ⊢
  obtain hmem | hmem := List.mem_append.1 hmem
  · have hmasked := offered_eq_none_iff.1 (hbefore _ hmem) q hq rfl
    omega
  · obtain hmem | hmem := List.mem_cons.1 hmem
    · rw [hmem]
    · exact (List.pairwise_cons.1 (List.pairwise_append.1 hordered).2.1).1 _ hmem

/-- The halt request shuts the bus requests out (R285). -/
theorem requestToGrant_eq_none_iff {s : State} :
    requestToGrant s = none ↔ s.haltRequest = true ∨ ∀ q, Asks s q → q.level.num ≤ s.pri := by
  unfold requestToGrant
  split
  case isTrue h => exact iff_of_true rfl (.inl h)
  case isFalse h => simp only [h, Bool.false_eq_true, false_or, grantedRequest_eq_none_iff]

theorem requestToGrant_eq_some {s : State} {r : Request} (h : requestToGrant s = some r) :
    s.haltRequest = false ∧ grantedRequest s = some r := by
  unfold requestToGrant at h
  split at h
  case isTrue => cases h
  case isFalse hhalt => exact ⟨by simpa using hhalt, h⟩

/-- The numbers of the levels (R280). -/
theorem BrLevel.num_bounds (l : BrLevel) : 4 ≤ l.num ∧ l.num ≤ 7 := by cases l <;> decide

/-- The latch holds the lines on which a device requests (R285). -/
theorem holds_brLines {s : State} {l : BrLevel} : s.brLines.holds l = true ↔ ∃ r ∈ s.requests, r.level = l := by
  have hlines : s.brLines.holds l = s.requesting l := by cases l <;> rfl
  simp [hlines, State.requesting]

/-! ### The power lines, the requests and the halt request -/

/-- The traps and the instructions but RESET leave the power lines, the requests and the halt request alone. -/
theorem closedCore_of_lines (p : Power → List Request → Bool → Prop) :
    ClosedCore fun s => p s.power s.requests s.haltRequest where
  regs _ _ h := h
  psw _ _ h := h
  hidden _ _ h := h
  pending _ _ h := h
  npr _ _ h := h
  free _ _ h := h
  memByte _ _ _ h _ _ _ := h
  memWord _ _ _ h _ _ _ _ := h
  ir _ _ h := h
  runState _ _ h := h
  brLatch _ _ h := h

theorem trapSequence_requests (checked : Bool) (v : Word) (s : State) :
    (trapSequence checked v s).requests = s.requests :=
  (closedCore_of_lines fun _ requests _ => requests = s.requests).trapSequence checked v s rfl

/-- A flag, or the halt switch not yet granted, is serviced before the bus requests, which stay as they are (R270). -/
theorem service_keeps_requests {s : State}
    (h : ¬ NothingPending s ∨ (s.haltRequest = true ∧ s.haltPassed = false)) :
    ∃ t, service s = some t ∧ t.requests = s.enterService.requests := by
  cases hflag : flagTrap s.inst.params s.pending with
  | some trap =>
    obtain ⟨checked, v, left⟩ := trap
    exact ⟨_, service_of_flagTrap hflag, trapSequence_requests checked v _⟩
  | none =>
    have hpending := flagTrap_eq_none_iff.1 hflag
    obtain ⟨hhalt, hpassed⟩ := h.resolve_left (not_not_intro hpending)
    exact ⟨_, service_of_haltRequest hpending hhalt hpassed, rfl⟩

/-- Settles O47: the latch by its lines, the grant by the levels in their order, and what precedes it by `flagTrap`. -/
theorem grantedRequestIsHighest : Obligations.GrantedRequestIsHighest := by
  intro s
  refine ⟨rfl, fun hpassed => ?kept, fun hpassed l => ?latched,
    ⟨fun r hr => ?granted, requestToGrant_eq_none_iff, fun hpri => ?masked, fun hpri hhalt hasks hnone => ?unmasked⟩,
    fun h psw => service_keeps_requests (s := s.setPsw psw) h⟩
  case kept => rw [State.brLatch_enterService, if_pos hpassed]
  case latched =>
    rw [State.brLatch_enterService, if_neg (by simp [hpassed])]
    exact holds_brLines
  case granted =>
    obtain ⟨hhalt, hgranted⟩ := requestToGrant_eq_some hr
    obtain ⟨hmem, hlatched, habove⟩ := grantedRequest_spec hgranted
    exact ⟨hhalt, ⟨hmem, hlatched⟩, habove, fun q hq => grantedRequest_highest hgranted hq⟩
  case masked =>
    refine requestToGrant_eq_none_iff.2 (.inr fun q _ => ?_)
    rw [hpri]
    exact q.level.num_bounds.2
  case unmasked =>
    obtain ⟨q, hq⟩ := hasks
    obtain hhalt' | hmasked := requestToGrant_eq_none_iff.1 hnone
    · exact absurd (hhalt.symm.trans hhalt') Bool.false_ne_true
    · have := hmasked q hq
      have := q.level.num_bounds.1
      omega

/-- The power lines of `t` are those of `s`, and `t` has no bus request and no halt request that `s` has not. -/
def LinesWithin (s t : State) : Prop :=
  t.power = s.power ∧ (∀ r ∈ t.requests, r ∈ s.requests) ∧ (t.haltRequest = true → s.haltRequest = true)

theorem LinesWithin.refl (s : State) : LinesWithin s s := ⟨rfl, fun _ h => h, id⟩

theorem closedCore_linesWithin (s : State) : ClosedCore (LinesWithin s) :=
  closedCore_of_lines fun power requests halt =>
    power = s.power ∧ (∀ r ∈ requests, r ∈ s.requests) ∧ (halt = true → s.haltRequest = true)

/-- What the service point takes: a flag's trap, the halt switch, or a bus request (R270). -/
theorem arbitrate_cases {s t : State} (h : arbitrate s = some t) :
    (∃ checked v left, t = trapSequence checked v (s.setPending left)) ∨ t = grantHalt s ∨
    ∃ r, t = trapSequence true r.vector (dropRequest r s) := by
  cases hflag : flagTrap s.inst.params s.pending with
  | some trap =>
    obtain ⟨checked, v, left⟩ := trap
    rw [arbitrate_of_flagTrap hflag] at h
    cases h
    exact .inl ⟨_, _, _, rfl⟩
  | none =>
    rw [arbitrate_of_nothingPending (flagTrap_eq_none_iff.1 hflag)] at h
    split at h
    · cases h
      exact .inr (.inl rfl)
    · obtain ⟨r, -, rfl⟩ := Option.map_eq_some_iff.1 h
      exact .inr (.inr ⟨r, rfl⟩)

/-- Whatever it takes, it only drops requests. -/
theorem service_linesWithin {s t : State} (h : service s = some t) : LinesWithin s.enterService t := by
  obtain ⟨u, hu, rfl⟩ := Option.map_eq_some_iff.1 h
  have htrap (checked v) {w : State} (hw : LinesWithin s.enterService w) :
      LinesWithin s.enterService (trapSequence checked v w) :=
    (closedCore_linesWithin s.enterService).trapSequence checked v w hw
  obtain ⟨checked, v, left, rfl⟩ | rfl | ⟨r, rfl⟩ := arbitrate_cases hu
  · exact htrap checked v (LinesWithin.refl s.enterService)
  · exact ⟨rfl, fun _ hr => hr, fun hoff => by cases hoff⟩
  · exact htrap true r.vector ⟨rfl, fun _ hq => List.mem_of_mem_erase hq, id⟩

/-- An instruction only drops requests: RESET all of them, the others none. -/
theorem runInstruction_linesWithin (s : State) : NextKeeps (LinesWithin s) (runInstruction s) :=
  (closedCore_linesWithin s).runInstruction
    (fun _ ⟨hpower, _, hhalt⟩ => ⟨hpower, fun _ hr => absurd hr List.not_mem_nil, hhalt⟩) s (LinesWithin.refl s)

/-- Once the devices have acted, the turn adds nothing to the lines; a halted processor does not let them act. -/
theorem processorTurn_linesWithin {s t : State} (hinit : s.runState ≠ .init) (h : processorTurn s = .next t) :
    LinesWithin s.enterService t ∨ t = s := by
  unfold processorTurn at h
  split at h
  case h_1 =>
    split at h
    case h_1 hs => cases h; exact .inl (service_linesWithin hs)
    case h_2 => exact .inl (runInstruction_linesWithin s.enterService.leaveService t h)
  case h_2 =>
    split at h
    case h_1 hs => cases h; exact .inl (service_linesWithin hs)
    case h_2 => cases h; exact .inl (LinesWithin.refl s.enterService)
  case h_3 | h_4 => cases h; exact .inr rfl
  case h_5 => cases h
  case h_6 hs => exact absurd hs hinit

/-- A request that stands after the acts of devices stood before them, or one of them has raised it (R280). -/
theorem mem_foldl_apply {acts : List DeviceAct} {l : List Request} {r : Request}
    (h : r ∈ acts.foldl (fun l a => a.apply l) l) : r ∈ l ∨ ∃ n, DeviceAct.raise r n ∈ acts := by
  induction acts generalizing l with
  | nil => exact .inl h
  | cons a acts ih =>
    obtain h | ⟨n, hn⟩ := ih h
    · cases a with
      | raise q n =>
        simp only [DeviceAct.apply, List.mem_append, List.mem_cons] at h
        obtain h | rfl | h := h
        · exact .inl (List.mem_of_mem_take h)
        · exact .inr ⟨n, List.mem_cons_self⟩
        · exact .inl (List.mem_of_mem_drop h)
      | withdraw q => exact .inl (List.mem_of_mem_erase h)
    · exact .inr ⟨n, List.mem_cons_of_mem _ hn⟩

/-- Settles O59: the turn adds nothing to the lines but what the devices' acts raise. -/
theorem processorLeavesTheLines : Obligations.ProcessorLeavesTheLines := by
  intro s₀ s t hturn hinit hstep
  obtain ⟨hpower, hrequests, hhalt⟩ | rfl := processorTurn_linesWithin hinit ((step_of_turn hturn).symm.trans hstep)
  · exact ⟨hpower, fun r hr => mem_foldl_apply (hrequests r hr), hhalt⟩
  · exact ⟨rfl, fun r hr => .inl hr, id⟩

end Sys2Proof.Machine
end

section
/-! Errors in the transfers of a trap sequence (R266, R267, R268): in its first push, which halts the processor, in the push
of PC, and in the two reads of the vector. -/

namespace Sys2Proof.Machine

open Sys2Proof.Config Sys2Proof.Safety

/-- Settles O38: the refused push leaves the state in which it was made, with IR cleared and the requests latched. -/
theorem doubleBusErrorHalts : Obligations.DoubleBusErrorHalts := by
  intro checked v s hs hrefused t
  have ht : t = doubleBusError (trapStart checked v s) := trapSequence_refused hs hrefused
  rw [ht, trapStart_eq]
  exact ⟨rfl, rfl, rfl, fun q hq => State.reg_setReg_of_ne s _ hq, rfl, fun _ => rfl, rfl, rfl, rfl, rfl⟩

/-! ### Reads that raise -/

/-- A word cannot be read at an address that is odd or, not being the processor's own, not answered (R61, R64). -/
def ReadUnanswered (s : State) (a : Word) : Prop :=
  isOdd a = true ∨ (internalAddress a.toNat = false ∧ answer s.inst .dati a = none)

/-- The word that a slave answers with has bad parity (R76). -/
def ReadBadParity (s : State) (a : Word) : Prop :=
  isOdd a = false ∧ internalAddress a.toNat = false ∧ (answer s.inst .dati a).isSome = true ∧
    badParity s.inst a = true

theorem readWord_unanswered {s : State} {a : Word} (hs : s.npr = []) (h : ReadUnanswered s a) :
    readWord .dati a s = .abort .busError s := by
  obtain ⟨hodd, -, -, hslave⟩ := wordReads s .dati a hs
  obtain h | ⟨hi, hn⟩ := h
  · exact hodd h
  · cases ho : isOdd a with
    | true => exact hodd ho
    | false => exact (hslave ho hi).1 hn

/-- The parity error carries the word, of memory the one that stands there (R268). -/
theorem readWord_badParity {s : State} {a : Word} (hs : s.npr = []) (h : ReadBadParity s a) :
    ∃ w n, readWord .dati a s = .abort (.parityError w) { s with free := n } ∧
      (answer s.inst .dati a = some .memory → w = s.memWord a) := by
  obtain ⟨ho, hi, hsome, hbad⟩ := h
  obtain ⟨-, -, -, hslave⟩ := wordReads s .dati a hs
  obtain ⟨-, hmemory, hdevice, -⟩ := hslave ho hi
  obtain ⟨kind, hkind⟩ := Option.isSome_iff_exists.1 hsome
  cases kind with
  | memory => exact ⟨_, s.free, hmemory hkind hbad, fun _ => rfl⟩
  | device =>
    obtain ⟨w, hw⟩ := hdevice hkind hbad
    exact ⟨w, _, hw, fun hm => by rw [hkind] at hm; cases hm⟩

/-! ### The transfers after the first push -/

/-- The state in which the trap sequence makes a transfer after its first: R6 has come down by four, `m` holds what has been
pushed, the flags are `p`, PC is `pc`, and the temporaries R13 and B hold `a` and `b`. -/
def trapAt (m : Memory) (a pc b : Word) (p : Pending) (n : Nat) (s : State) : State :=
  { s with
    regs := (s.regs.set .sp (s.reg .sp - 4)).set .pc pc
    mem := m
    runState := .run
    hidden := { s.hidden with r13 := a, b := b }
    pending := p
    free := n }

/-- Memory with the PSW pushed, which the push of PC finds. -/
def pswPushed (s : State) : State := s.setMemWord (s.reg .sp - 2) (zext s.psw)

/-- The flags in the course of the sequence: only that of stack overflow has been touched. -/
def overflowing (s : State) (overflow : Bool) : Pending := { s.pending with stackOverflow := overflow }

section
variable {checked : Bool} {v : Word} {s : State}

/-- The PSW pushed to plain memory, the sequence comes to the push of PC (R275). -/
theorem trapSequence_pushed (hs : s.npr = []) (h2 : plainWord s (s.reg .sp - 2) = true) :
    ∃ overflow, trapSequence checked v s = ((writeWord (s.reg .sp - 4) (s.reg .pc)
      (trapAt (pswPushed s).mem v (s.reg .pc) (s.reg .pc) (overflowing s overflow) s.free s)).andThen
        fun _ u => loadVector v u).settle := by
  have hpush : writeWord (s.reg .sp - 2) (zext s.psw) (trapStart checked v s) =
      .ok () ((trapStart checked v s).setMemWord (s.reg .sp - 2) (zext s.psw)) :=
    writeWord_plain _ (by rw [trapStart_eq]; exact hs) ((plainWord_congr (by rw [trapStart_eq]) _).trans h2)
  rw [trapSequence_of_alone checked v hs, hpush, trapStart_eq]
  simp only [pushPcAndVector, State.pushDown_eq, trapAt, ← sub_two_two]
  exact ⟨_, rfl⟩

/-- A push of PC that nothing answers ends the sequence there (R266). -/
theorem trapSequence_pcPush_unanswered (hs : s.npr = []) (h2 : plainWord s (s.reg .sp - 2) = true)
    (h4 : answersWrite .word s (s.reg .sp - 4) = false) :
    ∃ overflow, trapSequence checked v s = trapAt (pswPushed s).mem v (s.reg .pc) (s.reg .pc)
      { overflowing s overflow with busError := true } s.free s := by
  obtain ⟨overflow, h⟩ := trapSequence_pushed (checked := checked) (v := v) hs h2
  refine ⟨overflow, ?_⟩
  rw [h, writeWord_refused (s := trapAt _ _ _ _ _ _ s) _ hs (.inr h4)]
  rfl

/-- The sequence has come to its read at `a` with `pc` in PC: to the vector, or past a vector word in plain memory to the
word after it. -/
def TrapReaches (v a pc : Word) (s : State) : Prop :=
  (a = v ∧ pc = s.reg .pc) ∨ (a = v + 2 ∧ plainWord s v = true ∧ pc = (trapFrame s).memWord v)

/-- A read that raises ends it there, its error pending (R266). -/
theorem trapSequence_of_read_abort {a pc : Word} (hs : s.npr = []) (h2 : plainWord s (s.reg .sp - 2) = true)
    (h4 : plainWord s (s.reg .sp - 4) = true) (hreach : TrapReaches v a pc s) :
    ∃ overflow b, ∀ c t,
      readIntoB a (trapAt (trapFrame s).mem a pc b (overflowing s overflow) s.free s) = .abort c t →
      trapSequence checked v s = t.flagAbort c := by
  obtain ⟨overflow, h⟩ := trapSequence_pushed (checked := checked) (v := v) hs h2
  rw [writeWord_plain (s := trapAt _ _ _ _ _ _ s) _ hs ((plainWord_congr rfl _).trans h4), Res.andThen_ok] at h
  refine ⟨overflow, ?_⟩
  obtain ⟨rfl, rfl⟩ | ⟨rfl, hv, rfl⟩ := hreach
  · refine ⟨s.reg .pc, fun c t hread => ?_⟩
    exact h.trans (congrArg Res.settle (loadVector_abort_first hread))
  · refine ⟨(trapFrame s).memWord v, fun c t hread => ?_⟩
    exact h.trans (congrArg Res.settle (loadVector_abort_second
      (s := trapAt (trapFrame s).mem v (s.reg .pc) (s.reg .pc) (overflowing s overflow) s.free s) hs
      ((plainWord_congr rfl _).trans hv) hread))

/-! ### What is left -/

/-- What every error after the first push leaves (R266): the stack pointer down by four over the PSW, and nothing else but
PC, the temporaries and the flags changed. -/
def TrapStopped (pc : Word) (s t : State) : Prop :=
  t.reg .sp = s.reg .sp - 4 ∧ t.memWord (s.reg .sp - 2) = zext s.psw ∧ t.reg .pc = pc ∧ t.psw = s.psw ∧
  (∀ q, q ≠ .sp → q ≠ .pc → t.reg q = s.reg q) ∧ t.runState = .run ∧ t.ir = s.ir ∧ t.requests = s.requests ∧
  SameMemoryBut [s.reg .sp - 4, s.reg .sp - 3, s.reg .sp - 2, s.reg .sp - 1] s t

/-- Where memory is that of a state `u` with the PSW on the stack, the sequence stops so at any of its transfers. -/
theorem trapStopped_trapAt {u : State} (hpsw : u.memWord (s.reg .sp - 2) = zext s.psw)
    (hsame : SameMemoryBut [s.reg .sp - 4, s.reg .sp - 3, s.reg .sp - 2, s.reg .sp - 1] s u) (a pc b : Word) (p : Pending)
    (n : Nat) : TrapStopped pc s (trapAt u.mem a pc b p n s) := by
  refine ⟨rfl, hpsw, rfl, rfl, fun q hsp hpc => ?_, rfl, rfl, rfl, hsame⟩
  exact (State.reg_setReg_of_ne (s.setReg .sp (s.reg .sp - 4)) pc hpc).trans (State.reg_setReg_of_ne s _ hsp)

/-- The push of the PSW changes its two bytes alone. -/
theorem pswPushed_same (s : State) : SameMemoryBut [s.reg .sp - 2, s.reg .sp - 1] s (pswPushed s) := by
  obtain ⟨-, hnext, -⟩ := stackBytes (s.reg .sp)
  have hsame := sameMemoryBut_setMemWord s (s.reg .sp - 2) (zext s.psw)
  rwa [hnext] at hsame

theorem sameMemoryBut_mono {l l' : List Word} {s t : State} (h : SameMemoryBut l s t) (hl : l ⊆ l') :
    SameMemoryBut l' s t := fun x hx => h x fun hx' => hx (hl hx')

/-- After a read that nothing answers a bus error is pending, and the parity error flag as it was (R265). -/
theorem trapStopped_of_unanswered {a pc : Word} (hs : s.npr = []) (hwf : s.mem.wf = true)
    (h2 : plainWord s (s.reg .sp - 2) = true) (h4 : plainWord s (s.reg .sp - 4) = true)
    (hreach : TrapReaches v a pc s) (ha : ReadUnanswered s a) :
    let t := trapSequence checked v s
    TrapStopped pc s t ∧ (∀ x, t.memWord x = (trapFrame s).memWord x) ∧
      t.pending.busError = true ∧ t.pending.parityError = s.pending.parityError := by
  obtain ⟨overflow, b, hstop⟩ := trapSequence_of_read_abort (checked := checked) hs h2 h4 hreach
  have hread := readWord_unanswered (s := trapAt (trapFrame s).mem a pc b (overflowing s overflow) s.free s) hs ha
  intro t
  rw [show t = _ from hstop _ _ (readIntoB_abort hread)]
  exact ⟨trapStopped_trapAt (trapFrame_psw hwf) (trapFrame_same s) a pc _ _ _, fun _ => rfl, rfl, rfl⟩

/-- After a read with bad parity a parity error is pending, the bus error flag as it was, and B holds a word of memory
(R268). -/
theorem trapStopped_of_badParity {a pc : Word} (hs : s.npr = []) (hwf : s.mem.wf = true)
    (h2 : plainWord s (s.reg .sp - 2) = true) (h4 : plainWord s (s.reg .sp - 4) = true)
    (hreach : TrapReaches v a pc s) (ha : ReadBadParity s a) :
    let t := trapSequence checked v s
    TrapStopped pc s t ∧ (∀ x, t.memWord x = (trapFrame s).memWord x) ∧ t.pending.parityError = true ∧
      t.pending.busError = s.pending.busError ∧ (answer s.inst .dati a = some .memory → t.hidden.b = t.memWord a) := by
  obtain ⟨overflow, b, hstop⟩ := trapSequence_of_read_abort (checked := checked) hs h2 h4 hreach
  obtain ⟨w, n, hread, hword⟩ :=
    readWord_badParity (s := trapAt (trapFrame s).mem a pc b (overflowing s overflow) s.free s) hs ha
  intro t
  rw [show t = _ from hstop _ _ (readIntoB_abort hread)]
  exact ⟨trapStopped_trapAt (trapFrame_psw hwf) (trapFrame_same s) a pc _ _ _, fun _ => rfl, rfl, rfl, hword⟩

end

/-- Settles O39: the push of PC that fails leaves the PSW alone on the stack; the reads are of the vector, PC still as it
was, and of the word after it, PC loaded. -/
theorem laterTrapErrorsStayPending : Obligations.LaterTrapErrorsStayPending := by
  intro checked v s hs hwf h2 t noAnswer parity stopped busErrorLeft parityErrorLeft
  refine ⟨fun h4 => ?push, fun h4 => ?reads⟩
  case push =>
    obtain ⟨overflow, ht⟩ := trapSequence_pcPush_unanswered (checked := checked) (v := v) hs h2 h4
    have hsame := pswPushed_same s
    have hstop : TrapStopped (s.reg .pc) s t := by
      rw [show t = _ from ht]
      exact trapStopped_trapAt (State.memWord_setMemWord_self _ _ _ hwf) (sameMemoryBut_mono hsame (by simp)) _ _ _ _ _
    refine ⟨hstop, ?_⟩
    simp only [busErrorLeft, show t = _ from ht]
    exact ⟨hsame, rfl, rfl, rfl⟩
  case reads =>
    have hpc {u : State} (hmem : ∀ x, u.memWord x = (trapFrame s).memWord x) :
        u.memWord (s.reg .sp - 4) = s.reg .pc := (hmem _).trans (trapFrame_pc hwf)
    have hfirst : TrapReaches v v (s.reg .pc) s := .inl ⟨rfl, rfl⟩
    refine ⟨fun ha => ?_, fun ha => ?_, fun hv => ?_⟩
    · obtain ⟨hstop, hmem, hflags⟩ := trapStopped_of_unanswered (checked := checked) hs hwf h2 h4 hfirst ha
      exact ⟨hstop, hpc hmem, hflags⟩
    · obtain ⟨hstop, hmem, hflags⟩ := trapStopped_of_badParity (checked := checked) hs hwf h2 h4 hfirst ha
      exact ⟨hstop, hpc hmem, hflags⟩
    · have hsecond : TrapReaches v (v + 2) ((trapFrame s).memWord v) s := .inr ⟨rfl, hv, rfl⟩
      refine ⟨fun ha => ?_, fun ha => ?_⟩
      · obtain ⟨hstop, hmem, hflags⟩ := trapStopped_of_unanswered (checked := checked) hs hwf h2 h4 hsecond ha
        rw [← hmem v] at hstop
        exact ⟨hstop, hpc hmem, hflags⟩
      · obtain ⟨hstop, hmem, hflags⟩ := trapStopped_of_badParity (checked := checked) hs hwf h2 h4 hsecond ha
        rw [← hmem v] at hstop
        exact ⟨hstop, hpc hmem, hflags⟩

end Sys2Proof.Machine
end

section
/-! Power going down and coming up (R273, R321, R326): AC LO with the pulses PUP and PDWN, and DC LO. -/

namespace Sys2Proof.Machine

open Sys2Proof.Config Sys2Proof.Safety

/-- When the agenda names another agent, the step is that agent's act (R260). -/
theorem step_of_event {s : State} {e : Event} {rest : List Turn} (h : s.agenda = .other e :: rest) :
    step s = .next (applyEvent e { s with agenda := rest }) := by
  simp only [step, h]

/-! ### AC LO and its pulses -/

/-- The assertion of AC LO, seen by a processor that has power and is initialised by nothing, counts unless PUP runs
(R273). -/
theorem assertAcLo_of_powered {s : State} (hoff : s.runState ≠ .powerOff) (hinit : s.runState ≠ .init)
    (hac : s.power.acLo = false) : assertAcLo s = { s with
      power := { s.power with acLo := true, pdwn := s.power.pdwn || !s.power.pup }
      pending := { s.pending with powerFail := s.pending.powerFail || !s.power.pup } } := by
  cases hpup : s.power.pup with
  | true => simp [assertAcLo, hac, hpup, State.setPower]
  | false => simp [assertAcLo, hac, hpup, hoff, hinit, State.setPower, State.setPending]

/-- Without power, in INIT or when the line is asserted already only the line changes (R273, R321). -/
theorem assertAcLo_of_ignored {s : State}
    (h : s.runState = .powerOff ∨ s.runState = .init ∨ s.power.acLo = true) :
    assertAcLo s = s.setPower { s.power with acLo := true } := by
  unfold assertAcLo
  refine if_pos ?_
  obtain h | h | h := h <;> simp [h]

/-- PDWN times out with power there: the processor is initialised (R273). -/
theorem endPowerDown_of_powered {s : State} (hoff : s.runState ≠ .powerOff) (hpdwn : s.power.pdwn = true) :
    endPowerDown s = enterInit s := by
  simp [endPowerDown, hoff, hpdwn]

theorem endPowerDown_of_ignored {s : State} (h : s.runState = .powerOff ∨ s.power.pdwn = false) :
    endPowerDown s = s.setPower { s.power with pdwn := false } := by
  unfold endPowerDown
  refine if_neg ?_
  obtain h | h := h <;> simp [h]

/-! ### DC LO -/

/-- Without power the processor takes no step (R326). -/
theorem step_of_powerOff {s u : State} (hturn : TurnOf s u) (hoff : s.runState = .powerOff) :
    step s = .fault .powerOff := by
  have hrun : u.runState = .powerOff := by
    obtain ⟨-, rfl⟩ | ⟨l, acts, rest, -, rfl⟩ := hturn
    · exact hoff
    · exact hoff
  rw [step_of_turn hturn, processorTurn, hrun]

/-- Memory after a loss of power (U8). -/
theorem mem_powerUp (s : State) : (powerUp s).mem = if s.inst.memoryRetained then s.mem else [] := by
  show State.mem (if s.inst.memoryRetained then s else s.setMem []) = _
  split <;> rfl

/-- Power comes up: the processor is initialised, with nothing pending or requested (R321, R326). -/
theorem powerUp_init (s : State) : (powerUp s).runState = .init ∧ (powerUp s).ir = 0o100000 ∧
    NothingPending (powerUp s) ∧ (powerUp s).requests = [] ∧
    (powerUp s).power = { s.power with pup := false, pdwn := false } ∧ (powerUp s).haltRequest = s.haltRequest ∧
    (powerUp s).inst = s.inst ∧ (powerUp s).agenda = s.agenda := by
  unfold powerUp
  split
  · exact ⟨rfl, rfl, rfl, rfl, rfl, rfl, rfl, rfl⟩
  · exact ⟨rfl, rfl, rfl, rfl, rfl, rfl, rfl, rfl⟩

/-- Settles O54: each line's change is one event of the agenda, and the processor's turn without power is a fault. -/
theorem powerFail : Obligations.PowerFail := by
  intro s rest
  refine ⟨fun h hoff hinit hac => ?asserted, fun h hignored => ?ignored, fun h => ?negated, fun h => ?pupEnds,
    fun h hoff hpdwn => ?pdwnEnds, fun h hignored => ?pdwnIgnored, fun h => ?dcLo, fun u => step_of_powerOff,
    fun h => ⟨fun hdc => ?dcLoIgnored, fun hdc => ?dcLoNegated⟩⟩
  all_goals rw [step_of_event h]
  case asserted =>
    have ht := assertAcLo_of_powered (s := { s with agenda := rest }) hoff hinit hac
    exact ⟨_, congrArg Host.Outcome.next ht, rfl, rfl, rfl⟩
  case ignored => exact congrArg Host.Outcome.next (assertAcLo_of_ignored (s := { s with agenda := rest }) hignored)
  case negated | pupEnds | dcLo => rfl
  case pdwnEnds =>
    have ht := endPowerDown_of_powered (s := { s with agenda := rest }) hoff hpdwn
    exact ⟨_, congrArg Host.Outcome.next ht, rfl, rfl, rfl, rfl, rfl, rfl, rfl, rfl⟩
  case pdwnIgnored =>
    exact congrArg Host.Outcome.next (endPowerDown_of_ignored (s := { s with agenda := rest }) hignored)
  case dcLoIgnored => simp only [applyEvent, hdc, Bool.false_eq_true, if_false]
  case dcLoNegated =>
    obtain ⟨hrun, hir, hpending, hrequests, hpower, hhalt, hinst, hagenda⟩ :=
      powerUp_init { s with agenda := rest, power := { s.power with dcLo := false } }
    refine ⟨_, ?_, hrun, hir, hpending, hrequests, hpower, hhalt, hinst, hagenda, mem_powerUp _⟩
    simp only [applyEvent, hdc, if_true]
    rfl

end Sys2Proof.Machine
end
